-- ==== Sys2Proof/Word.lean ====
section
/-! DEFINITION. The word of the two ports: 64 bits (00_scope.md R4 `WORD`, 20_memory.md R51, R52). -/

namespace Sys2Proof

/-- A command word, an operand word or the DATA field of a response (R4 `WORD` = 64). Bit 0 is the
least significant bit (R7, R53). -/
abbrev Word := BitVec 64

end Sys2Proof
end

