-- ==== Sys2Proof/Config.lean ====
section
/-! DEFINITION. The parameters of 00_scope.md rule R4: the numbers this hardware fixes, and the two
parameters the spec leaves OPEN, as constants with no body. -/

namespace Sys2Proof

/-- The two formulas of the second Geffe entry point (R4 `GEFFE_ALT_FORM`, 42_geffe_combiner.md R144). -/
inductive GeffeAltForm where
  /-- Uses NOT b2, as the reference does. -/
  | reference
  /-- Uses NOT b1, as the published formula does. -/
  | textbook
  deriving DecidableEq, Repr

/-- How a host bus serialises a word into bytes (R4 `HOST_BYTE_ORDER`, R53). The spec names no value of
this parameter. That it has exactly these two is the model's choice (DESIGN CHOICE, log entry 2); no
definition reads either of them. -/
inductive ByteOrder where
  | leastSignificantFirst
  | mostSignificantFirst
  deriving DecidableEq, Repr, Inhabited

namespace Config

/-- R4 `NSLOT`: the number of source slots S0, S1, S2. -/
def nSlot : Nat := 3

/-- R4 `NF_MAX`: the largest Fibonacci register length. -/
def nfMax : Nat := 64

/-- R4 `NG_MAX`: the largest Galois register width. -/
def ngMax : Nat := 64

/-- R4 `NOUT_MAX`: the largest n of SRC_GETN and CMB_GETN. -/
def noutMax : Nat := 64

/-- R4 `RETRY_CAP`, OPEN: `none`, or `some K` with K >= 1. No body: nothing can evaluate it, so a
statement about the machine holds whichever value the parameter takes (log entry 1). -/
opaque retryCap : Option ℕ+

/-- R4 `GEFFE_ALT_FORM`: REFERENCE is this hardware's value (R144). -/
def geffeAltForm : GeffeAltForm := .reference

/-- R4 `HOST_BYTE_ORDER`, OPEN. No rule of the spec reads it, and no definition of the model does
(R53, log entry 2). -/
opaque hostByteOrder : ByteOrder

end Config

end Sys2Proof
end

