-- ==== Sys2Proof/Syntax.lean ====
section
/-! DEFINITION. The command set as syntax (30_encoding.md R70 to R76): slot names, the twelve
opcodes, the twelve commands with their operands, a command as the words received, and the names
under which a header is rejected. -/

namespace Sys2Proof

/-- A source slot S0, S1 or S2 (10_state.md R20, R21). Slot number 3 does not exist (R75). -/
inductive SlotId where
  | s0 | s1 | s2
  deriving DecidableEq, Repr

/-- The twelve defined opcodes (R76), one per row of the opcode table. -/
inductive Op where
  | cfgFib | cfgGal | srcNext | srcGetn
  | bindGeffe | bindStopgo | bindShrink | bindSshrink
  | cmbNext | cmbGetn | geffeNextAlt | release
  deriving DecidableEq, Repr

/-- A command of the block with its operands, one constructor per row of the opcode table (R76). -/
inductive Instr where
  /-- CFG_FIB k, L, TAPS, SEED (R103): L is the 7-bit field N, any value at decode (R74). -/
  | cfgFib (k : SlotId) (len : BitVec 7) (taps seed : Word)
  /-- CFG_GAL k, POLY, STATE (R122). -/
  | cfgGal (k : SlotId) (poly state : Word)
  /-- SRC_NEXT k (R222). -/
  | srcNext (k : SlotId)
  /-- SRC_GETN k, n (R223). -/
  | srcGetn (k : SlotId) (n : BitVec 7)
  /-- BIND_GEFFE (R140). -/
  | bindGeffe
  /-- BIND_STOPGO (R160). -/
  | bindStopgo
  /-- BIND_SHRINK (R180). -/
  | bindShrink
  /-- BIND_SSHRINK (R200). -/
  | bindSshrink
  /-- CMB_NEXT (R224). -/
  | cmbNext
  /-- CMB_GETN n (R225). -/
  | cmbGetn (n : BitVec 7)
  /-- GEFFE_NEXT_ALT (R143). -/
  | geffeNextAlt
  /-- RELEASE (R226). -/
  | release
  deriving DecidableEq, Repr

/-- A complete command as it was received: its header word and its operand words (R70). -/
structure Command where
  header   : Word
  operands : List Word
  deriving DecidableEq, Repr

/-- Why a word sequence is no command. The first five are the checks of R78, and the block answers
each with ILLEGAL_COMMAND; the last three say that the words are not exactly one command. -/
inductive DecodeError where
  /-- OPC is none of the twelve of R76. -/
  | reservedOpcode
  /-- RSV_HI or RSV_LO is not 0 (R72). -/
  | reservedBits
  /-- SLOT is 3 on a slot command (R75). -/
  | slotOutOfRange
  /-- SLOT is not 0 on a command that names no slot (R75). -/
  | slotNotZero
  /-- N is not 0 where it must be, or n > 64 on a GETN command (R74). -/
  | countNotAllowed
  /-- There is no word at all. -/
  | noHeader
  /-- Fewer operand words than R71 asks for. -/
  | missingOperands
  /-- More words than R71 asks for. -/
  | extraOperands
  deriving DecidableEq, Repr

end Sys2Proof
end

