-- ==== Sys2Proof/WellFormed.lean ====
section
/-! DEFINITION. Which commands have an encoding: the one range that the types of `Instr` leave
open, n <= 64 on the GETN commands (30_encoding.md R74). -/

namespace Sys2Proof

/-- A command the encoding can express. SLOT is a `SlotId`, so slot 3 cannot be written (R75). CFG_FIB
takes every N (R74: "Decode accepts every N"). The GETN commands take n <= `NOUT_MAX`. -/
def Instr.wf : Instr → Bool
  | .cfgFib _ _ _ _ => true
  | .cfgGal _ _ _ => true
  | .srcNext _ => true
  | .srcGetn _ n => n.toNat ≤ Config.noutMax
  | .bindGeffe => true
  | .bindStopgo => true
  | .bindShrink => true
  | .bindSshrink => true
  | .cmbNext => true
  | .cmbGetn n => n.toNat ≤ Config.noutMax
  | .geffeNextAlt => true
  | .release => true

end Sys2Proof
end

