-- ==== Sys2Proof/Decode.lean ====
section
/-! DEFINITION. The decoder of 30_encoding.md (R71 to R78), total on every list of words and
rejecting by name, and after it the encoder. -/

namespace Sys2Proof

/-! ### Fields of a header word (R72) -/

/-- RSV_HI, bits 63:32. -/
def rsvHiOf (h : Word) : BitVec 32 := h.extractLsb' 32 32

/-- OPC, bits 31:24. -/
def opcOf (h : Word) : BitVec 8 := h.extractLsb' 24 8

/-- SLOT, bits 23:22. -/
def slotOf (h : Word) : BitVec 2 := h.extractLsb' 22 2

/-- RSV_LO, bits 21:7. -/
def rsvLoOf (h : Word) : BitVec 15 := h.extractLsb' 7 15

/-- N, bits 6:0. -/
def countOf (h : Word) : BitVec 7 := h.extractLsb' 0 7

/-- R71: the number of words of the command that begins with header `h`. It depends on OPC and on
nothing else, so an illegal CFG header is still followed by two operand words. -/
def commandLength (h : Word) : Nat :=
  if opcOf h = 0x01#8 ∨ opcOf h = 0x02#8 then 3 else 1

/-! ### The opcode map (R76) -/

/-- R76: the opcode of each command. -/
def Op.opc : Op → BitVec 8
  | .cfgFib       => 0x01#8
  | .cfgGal       => 0x02#8
  | .srcNext      => 0x03#8
  | .srcGetn      => 0x04#8
  | .bindGeffe    => 0x10#8
  | .bindStopgo   => 0x11#8
  | .bindShrink   => 0x12#8
  | .bindSshrink  => 0x13#8
  | .cmbNext      => 0x20#8
  | .cmbGetn      => 0x21#8
  | .geffeNextAlt => 0x22#8
  | .release      => 0x30#8

/-- R76 read backwards: the command of an OPC value, or none for the 244 reserved values (R77). -/
def opOfOpc (opc : BitVec 8) : Option Op :=
  match opc.toNat with
  | 0x01 => some .cfgFib
  | 0x02 => some .cfgGal
  | 0x03 => some .srcNext
  | 0x04 => some .srcGetn
  | 0x10 => some .bindGeffe
  | 0x11 => some .bindStopgo
  | 0x12 => some .bindShrink
  | 0x13 => some .bindSshrink
  | 0x20 => some .cmbNext
  | 0x21 => some .cmbGetn
  | 0x22 => some .geffeNextAlt
  | 0x30 => some .release
  | _    => none

/-- R75: the commands whose SLOT field names a slot. -/
def Op.namesSlot : Op → Bool
  | .cfgFib | .cfgGal | .srcNext | .srcGetn => true
  | .bindGeffe | .bindStopgo | .bindShrink | .bindSshrink => false
  | .cmbNext | .cmbGetn | .geffeNextAlt | .release => false

/-- R74: which values of N a command admits at decode. -/
def Op.admitsCount (op : Op) (n : BitVec 7) : Bool :=
  match op with
  | .cfgFib => true
  | .srcGetn | .cmbGetn => n.toNat ≤ Config.noutMax
  | .cfgGal | .srcNext | .bindGeffe | .bindStopgo | .bindShrink | .bindSshrink => n = 0#7
  | .cmbNext | .geffeNextAlt | .release => n = 0#7

/-- The match word of R76: `OPC << 24`. -/
def Op.matchWord (op : Op) : Word := op.opc.setWidth 64 <<< 24

/-- The mask of R76 over all 64 bits. -/
def Op.maskWord : Op → Word
  | .cfgFib | .srcGetn => 0xFFFFFFFFFF3FFF80#64
  | .cfgGal | .srcNext => 0xFFFFFFFFFF3FFFFF#64
  | .cmbGetn => 0xFFFFFFFFFFFFFF80#64
  | .bindGeffe | .bindStopgo | .bindShrink | .bindSshrink => 0xFFFFFFFFFFFFFFFF#64
  | .cmbNext | .geffeNextAlt | .release => 0xFFFFFFFFFFFFFFFF#64

/-! ### The decoder (R78) -/

/-- The slot that the value of SLOT names, or none for 3 (R75). -/
def slotIdOf (k : BitVec 2) : Option SlotId :=
  match k.toNat with
  | 0 => some .s0
  | 1 => some .s1
  | 2 => some .s2
  | _ => none

/-- R75: the SLOT field under a command. A command that names no slot needs SLOT = 0, and S0 then
stands for that 0. -/
def slotField (op : Op) (k : BitVec 2) : Except DecodeError SlotId :=
  if op.namesSlot then
    match slotIdOf k with
    | some id => .ok id
    | none => .error .slotOutOfRange
  else if k = 0#2 then .ok .s0
  else .error .slotNotZero

/-- R78 `Decode(h)`: the triple (op, k, N), or the name of the check that failed. -/
def decodeHeader (h : Word) : Except DecodeError (Op × SlotId × BitVec 7) :=
  match opOfOpc (opcOf h) with
  | none => .error .reservedOpcode
  | some op =>
    if rsvHiOf h ≠ 0#32 ∨ rsvLoOf h ≠ 0#15 then .error .reservedBits
    else
      match slotField op (slotOf h) with
      | .error e => .error e
      | .ok k => if op.admitsCount (countOf h) then .ok (op, k, countOf h) else .error .countNotAllowed

/-- The command of a decoded header and of the words after it, with the words it leaves (R70, R73). -/
def assembleOperands (op : Op) (k : SlotId) (n : BitVec 7) (ws : List Word) :
    Except DecodeError (Instr × List Word) :=
  match op with
  | .cfgFib =>
    match ws with
    | taps :: seed :: rest => .ok (.cfgFib k n taps seed, rest)
    | _ => .error .missingOperands
  | .cfgGal =>
    match ws with
    | poly :: state :: rest => .ok (.cfgGal k poly state, rest)
    | _ => .error .missingOperands
  | .srcNext      => .ok (.srcNext k, ws)
  | .srcGetn      => .ok (.srcGetn k n, ws)
  | .bindGeffe    => .ok (.bindGeffe, ws)
  | .bindStopgo   => .ok (.bindStopgo, ws)
  | .bindShrink   => .ok (.bindShrink, ws)
  | .bindSshrink  => .ok (.bindSshrink, ws)
  | .cmbNext      => .ok (.cmbNext, ws)
  | .cmbGetn      => .ok (.cmbGetn n, ws)
  | .geffeNextAlt => .ok (.geffeNextAlt, ws)
  | .release      => .ok (.release, ws)

/-- The first command of a sequence of words, and the words after it. -/
def decode : List Word → Except DecodeError (Instr × List Word)
  | [] => .error .noHeader
  | h :: ws =>
    match decodeHeader h with
    | .error e => .error e
    | .ok (op, k, n) => assembleOperands op k n ws

/-- The number of words of a complete command is the one R71 gives for its header. -/
def Command.complete (c : Command) : Bool := c.operands.length + 1 = commandLength c.header

/-- The command that exactly these words make. -/
def decodeCommand (c : Command) : Except DecodeError Instr :=
  match decode (c.header :: c.operands) with
  | .error e => .error e
  | .ok (i, []) => .ok i
  | .ok (_, _ :: _) => .error .extraOperands

/-! ### The encoder (R72, R73, R76, R81) -/

/-- R75: the value of SLOT that names a slot. -/
def SlotId.field : SlotId → BitVec 2
  | .s0 => 0#2
  | .s1 => 1#2
  | .s2 => 2#2

/-- R72: `header = (OPC << 24) or (SLOT << 22) or N`, with every other bit 0. -/
def encodeHeader (op : Op) (k : SlotId) (n : BitVec 7) : Word :=
  (op.opc.setWidth 64 <<< 24) ||| (k.field.setWidth 64 <<< 22) ||| n.setWidth 64

/-- The words of a command, header first (R81). -/
def encode : Instr → List Word
  | .cfgFib k len taps seed => [encodeHeader .cfgFib k len, taps, seed]
  | .cfgGal k poly state    => [encodeHeader .cfgGal k 0#7, poly, state]
  | .srcNext k              => [encodeHeader .srcNext k 0#7]
  | .srcGetn k n            => [encodeHeader .srcGetn k n]
  | .bindGeffe              => [encodeHeader .bindGeffe .s0 0#7]
  | .bindStopgo             => [encodeHeader .bindStopgo .s0 0#7]
  | .bindShrink             => [encodeHeader .bindShrink .s0 0#7]
  | .bindSshrink            => [encodeHeader .bindSshrink .s0 0#7]
  | .cmbNext                => [encodeHeader .cmbNext .s0 0#7]
  | .cmbGetn n              => [encodeHeader .cmbGetn .s0 n]
  | .geffeNextAlt           => [encodeHeader .geffeNextAlt .s0 0#7]
  | .release                => [encodeHeader .release .s0 0#7]

/-- A command as the port holds it once its last word has been received. -/
def Command.ofInstr (i : Instr) : Command :=
  match encode i with
  | [] => ⟨0#64, []⟩
  | h :: ws => ⟨h, ws⟩

/-! ### A row of the opcode table as one number -/

/-- Word `j` of an instruction whose bits, numbered as the opcode table numbers them, are the low
`nbits` bits of `w`: word 0 holds bits 63..0, and every bit from `nbits` up is 0. The block moves
whole words and has no byte order (R53). -/
def tableWord (nbits w j : Nat) : Word := BitVec.ofNat 64 ((w % 2 ^ nbits) >>> (64 * j))

/-- The command received with those bits: the header, and the two operand words where R71 asks for
them. -/
def tableCommand (nbits w : Nat) : Command :=
  let h := tableWord nbits w 0
  if commandLength h = 3 then ⟨h, [tableWord nbits w 1, tableWord nbits w 2]⟩ else ⟨h, []⟩

/-- The instruction the decoder reads from those bits. -/
def decodeTableWord (nbits w : Nat) : Option Instr :=
  match decodeCommand (tableCommand nbits w) with
  | .ok i => some i
  | .error _ => none

end Sys2Proof
end

