-- ==== Sys2Proof/Machine/State.lean ====
section
/-! DEFINITION. The state of one block instance, `(S[0], S[1], S[2], CMB, PORT)` (10_state.md R20),
with the host's side of the two ports beside it, the reasons a step can stop, and the state after
reset (R33). All of it is plain data. -/

namespace Sys2Proof.Machine

/-- A source slot (R21, R22, R24). A slot has the fields of its kind and no others: R33 says that a
model should give the fields of an EMPTY slot no value at all, since no rule can read them. -/
inductive Slot where
  /-- `EMPTY`: the slot holds no register. -/
  | empty
  /-- `FIB`: length L (7 bits), tap set T and register contents r (64 bits each), element i at bit i. -/
  | fib (L : BitVec 7) (T r : Word)
  /-- `GAL`: width m (7 bits), polynomial P and retained state s (64 bits each). -/
  | gal (m : BitVec 7) (P s : Word)
  deriving DecidableEq, Repr

/-- The combiner register CMB (R26): its kind and, while the kind is STOPGO, the three latched bits.
While it is another kind their values are unspecified and no rule reads them (R26, R33). -/
inductive Cmb where
  /-- `NONE`: no combiner is bound. -/
  | none
  /-- `GEFFE`. -/
  | geffe
  /-- `STOPGO`, with the latched bits b1, b2 and b3. -/
  | stopgo (b1 b2 b3 : Bool)
  /-- `SHRINK`. -/
  | shrink
  /-- `SSHRINK`. -/
  | sshrink
  deriving DecidableEq, Repr

/-- The status names (60_exceptions.md R250). The codes 6 to 15 are reserved and have no name. -/
inductive Status where
  | ok | illegalCommand | configError | notReady | owned | exhausted
  deriving DecidableEq, Repr

/-- One response: a 4-bit STATUS and a 64-bit DATA value (20_memory.md R52). -/
structure Response where
  status : BitVec 4
  data   : Word
  deriving DecidableEq, Repr

/-- The command-port state PORT (R32). -/
inductive Port where
  /-- `IDLE`: the next word received is a header word. -/
  | idle
  /-- `COLLECT(h, 0)`: header h of a 3-word command has been received. -/
  | collect0 (h : Word)
  /-- `COLLECT(h, 1)`: header h and its first operand word have been received. -/
  | collect1 (h a : Word)
  /-- `BUSY(c)`: the complete command c is executing. -/
  | busy (c : Command)
  /-- `RESP(st, d)`: the response is waiting to be taken by the host. -/
  | resp (r : Response)
  deriving DecidableEq, Repr

/-- What the host does on the command port (20_memory.md R51). -/
inductive CommandAction where
  /-- The host presents a word, and holds it until the block accepts it. -/
  | word (w : Word)
  /-- The host presents nothing for one step. -/
  | wait
  deriving DecidableEq, Repr

/-- What the host does on the response port (20_memory.md R52). -/
inductive ResponseAction where
  /-- The host takes the response that waits, and is ready until there is one. -/
  | take
  /-- The host takes nothing for one step. -/
  | wait
  deriving DecidableEq, Repr

/-- The host's side of the two ports and of the reset input, each independent of the others. It is the
model's own field, not the block's state (log entry 4). -/
structure HostSide where
  /-- What the host is going to do on the command port, oldest first. At its end it presents nothing. -/
  commands  : List CommandAction
  /-- What the host is going to do on the response port, oldest first. At its end it takes nothing. -/
  responses : List ResponseAction
  /-- Whether the host asserts reset, in this step and in each one after it. At its end it does not. -/
  resets    : List Bool
  /-- The responses the host has taken, oldest first. -/
  received  : List Response
  deriving DecidableEq, Repr

/-- The state of one block instance (R20) and of its host's side of the ports. -/
structure State where
  /-- Source slot S[0]. -/
  s0   : Slot
  /-- Source slot S[1]. -/
  s1   : Slot
  /-- Source slot S[2]. -/
  s2   : Slot
  /-- The combiner register. -/
  cmb  : Cmb
  /-- The command-port state. -/
  port : Port
  /-- The host's side of the ports, the model's own field. -/
  host : HostSide
  deriving DecidableEq, Repr

/-- Why the machine can stop. None of them happens in a state that satisfies `State.Inv`
(Safety.lean), and every state a run from reset reaches does. -/
inductive Fault where
  /-- A draw from an EMPTY slot. 46_prbs_output_pipeline.md R220: "`Draw` on an EMPTY slot therefore
  never happens". Raised by CMB_NEXT, CMB_GETN and GEFFE_NEXT_ALT in a state whose bound combiner
  owns an EMPTY slot, which no run reaches. Safe. -/
  | drawOnEmptySlot
  /-- The response the host takes carries one of the codes 6 to 15. 93_implementation_defined.md
  item 7: "a response carrying one of them is an implementation fault". Raised by a step in RESP;
  no command produces such a response. Safe. -/
  | reservedStatus
  /-- PORT is BUSY with more or fewer words than R71 gives for the header. Raised by a step in BUSY;
  the port never collects such a command. Safe. -/
  | incompleteCommand
  deriving DecidableEq, Repr

/-- Why an instruction has no meaning in the model. -/
inductive Refusal where
  /-- Raised by an arm of `exec` whose instruction has no meaning yet. Safe. No arm does. -/
  | notModelled (mnemonic : String)
  deriving DecidableEq, Repr

/-- The answer of a step or of a command. -/
abbrev Answer := Host.Outcome State Fault Refusal

/-- R33: the state after reset. Every slot is EMPTY, CMB is NONE, PORT is IDLE with no response
pending, and no other field exists. The host has not done anything yet. -/
def State.reset : State where
  s0   := .empty
  s1   := .empty
  s2   := .empty
  cmb  := .none
  port := .idle
  host := ⟨[], [], [], []⟩

end Sys2Proof.Machine
end

