-- ==== Sys2Proof/Machine/Operands.lean ====
section
/-! DEFINITION. The operators of 00_scope.md R7 and R8 on 64-bit words, the packing of output units
(46_prbs_output_pipeline.md R221, R228), and access to a slot by its name (R9, 10_state.md R27). -/

namespace Sys2Proof.Machine

/-! ### Operators on words -/

/-- A bit as a word, with every bit above bit 0 clear. -/
def bitWord (b : Bool) : Word := if b then 1#64 else 0#64

/-- The word 2^n - 1, whose low n bits are 1; for n >= 64 every bit is. -/
def lowMask (n : Nat) : Word := BitVec.ofNat 64 (2 ^ n - 1)

/-- `v mod 2^n` (R8). -/
def truncTo (n : Nat) (v : Word) : Word := v &&& lowMask n

/-- The xor of bits n-1..0 of v. -/
def parityUpTo : Nat → Word → Bool
  | 0, _ => false
  | n + 1, v => v.getLsbD n ^^ parityUpTo n v

/-- `parity(v)`: the xor of all bits of v (R8). -/
def parity (v : Word) : Bool := parityUpTo 64 v

/-- `popcount` of the low n bits of v. -/
def popcountUpTo : Nat → Word → Nat
  | 0, _ => 0
  | n + 1, v => (if v.getLsbD n then 1 else 0) + popcountUpTo n v

/-- `popcount(v)`: the number of 1 bits of v (R8). -/
def popcount (v : Word) : Nat := popcountUpTo 64 v

/-- The place above the highest 1 among bits n-1..0 of v, and 0 if they are all 0. -/
def bitlenUpTo : Nat → Word → Nat
  | 0, _ => 0
  | n + 1, v => if v.getLsbD n then n + 1 else bitlenUpTo n v

/-- `bitlen(v)`: for v > 0, the number of bits needed to write v (R7). -/
def bitlen (v : Word) : Nat := bitlenUpTo 64 v

/-- `Pack(u_0, ..., u_{j-1}; w)` (R221): the first unit lands in the most significant position. -/
def pack (w : Nat) (us : List Word) : Word := us.foldl (fun v u => (v <<< w) ||| u) 0#64

/-- R228: the host's view of n output bits as a string, left to right: character j is
DATA[n-1-j]. -/
def stringView (n : Nat) (data : Word) : List Bool :=
  (List.range n).map fun j => data.getLsbD (n - 1 - j)

/-! ### Slots by name -/

/-- R9: read `S[k]`. -/
def State.slot (s : State) : SlotId → Slot
  | .s0 => s.s0
  | .s1 => s.s1
  | .s2 => s.s2

/-- R9: write `S[k]`. -/
def State.setSlot (s : State) (k : SlotId) (v : Slot) : State :=
  match k with
  | .s0 => { s with s0 := v }
  | .s1 => { s with s1 := v }
  | .s2 => { s with s2 := v }

/-- Write CMB. -/
def State.setCmb (s : State) (c : Cmb) : State := { s with cmb := c }

/-- Write PORT. -/
def State.setPort (s : State) (p : Port) : State := { s with port := p }

/-- Write the host's side of the ports. -/
def State.setHost (s : State) (h : HostSide) : State := { s with host := h }

/-- `S[k].kind = EMPTY`. -/
def Slot.isEmpty : Slot → Bool
  | .empty => true
  | .fib _ _ _ => false
  | .gal _ _ _ => false

/-- `S[k].kind = GAL`. -/
def Slot.isGal : Slot → Bool
  | .empty => false
  | .fib _ _ _ => false
  | .gal _ _ _ => true

/-- `CMB.kind = NONE`. -/
def Cmb.isNone : Cmb → Bool
  | .none => true
  | .geffe => false
  | .stopgo _ _ _ => false
  | .shrink => false
  | .sshrink => false

/-- `CMB.kind = GEFFE`. -/
def Cmb.isGeffe : Cmb → Bool
  | .none => false
  | .geffe => true
  | .stopgo _ _ _ => false
  | .shrink => false
  | .sshrink => false

/-- R27: the slots the bound combiner owns. -/
def Cmb.ownedSlots : Cmb → List SlotId
  | .none => []
  | .geffe => [.s0, .s1, .s2]
  | .stopgo _ _ _ => [.s0, .s1, .s2]
  | .shrink => [.s0, .s1]
  | .sshrink => [.s0, .s1]

/-- R27 `owned(k)`. -/
def State.owned (s : State) (k : SlotId) : Bool := s.cmb.ownedSlots.contains k

/-- R227: the width of the bound combiner's unit. With no combiner bound there is no unit, and the
answer is 0; every combiner command has raised NOT_READY by then. -/
def Cmb.unitWidth : Cmb → Nat
  | .none => 0
  | .geffe => 1
  | .stopgo _ _ _ => 1
  | .shrink => 1
  | .sshrink => 2

end Sys2Proof.Machine
end

