-- ==== Sys2Proof/Machine/Lfsr.lean ====
section
/-! DEFINITION. The two step functions: `FibStep` (40_fibonacci_lfsr.md R100, R101) and `GalStep`
(41_galois_lfsr.md R120, R121). The word forms are the ones the block runs; the source's own
algorithms stand beside them, so that their equality can be stated. -/

namespace Sys2Proof.Machine

/-! ### Fibonacci form -/

/-- R101: `FibStep` in word form. The accumulator starts at 1 (R102), and the taps are read from r
before the shift. -/
def fibStep (L : BitVec 7) (T r : Word) : Bool × Word :=
  let acc := true ^^ parity (r &&& T)
  (acc, truncTo L.toNat (r <<< 1) ||| bitWord acc)

/-- The accumulator of R100 after the taps 0..n-1, read from the sequence `seq`. -/
def fibAccumulate (T : Word) (seq : List Bool) : Nat → Bool
  | 0 => true
  | t + 1 =>
    if T.getLsbD t then fibAccumulate T seq t ^^ seq.getD t false
    else fibAccumulate T seq t

/-- `rotate_right` of R100: the last element moves to the front, and every other element moves one
place up. -/
def rotateRight : List Bool → List Bool
  | [] => []
  | b :: bs => (b :: bs).getLast (by simp) :: (b :: bs).dropLast

/-- R100: the source's algorithm, on the source's ordered sequence of L bits: accumulate, rotate,
overwrite the front element. -/
def fibStepRef (T : Word) (seq : List Bool) : Bool × List Bool :=
  let acc := fibAccumulate T seq seq.length
  (acc, (rotateRight seq).set 0 acc)

/-- R22: the word r as the source's sequence of L bits, element i at bit i. -/
def elements (L : Nat) (r : Word) : List Bool := (List.range L).map r.getLsbD

/-! ### Galois form -/

/-- R121: `GalStep` on the retained m-bit state. -/
def galStep (m : BitVec 7) (P s : Word) : Bool × Word :=
  let out := s.getLsbD (m.toNat - 1)
  (out, truncTo m.toNat (s <<< 1) ^^^ (if out then P else 0#64))

/-- R120: the source's algorithm, on a state integer with no bound on its width. -/
def galStepRef (P mask X : Nat) : Bool × Nat :=
  let X' := X <<< 1
  if X' &&& mask ≠ 0 then (true, X' ^^^ P) else (false, X')

/-! ### One step of a slot -/

/-- R220 on the slot alone: the bit drawn and the slot after it, or none for an EMPTY slot. -/
def Slot.step : Slot → Option (Bool × Slot)
  | .empty => none
  | .fib L T r => some ((fibStep L T r).1, .fib L T (fibStep L T r).2)
  | .gal m P s => some ((galStep m P s).1, .gal m P (galStep m P s).2)

end Sys2Proof.Machine
end

