-- ==== Sys2Proof/Machine/Flags.lean ====
section
/-! DEFINITION. The block has no flags (10_state.md R30): the only condition it reports is the STATUS
of a response. Here are the status codes (60_exceptions.md R250) and, for each command, its checks
in the order of the priority table of R254. -/

namespace Sys2Proof.Machine

/-- R250: the 4-bit code of each status. -/
def Status.code : Status → BitVec 4
  | .ok             => 0#4
  | .illegalCommand => 1#4
  | .configError    => 2#4
  | .notReady       => 3#4
  | .owned          => 4#4
  | .exhausted      => 5#4

/-- R250: the codes 6 to 15 are reserved. -/
def reservedCode (st : BitVec 4) : Bool := 5 < st.toNat

/-- R254: "When several checks fail, a command reports the first one in its row." A row is a list of
checks, each true where it fails, with the status it raises. -/
def firstFailing : List (Bool × Status) → Option Status
  | [] => none
  | (true, st) :: _ => some st
  | (false, _) :: rest => firstFailing rest

/-- R254, row CFG_FIB (R103), after Decode. -/
def checksCfgFib (s : State) (k : SlotId) (len : BitVec 7) (taps seed : Word) : List (Bool × Status) :=
  [ (s.owned k, .owned),
    (len.toNat = 0 || Config.nfMax < len.toNat, .configError),
    (taps >>> len.toNat ≠ 0#64, .configError),
    (seed >>> len.toNat ≠ 0#64, .configError) ]

/-- R254, row CFG_GAL (R122), after Decode. -/
def checksCfgGal (s : State) (k : SlotId) (poly state : Word) : List (Bool × Status) :=
  [ (s.owned k, .owned),
    (poly = 0#64, .configError),
    (state = 0#64, .configError) ]

/-- R254, row SRC_NEXT, SRC_GETN (R222, R223), after Decode. -/
def checksSource (s : State) (k : SlotId) : List (Bool × Status) :=
  [ (s.owned k, .owned),
    ((s.slot k).isEmpty, .notReady) ]

/-- R254, row BIND_GEFFE, BIND_STOPGO (R140, R160), after Decode. -/
def checksBind3 (s : State) : List (Bool × Status) :=
  [ (!s.cmb.isNone, .owned),
    (s.s0.isEmpty || s.s1.isEmpty || s.s2.isEmpty, .notReady) ]

/-- R254, row BIND_SHRINK (R180), after Decode. -/
def checksBindShrink (s : State) : List (Bool × Status) :=
  [ (!s.cmb.isNone, .owned),
    (s.s0.isEmpty || s.s1.isEmpty, .notReady) ]

/-- R254, row BIND_SSHRINK (R200), after Decode. -/
def checksBindSshrink (s : State) : List (Bool × Status) :=
  [ (!s.cmb.isNone, .owned),
    (s.s0.isEmpty || s.s1.isEmpty, .notReady),
    (!s.s0.isGal || !s.s1.isGal, .configError) ]

/-- R254, row CMB_NEXT (R224), after Decode and before the execution. -/
def checksCmbNext (s : State) : List (Bool × Status) :=
  [ (s.cmb.isNone, .notReady) ]

/-- R254, row CMB_GETN (R225), after Decode and before the execution. -/
def checksCmbGetn (s : State) (n : BitVec 7) : List (Bool × Status) :=
  [ (s.cmb.isNone, .notReady),
    (n.toNat % s.cmb.unitWidth ≠ 0, .illegalCommand) ]

/-- R254, row GEFFE_NEXT_ALT (R143), after Decode. -/
def checksGeffeNextAlt (s : State) : List (Bool × Status) :=
  [ (!s.cmb.isGeffe, .notReady) ]

/-- R254, row RELEASE (R226): nothing after Decode. -/
def checksRelease : List (Bool × Status) := []

end Sys2Proof.Machine
end

