-- ==== Sys2Proof/Machine/Ops.lean ====
section
/-! DEFINITION. The named operations every meaning is written over: responding, raising a status
(the block's whole exception mechanism: 60_exceptions.md R257, R258), drawing, and running
units. -/

namespace Sys2Proof.Machine

/-! ### Completing a command -/

/-- R10 `Respond(status, data)`: the command is complete and its response waits in PORT (R32, R52). -/
def respond (st : Status) (data : Word) (s : State) : State := s.setPort (.resp ⟨st.code, data⟩)

/-- R10 `raise <Status>`, on the state the command began in: `Respond(<Status>, 0)` and no other
write (R251). An error is not a trap (R257): nothing is saved, and control goes nowhere. Nothing
returns from it either; the next header word is accepted as after any response (R258). -/
def raise (st : Status) (s : State) : State := respond st 0#64 s

/-- A command body behind its row of R254: every check runs before the first write or draw (R251). -/
def guarded (checks : List (Bool × Status)) (s : State) (body : State → Answer) : Answer :=
  match firstFailing checks with
  | some st => .next (raise st s)
  | none => body s

/-! ### Draws and units -/

/-- How a computation that draws can end. -/
inductive Run (α : Type) where
  /-- It produced a value. -/
  | done (a : α) (s : State)
  /-- `raise EXHAUSTED`: the retry cap was reached; the draws made stay made (R252). -/
  | exhausted (s : State)
  /-- It never ends (44_shrinking_combiner.md R182). -/
  | endless
  /-- It drew from an EMPTY slot, which never happens (R220). -/
  | noSource

/-- Go on with a value, or end as the first computation did. -/
def Run.bind {α β : Type} (r : Run α) (f : α → State → Run β) : Run β :=
  match r with
  | .done a s => f a s
  | .exhausted s => .exhausted s
  | .endless => .endless
  | .noSource => .noSource

/-- R220 `Draw(k)`: advance slot k by one step and return the bit it produces. -/
def draw (k : SlotId) (s : State) : Run Bool :=
  match (s.slot k).step with
  | some (b, slot') => .done b (s.setSlot k slot')
  | none => .noSource

/-- A draw as a 1-bit unit. -/
def drawUnit (k : SlotId) (s : State) : Run Word :=
  (draw k s).bind fun b s1 => .done (bitWord b) s1

/-- `for i in 0..j-1: u_i <- unit` (R223, R225): the j units in the order they are produced. -/
def repeatUnit (unit : State → Run Word) : Nat → State → Run (List Word)
  | 0, s => .done [] s
  | j + 1, s =>
    (unit s).bind fun u s1 =>
      (repeatUnit unit j s1).bind fun us s2 => .done (u :: us) s2

/-- The command `i`, begun in state `s`, after its run. A value is returned with OK. EXHAUSTED keeps
the draws and returns DATA = 0 (R252). A run that never ends leaves the command executing: PORT is
BUSY with it, and no response and no other state comes of it (R182, R259; log entry 5). -/
def finish {α : Type} (i : Instr) (s : State) (data : α → Word) : Run α → Answer
  | .done a s1 => .next (respond .ok (data a) s1)
  | .exhausted s1 => .next (raise .exhausted s1)
  | .endless => .next (s.setPort (.busy (Command.ofInstr i)))
  | .noSource => .fault .drawOnEmptySlot

/-! ### The retry cap (R4 `RETRY_CAP`, R184) -/

/-- R181, R201: `RETRY_CAP = some K and z = K`. -/
def capReached (cap : Option ℕ+) (z : Nat) : Bool :=
  match cap with
  | none => false
  | some K => z = (K : Nat)

/-- How many pairs decide whether a unit that needs `ones` control bits equal to 1 ever ends. Under
a cap of K it ends within `K - 1 + ones` pairs. Without one, a source that has given no 1 in 65
draws never gives another: 40_fibonacci_lfsr.md R108 bounds a run of zeros by L <= 64, and a Galois
register is 0 for ever after 64 draws of 0 (41_galois_lfsr.md R124, R126). -/
def pairBound (cap : Option ℕ+) (ones : Nat) : Nat :=
  (match cap with
    | none => 0
    | some K => (K : Nat)) + (Config.nfMax + 1) * ones

end Sys2Proof.Machine
end

