-- ==== Sys2Proof/Machine/Fibonacci.lean ====
section
/-! DEFINITION. The Fibonacci family (40_fibonacci_lfsr.md): CFG_FIB. -/

namespace Sys2Proof.Machine

/-- CFG_FIB (R103): construct a Fibonacci register in slot k. -/
def execCfgFib (k : SlotId) (len : BitVec 7) (taps seed : Word) (s : State) : Answer :=
  guarded (checksCfgFib s k len taps seed) s fun s =>
    .next (respond .ok 0#64 (s.setSlot k (.fib len taps seed)))

end Sys2Proof.Machine
end

