-- ==== Sys2Proof/Machine/Galois.lean ====
section
/-! DEFINITION. The Galois family (41_galois_lfsr.md): CFG_GAL. -/

namespace Sys2Proof.Machine

/-- The register CFG_GAL constructs (R122): m = bitlen(POLY) from the unforced value, P = POLY or 1,
and the low m bits of STATE. -/
def galRegister (poly state : Word) : Slot :=
  .gal (BitVec.ofNat 7 (bitlen poly)) (poly ||| 1#64) (truncTo (bitlen poly) state)

/-- CFG_GAL (R122): construct a Galois register in slot k. -/
def execCfgGal (k : SlotId) (poly state : Word) (s : State) : Answer :=
  guarded (checksCfgGal s k poly state) s fun s =>
    .next (respond .ok 0#64 (s.setSlot k (galRegister poly state)))

end Sys2Proof.Machine
end

