-- ==== Sys2Proof/Machine/Geffe.lean ====
section
/-! DEFINITION. The Geffe family (42_geffe_combiner.md): BIND_GEFFE, the unit of the first entry
point, and GEFFE_NEXT_ALT. -/

namespace Sys2Proof.Machine

/-- R141: the Geffe function of the first entry point. -/
def geffe (b1 b2 b3 : Bool) : Bool := (b1 && b2) ^^ (!b2 && b3)

/-- R144: the function of the second entry point, under each value of `GEFFE_ALT_FORM`. -/
def geffeAlt (form : GeffeAltForm) (b1 b2 b3 : Bool) : Bool :=
  match form with
  | .reference => (b1 && b2) ^^ (!b2 && b3)
  | .textbook => (b1 && b2) ^^ (!b1 && b3)

/-- One bit from each of S0, S1 and S2, combined by `f` (R142, R143). -/
def drawThree (f : Bool → Bool → Bool → Bool) (s : State) : Run Word :=
  (draw .s0 s).bind fun b1 t1 =>
    (draw .s1 t1).bind fun b2 t2 =>
      (draw .s2 t2).bind fun b3 t3 => .done (bitWord (f b1 b2 b3)) t3

/-- R142 `GeffeUnit`. -/
def geffeUnit (s : State) : Run Word := drawThree geffe s

/-- BIND_GEFFE (R140). -/
def execBindGeffe (s : State) : Answer :=
  guarded (checksBind3 s) s fun s => .next (respond .ok 0#64 (s.setCmb .geffe))

/-- GEFFE_NEXT_ALT (R143) under a value of `GEFFE_ALT_FORM`. -/
def geffeNextAltUnder (form : GeffeAltForm) (s : State) : Answer :=
  guarded (checksGeffeNextAlt s) s fun s =>
    finish .geffeNextAlt s id (drawThree (geffeAlt form) s)

/-- GEFFE_NEXT_ALT (R143). -/
def execGeffeNextAlt (s : State) : Answer := geffeNextAltUnder Config.geffeAltForm s

end Sys2Proof.Machine
end

