-- ==== Sys2Proof/Machine/SelfShrink.lean ====
section
/-! DEFINITION. The Self-Shrinking family, Galois-register variant (45_self_shrinking_combiner.md):
BIND_SSHRINK and its 2-bit unit. -/

namespace Sys2Proof.Machine

/-- BIND_SSHRINK (R200): S0 is the data, S1 the control, both Galois; S2 stays free. -/
def execBindSshrink (s : State) : Answer :=
  guarded (checksBindSshrink s) s fun s => .next (respond .ok 0#64 (s.setCmb .sshrink))

/-- The loop of R201, over at most `fuel` pairs. `left` is pos + 1: 2 and then 1 while the unit is
filled, and 0 when it is complete. z counts the control-0 pairs of the unit over both positions. -/
def selfShrinkLoop (cap : Option ℕ+) (fuel left z : Nat) (acc : Word) (s : State) : Run Word :=
  match left with
  | 0 => .done acc s
  | pos + 1 =>
    match fuel with
    | 0 => .endless
    | fuel + 1 =>
      (draw .s0 s).bind fun d t1 =>
        (draw .s1 t1).bind fun c t2 =>
          if c then selfShrinkLoop cap fuel pos z (acc ||| (bitWord d <<< pos)) t2
          else if capReached cap (z + 1) then .exhausted t2
          else selfShrinkLoop cap fuel (pos + 1) (z + 1) acc t2

/-- R201 `SelfShrinkUnit`: an empty accumulator, position 1 first, z = 0. -/
def selfShrinkUnit (cap : Option ℕ+) (s : State) : Run Word :=
  selfShrinkLoop cap (pairBound cap 2) 2 0 0#64 s

end Sys2Proof.Machine
end

