-- ==== Sys2Proof/Machine/Shrink.lean ====
section
/-! DEFINITION. The Shrinking family (44_shrinking_combiner.md): BIND_SHRINK and its unit. -/

namespace Sys2Proof.Machine

/-- BIND_SHRINK (R180): S0 is the control, S1 the data, and S2 stays free. -/
def execBindShrink (s : State) : Answer :=
  guarded (checksBindShrink s) s fun s => .next (respond .ok 0#64 (s.setCmb .shrink))

/-- The loop of R181, over at most `fuel` pairs, with z pairs of this unit discarded so far. -/
def shrinkLoop (cap : Option ℕ+) : Nat → Nat → State → Run Word
  | 0, _, _ => .endless
  | fuel + 1, z, s =>
    (draw .s0 s).bind fun b1 t1 =>
      (draw .s1 t1).bind fun b2 t2 =>
        if b1 then .done (bitWord b2) t2
        else if capReached cap (z + 1) then .exhausted t2
        else shrinkLoop cap fuel (z + 1) t2

/-- R181 `ShrinkUnit`. The number of pairs is the one that decides whether the unit ever ends
(`pairBound`; R182 bounds the units that end). -/
def shrinkUnit (cap : Option ℕ+) (s : State) : Run Word := shrinkLoop cap (pairBound cap 1) 0 s

end Sys2Proof.Machine
end

