-- ==== Sys2Proof/Machine/StopGo.lean ====
section
/-! DEFINITION. The Stop-and-Go family (43_stop_and_go_combiner.md): BIND_STOPGO and its unit. -/

namespace Sys2Proof.Machine

/-- BIND_STOPGO (R160): the initial bits are drawn and latched, and not returned. -/
def execBindStopgo (s : State) : Answer :=
  guarded (checksBind3 s) s fun s =>
    finish .bindStopgo s (fun _ : Unit => 0#64) <|
      (draw .s0 s).bind fun b1 t1 =>
        (draw .s1 t1).bind fun b2 t2 =>
          (draw .s2 t2).bind fun b3 t3 => .done () (t3.setCmb (.stopgo b1 b2 b3))

/-- R161 `StopGoUnit`, with the latched bits b2 and b3 of the units before. The fresh b1 says which
of S1 and S2 is clocked; the other keeps its latched bit. -/
def stopGoUnit (b2 b3 : Bool) (s : State) : Run Word :=
  (draw .s0 s).bind fun b1 t1 =>
    if b1 then
      (draw .s1 t1).bind fun b2' t2 => .done (bitWord (b2' ^^ b3)) (t2.setCmb (.stopgo b1 b2' b3))
    else
      (draw .s2 t1).bind fun b3' t2 => .done (bitWord (b2 ^^ b3')) (t2.setCmb (.stopgo b1 b2 b3'))

end Sys2Proof.Machine
end

