-- ==== Sys2Proof/Machine/Pipeline.lean ====
section
/-! DEFINITION. The output pipeline (46_prbs_output_pipeline.md): SRC_NEXT, SRC_GETN, CMB_NEXT,
CMB_GETN and RELEASE. -/

namespace Sys2Proof.Machine

/-- SRC_NEXT (R222): one bit from slot k. -/
def execSrcNext (k : SlotId) (s : State) : Answer :=
  guarded (checksSource s k) s fun s => finish (.srcNext k) s id (drawUnit k s)

/-- SRC_GETN (R223): n bits from slot k, the first at DATA[n-1]. -/
def execSrcGetn (k : SlotId) (n : BitVec 7) (s : State) : Answer :=
  guarded (checksSource s k) s fun s =>
    finish (.srcGetn k n) s (pack 1) (repeatUnit (drawUnit k) n.toNat s)

/-- R227 `Unit()`: one unit of the bound combiner, under a value of `RETRY_CAP`. With none bound there
is nothing to draw from, and every combiner command has raised NOT_READY before it asks. -/
def combinerUnit (cap : Option ℕ+) (s : State) : Run Word :=
  match s.cmb with
  | .none => .noSource
  | .geffe => geffeUnit s
  | .stopgo _ b2 b3 => stopGoUnit b2 b3 s
  | .shrink => shrinkUnit cap s
  | .sshrink => selfShrinkUnit cap s

/-- CMB_NEXT (R224) under a value of `RETRY_CAP`. -/
def cmbNextUnder (cap : Option ℕ+) (s : State) : Answer :=
  guarded (checksCmbNext s) s fun s => finish .cmbNext s id (combinerUnit cap s)

/-- CMB_NEXT (R224): one unit from the bound combiner. -/
def execCmbNext (s : State) : Answer := cmbNextUnder Config.retryCap s

/-- CMB_GETN (R225) under a value of `RETRY_CAP`: n/w units of width w, packed. -/
def cmbGetnUnder (cap : Option ℕ+) (n : BitVec 7) (s : State) : Answer :=
  guarded (checksCmbGetn s n) s fun s =>
    finish (.cmbGetn n) s (pack s.cmb.unitWidth)
      (repeatUnit (combinerUnit cap) (n.toNat / s.cmb.unitWidth) s)

/-- CMB_GETN (R225): n output bits from the bound combiner. -/
def execCmbGetn (n : BitVec 7) (s : State) : Answer := cmbGetnUnder Config.retryCap n s

/-- The owned slots emptied and the combiner dropped (R226). -/
def releaseOwned (s : State) : State :=
  (s.cmb.ownedSlots.foldl (fun t k => t.setSlot k .empty) s).setCmb .none

/-- RELEASE (R226). -/
def execRelease (s : State) : Answer :=
  guarded checksRelease s fun s => .next (respond .ok 0#64 (releaseOwned s))

end Sys2Proof.Machine
end

