-- ==== Sys2Proof/Machine/Dispatch.lean ====
section
/-! DEFINITION. One arm per command of the table (30_encoding.md R76). -/

namespace Sys2Proof.Machine

/-- The meaning of a command: the block's next state once the command has executed. -/
def exec (i : Instr) (s : State) : Host.Outcome State Fault Refusal :=
  match i with
  | .cfgFib k len taps seed => Sys2Proof.Machine.execCfgFib k len taps seed s
  | .cfgGal k poly state => Sys2Proof.Machine.execCfgGal k poly state s
  | .srcNext k => Sys2Proof.Machine.execSrcNext k s
  | .srcGetn k n => Sys2Proof.Machine.execSrcGetn k n s
  | .bindGeffe => Sys2Proof.Machine.execBindGeffe s
  | .bindStopgo => Sys2Proof.Machine.execBindStopgo s
  | .bindShrink => Sys2Proof.Machine.execBindShrink s
  | .bindSshrink => Sys2Proof.Machine.execBindSshrink s
  | .cmbNext => Sys2Proof.Machine.execCmbNext s
  | .cmbGetn n => Sys2Proof.Machine.execCmbGetn n s
  | .geffeNextAlt => Sys2Proof.Machine.execGeffeNextAlt s
  | .release => Sys2Proof.Machine.execRelease s

end Sys2Proof.Machine
end

