-- ==== Sys2Proof/Machine/Ports.lean ====
section
/-! DEFINITION. What one step does at the two ports and the reset input (10_state.md R32, 20_memory.md
R51, R52, R56, 70_reset_and_hazards.md R280), and the host's side of them. -/

namespace Sys2Proof.Machine

/-! ### The host's side (log entry 4) -/

/-- The word the host presents on the command port in this step. -/
def HostSide.presented (h : HostSide) : Option Word :=
  match h.commands with
  | .word w :: _ => some w
  | _ => none

/-- The host is ready to take a response in this step. -/
def HostSide.ready (h : HostSide) : Bool :=
  match h.responses with
  | .take :: _ => true
  | _ => false

/-- The host asserts the reset input in this step. -/
def HostSide.resetAsserted (h : HostSide) : Bool := h.resets.headD false

/-- The command port after a step that accepts no word: a `wait` is over, a word is held. -/
def tickCommands : List CommandAction → List CommandAction
  | .wait :: cs => cs
  | cs => cs

/-- The response port after a step in which no response is taken: a `wait` is over, a `take` is held. -/
def tickResponses : List ResponseAction → List ResponseAction
  | .wait :: ts => ts
  | ts => ts

/-- One step goes by, with no transfer on either port. -/
def HostSide.tick (h : HostSide) : HostSide :=
  ⟨tickCommands h.commands, tickResponses h.responses, h.resets.tail, h.received⟩

/-- The block has accepted the word that the host presents. -/
def HostSide.sent (h : HostSide) : HostSide := { h with commands := h.commands.tail }

/-- The host has taken the response `r`. -/
def HostSide.took (h : HostSide) (r : Response) : HostSide :=
  { h with responses := h.responses.tail, received := h.received ++ [r] }

/-- The state after a step in which the block does nothing and the host's side goes on. -/
def State.tick (s : State) : State := s.setHost s.host.tick

/-! ### The ports -/

/-- A word is accepted in IDLE: it is a header, and R71 says how many words its command has. -/
def acceptHeader (h : Word) (s : State) : State :=
  if commandLength h = 3 then s.setPort (.collect0 h) else s.setPort (.busy ⟨h, []⟩)

/-- A step in a state of PORT that accepts words (R51): `accept` is what the block does with the word
that the host presents. With none presented the block keeps its state (R55, 60_exceptions.md R266). -/
def onWord (accept : Word → State → State) (s : State) : State :=
  match s.host.presented with
  | some w => accept w (s.setHost s.host.tick.sent)
  | none => s.tick

/-- A step in RESP (R52): the response is held until the host takes it, and PORT is then IDLE (R32). A
reserved code in it is a fault of the implementation (93_implementation_defined.md item 7). -/
def onResponse (r : Response) (s : State) : Answer :=
  if s.host.ready then
    if reservedCode r.status then .fault .reservedStatus
    else .next ((s.setPort .idle).setHost (s.host.tick.took r))
  else .next s.tick

/-- The block executes the complete command that PORT holds. An illegal header gives ILLEGAL_COMMAND
and touches nothing else (30_encoding.md R77, R78). -/
def runCommand (c : Command) (s : State) : Answer :=
  if c.complete then
    match decodeCommand c with
    | .ok i => exec i s
    | .error _ => .next (raise .illegalCommand s)
  else .fault .incompleteCommand

/-- What a step does when the host does not assert reset. -/
def portStep (s : State) : Answer :=
  match s.port with
  | .idle => .next (onWord acceptHeader s)
  | .collect0 h => .next (onWord (fun a t => t.setPort (.collect1 h a)) s)
  | .collect1 h a => .next (onWord (fun b t => t.setPort (.busy ⟨h, [a, b]⟩)) s)
  | .busy c => runCommand c s.tick
  | .resp r => onResponse r s

/-- 70_reset_and_hazards.md R280: reset abandons whatever PORT holds and sets the state of R33. What
the host has taken, and what it still presents, stays with the host. -/
def applyReset (s : State) : State := { State.reset with host := s.host }

/-- One step: reset wins over everything else, in any PORT state (R280, 60_exceptions.md R255). -/
def clockStep (s : State) : Answer :=
  if s.host.resetAsserted then .next (applyReset s.tick) else portStep s

/-! ### Programs -/

/-- The state with more for the host to do. This is how a program reaches the block (log entry 6). -/
def State.present (s : State) (h : HostSide) : State :=
  s.setHost ⟨s.host.commands ++ h.commands, s.host.responses ++ h.responses,
    s.host.resets ++ h.resets, s.host.received ++ h.received⟩

/-- The host sends the words of these commands one after another, and takes the response of each. -/
def hostProgram (is : List Instr) : HostSide :=
  ⟨(is.flatMap encode).map .word, List.replicate is.length .take, [], []⟩

end Sys2Proof.Machine
end

