-- ==== Sys2Proof/Machine/Step.lean ====
section
/-! DEFINITION. One step of the block with its host, and the state in which the next step runs a given
command. -/

namespace Sys2Proof.Machine

/-- One step (`clockStep`). -/
def step (s : State) : Host.Outcome State Fault Refusal := clockStep s

/-- The state in which the command with these bits has just been received, and the host does nothing
for the step in which it executes (log entry 6). -/
def State.withFetchWord (s : State) (nbits w : Nat) : State :=
  (s.setPort (.busy (tableCommand nbits w))).setHost
    ⟨.wait :: s.host.commands, .wait :: s.host.responses, false :: s.host.resets, s.host.received⟩

end Sys2Proof.Machine
end

