-- ==== Sys2Proof/Machine/Assembler.lean ====
section
/-! DEFINITION. The assembler of 30_encoding.md R81 and R82: a line as data, the words it stands
for, and the reading of a line of text. It is notation for a host; no step of the block uses it. -/

namespace Sys2Proof.Machine

/-- A line of assembler with its operands as numbers (R81), and the pseudo-command and directive of
R82. -/
inductive AsmLine where
  /-- `cfg.fib sK, L, TAPS, SEED`. -/
  | cfgFib (k len taps seed : Nat)
  /-- `cfg.gal sK, POLY, STATE`. -/
  | cfgGal (k poly state : Nat)
  /-- `src.next sK`. -/
  | srcNext (k : Nat)
  /-- `src.getn sK, n`. -/
  | srcGetn (k n : Nat)
  /-- `bind.geffe`. -/
  | bindGeffe
  /-- `bind.stopgo`. -/
  | bindStopgo
  /-- `bind.shrink`. -/
  | bindShrink
  /-- `bind.sshrink`. -/
  | bindSshrink
  /-- `cmb.next`. -/
  | cmbNext
  /-- `cmb.getn n`. -/
  | cmbGetn (n : Nat)
  /-- `geffe.alt`. -/
  | geffeAlt
  /-- `release`. -/
  | release
  /-- R82 `cfg.fib sK, seed="c0 c1 ...", taps=[t1, ...]`, the list of taps in curly braces. -/
  | cfgFibSequence (k : Nat) (seed : List Bool) (taps : List Nat)
  /-- R82 `.word V`. -/
  | word (v : Nat)
  deriving DecidableEq, Repr

/-- The number as a 64-bit operand, refused if it does not fit. -/
def asmWord (v : Nat) : Option Word := if v < 2 ^ 64 then some (BitVec.ofNat 64 v) else none

/-- The slot sK. "An assembler must refuse K = 3" (R81), and every larger K with it. -/
def asmSlot (k : Nat) : Option SlotId :=
  match k with
  | 0 => some .s0
  | 1 => some .s1
  | 2 => some .s2
  | _ => none

/-- The length L, refused outside 0..127 (R81). -/
def asmLength (len : Nat) : Option (BitVec 7) := if len ≤ 127 then some (BitVec.ofNat 7 len) else none

/-- The count n, refused above 64 (R81). -/
def asmCount (n : Nat) : Option (BitVec 7) :=
  if n ≤ Config.noutMax then some (BitVec.ofNat 7 n) else none

/-- The sum of 2^t over the listed t (R82). -/
def sumOfPowers (ts : List Nat) : Nat := (ts.map (2 ^ ·)).sum

/-- The sum of ci * 2^i over the listed elements, element 0 first (R82). -/
def sequenceValue : List Bool → Nat
  | [] => 0
  | c :: cs => (if c then 1 else 0) + 2 * sequenceValue cs

/-- The instruction a line stands for, or none where the assembler refuses the line. `.word` stands
for no instruction. -/
def asmInstr : AsmLine → Option Instr
  | .cfgFib k len taps seed => do
    return .cfgFib (← asmSlot k) (← asmLength len) (← asmWord taps) (← asmWord seed)
  | .cfgGal k poly state => do return .cfgGal (← asmSlot k) (← asmWord poly) (← asmWord state)
  | .srcNext k => do return .srcNext (← asmSlot k)
  | .srcGetn k n => do return .srcGetn (← asmSlot k) (← asmCount n)
  | .bindGeffe => some .bindGeffe
  | .bindStopgo => some .bindStopgo
  | .bindShrink => some .bindShrink
  | .bindSshrink => some .bindSshrink
  | .cmbNext => some .cmbNext
  | .cmbGetn n => do return .cmbGetn (← asmCount n)
  | .geffeAlt => some .geffeNextAlt
  | .release => some .release
  | .cfgFibSequence k seed taps =>
    if taps.all (· < seed.length) && taps.Nodup then do
      return .cfgFib (← asmSlot k) (← asmLength seed.length) (← asmWord (sumOfPowers taps))
        (← asmWord (sequenceValue seed))
    else none
  | .word _ => none

/-- The words of a line (R81, R82): those of its instruction, or for `.word V` the word V unchanged. -/
def assemble : AsmLine → Option (List Word)
  | .word v => (asmWord v).map ([·])
  | line => (asmInstr line).map encode

/-! ### Reading a line of text

"One command per line; `;` starts a comment. Numbers are decimal, or hexadecimal with the prefix
`0x`" (R81). Text is a list of characters. -/

/-- A blank. -/
def isBlank (c : Char) : Bool := c = ' ' || c = '\t'

/-- The text without blanks at either end. -/
def trimBlanks (cs : List Char) : List Char :=
  ((cs.dropWhile isBlank).reverse.dropWhile isBlank).reverse

/-- The pieces of a text between separators. -/
def splitAtSep (sep : Char → Bool) : List Char → List (List Char)
  | [] => [[]]
  | c :: cs =>
    if sep c then [] :: splitAtSep sep cs
    else
      match splitAtSep sep cs with
      | [] => [[c]]
      | p :: ps => (c :: p) :: ps

/-- The value of a digit in a base of at most 16. -/
def digitValue (base : Nat) (c : Char) : Option Nat :=
  let v :=
    if '0' ≤ c ∧ c ≤ '9' then c.toNat - '0'.toNat
    else if 'a' ≤ c ∧ c ≤ 'f' then c.toNat - 'a'.toNat + 10
    else if 'A' ≤ c ∧ c ≤ 'F' then c.toNat - 'A'.toNat + 10
    else base
  if v < base then some v else none

/-- The value of a sequence of digits, most significant first, after a value already read. -/
def digitsValue (base : Nat) : Nat → List Char → Option Nat
  | acc, [] => some acc
  | acc, c :: cs =>
    match digitValue base c with
    | some v => digitsValue base (acc * base + v) cs
    | none => none

/-- A number: `0x` and hexadecimal digits, or decimal digits. -/
def readNumber : List Char → Option Nat
  | [] => none
  | ['0', 'x'] => none
  | '0' :: 'x' :: ds => digitsValue 16 0 ds
  | ds => digitsValue 10 0 ds

/-- A slot name sK, as the number K. -/
def readSlot : List Char → Option Nat
  | 's' :: d :: ds => digitsValue 10 0 (d :: ds)
  | _ => none

/-- The elements of a seed: 0 or 1. -/
def readBits : List (List Char) → Option (List Bool)
  | [] => some []
  | ['0'] :: cs => (readBits cs).map (false :: ·)
  | ['1'] :: cs => (readBits cs).map (true :: ·)
  | _ :: _ => none

/-- A list of numbers. -/
def readNumbers : List (List Char) → Option (List Nat)
  | [] => some []
  | c :: cs =>
    match readNumber (trimBlanks c), readNumbers cs with
    | some v, some vs => some (v :: vs)
    | _, _ => none

/-- The text after a fixed beginning. -/
def afterPrefix : List Char → List Char → Option (List Char)
  | [], cs => some cs
  | _ :: _, [] => none
  | p :: ps, c :: cs => if p = c then afterPrefix ps cs else none

/-- The opening curly brace. -/
def openBrace : Char := Char.ofNat 123

/-- The closing curly brace. -/
def closeBrace : Char := Char.ofNat 125

/-- The operands of the pseudo-command of R82, after `cfg.fib`. -/
def readSequenceForm (cs : List Char) : Option AsmLine := do
  let k ← readSlot (trimBlanks (cs.takeWhile (· ≠ ',')))
  let afterK := (cs.dropWhile (· ≠ ',')).tail.dropWhile isBlank
  let body ← afterPrefix ['s', 'e', 'e', 'd', '=', '"'] afterK
  let seed ← readBits ((splitAtSep isBlank (body.takeWhile (· ≠ '"'))).filter (· ≠ []))
  let afterSeed := (body.dropWhile (· ≠ '"')).tail.dropWhile isBlank
  let comma ← afterPrefix [','] afterSeed
  let braced ← afterPrefix ['t', 'a', 'p', 's', '=', openBrace] (comma.dropWhile isBlank)
  let inside := trimBlanks (braced.takeWhile (· ≠ closeBrace))
  let taps ← if inside = [] then some [] else readNumbers (splitAtSep (· = ',') inside)
  if trimBlanks (braced.dropWhile (· ≠ closeBrace)) = [closeBrace] then
    return .cfgFibSequence k seed taps
  else none

/-- The line of a mnemonic and its operand texts (R81). -/
def readOperands (mnemonic : List Char) (args : List (List Char)) : Option AsmLine :=
  match mnemonic, args with
  | ['c', 'f', 'g', '.', 'f', 'i', 'b'], [k, len, taps, seed] => do
    return .cfgFib (← readSlot k) (← readNumber len) (← readNumber taps) (← readNumber seed)
  | ['c', 'f', 'g', '.', 'g', 'a', 'l'], [k, poly, state] => do
    return .cfgGal (← readSlot k) (← readNumber poly) (← readNumber state)
  | ['s', 'r', 'c', '.', 'n', 'e', 'x', 't'], [k] => do return .srcNext (← readSlot k)
  | ['s', 'r', 'c', '.', 'g', 'e', 't', 'n'], [k, n] => do
    return .srcGetn (← readSlot k) (← readNumber n)
  | ['b', 'i', 'n', 'd', '.', 'g', 'e', 'f', 'f', 'e'], [] => some .bindGeffe
  | ['b', 'i', 'n', 'd', '.', 's', 't', 'o', 'p', 'g', 'o'], [] => some .bindStopgo
  | ['b', 'i', 'n', 'd', '.', 's', 'h', 'r', 'i', 'n', 'k'], [] => some .bindShrink
  | ['b', 'i', 'n', 'd', '.', 's', 's', 'h', 'r', 'i', 'n', 'k'], [] => some .bindSshrink
  | ['c', 'm', 'b', '.', 'n', 'e', 'x', 't'], [] => some .cmbNext
  | ['c', 'm', 'b', '.', 'g', 'e', 't', 'n'], [n] => do return .cmbGetn (← readNumber n)
  | ['g', 'e', 'f', 'f', 'e', '.', 'a', 'l', 't'], [] => some .geffeAlt
  | ['r', 'e', 'l', 'e', 'a', 's', 'e'], [] => some .release
  | ['.', 'w', 'o', 'r', 'd'], [v] => do return .word (← readNumber v)
  | _, _ => none

/-- A line of text: `some none` for a line with nothing but a comment, and none where the text is no
line of R81 or R82. -/
def readLine (cs : List Char) : Option (Option AsmLine) :=
  let text := trimBlanks (cs.takeWhile (· ≠ ';'))
  if text = [] then some none
  else
    let mnemonic := text.takeWhile (!isBlank ·)
    let rest := trimBlanks (text.dropWhile (!isBlank ·))
    if mnemonic = ['c', 'f', 'g', '.', 'f', 'i', 'b'] && rest.contains '"' then
      (readSequenceForm rest).map some
    else
      let args := if rest = [] then [] else (splitAtSep (· = ',') rest).map trimBlanks
      (readOperands mnemonic args).map some

end Sys2Proof.Machine
end

