-- ==== Sys2Proof/Safety.lean ====
section
/-! DEFINITION. What a run may rely on: the invariant of the reachable states (10_state.md R23, R25,
R27, R32, 60_exceptions.md R250, R253), what a safe run is, and the words claims are stated in: the
bits a slot is going to produce and the slot after a number of draws. -/

namespace Sys2Proof.Machine

/-! ### The invariant -/

/-- R23 and R25: the invariants of the fields of a slot. -/
def Slot.wf : Slot → Bool
  | .empty => true
  | .fib L T r =>
    decide (1 ≤ L.toNat ∧ L.toNat ≤ Config.nfMax ∧ T.toNat < 2 ^ L.toNat ∧ r.toNat < 2 ^ L.toNat)
  | .gal m P s =>
    decide (1 ≤ m.toNat ∧ m.toNat ≤ Config.ngMax ∧ P.toNat < 2 ^ m.toNat ∧ s.toNat < 2 ^ m.toNat)
      && P.getLsbD 0 && P.getLsbD (m.toNat - 1)

/-- R220: no slot the bound combiner owns is EMPTY. R200: under SSHRINK both are Galois registers. -/
def State.sourcesReady (s : State) : Bool :=
  match s.cmb with
  | .none => true
  | .geffe => !s.s0.isEmpty && !s.s1.isEmpty && !s.s2.isEmpty
  | .stopgo _ _ _ => !s.s0.isEmpty && !s.s1.isEmpty && !s.s2.isEmpty
  | .shrink => !s.s0.isEmpty && !s.s1.isEmpty
  | .sshrink => s.s0.isGal && s.s1.isGal

/-- R32, R71: PORT collects operands only for a 3-word header, and executes only a complete command.
R250, R253: a waiting response carries a defined status, and DATA = 0 unless it is OK. -/
def Port.wf : Port → Bool
  | .idle => true
  | .collect0 h => commandLength h = 3
  | .collect1 h _ => commandLength h = 3
  | .busy c => c.complete
  | .resp r => !reservedCode r.status && (r.status = Status.ok.code || r.data = 0#64)

/-- The invariant of every state that a run from reset reaches. -/
abbrev State.Inv (s : State) : Prop :=
  s.s0.wf = true ∧ s.s1.wf = true ∧ s.s2.wf = true ∧ s.sourcesReady = true ∧ s.port.wf = true

/-! ### Safe runs -/

/-- The answer is a next state: no fault, no refusal. -/
def Answers (a : Answer) : Prop := ∃ t, a = .next t

/-- A run is safe when no number of its steps ends in a fault or a refusal. -/
def State.Safe (s : State) : Prop := ∀ n, ∃ t, Sys2Proof.core.run n s = .next t

/-- The host is not asserting reset in this step. -/
abbrev State.NoReset (s : State) : Prop := s.host.resetAsserted = false

/-! ### Streams -/

/-- The slot after n draws. An EMPTY slot cannot be drawn. -/
def Slot.after : Nat → Slot → Slot
  | 0, v => v
  | n + 1, v =>
    match v.step with
    | some (_, v') => Slot.after n v'
    | none => v

/-- The next n bits the slot produces, in the order they are drawn. -/
def Slot.bits : Nat → Slot → List Bool
  | 0, _ => []
  | n + 1, v =>
    match v.step with
    | some (b, v') => b :: Slot.bits n v'
    | none => []

/-- The next bit the slot produces, if it holds a register. -/
def Slot.next? (v : Slot) : Option Bool := v.step.map Prod.fst

/-- Decimation (R12): the data bits at the places where the control bit is 1. -/
def decimate : List Bool → List Bool → List Bool
  | c :: cs, d :: ds => if c then d :: decimate cs ds else decimate cs ds
  | _, _ => []

/-- What construction fixed in a slot (R22, R24): the length and taps, or the width and polynomial. -/
inductive SlotParams where
  | empty
  | fib (L : BitVec 7) (T : Word)
  | gal (m : BitVec 7) (P : Word)
  deriving DecidableEq, Repr

/-- The fields of a slot that no draw changes. -/
def Slot.params : Slot → SlotParams
  | .empty => .empty
  | .fib L T _ => .fib L T
  | .gal m P _ => .gal m P

/-- `CMB.kind`, as a number: the latched bits left out. -/
def Cmb.kindNumber : Cmb → Nat
  | .none => 0
  | .geffe => 1
  | .stopgo _ _ _ => 2
  | .shrink => 3
  | .sshrink => 4

/-- The bits and the state integer after n steps of the source's Galois algorithm (R120). -/
def galRefRun (P mask : Nat) : Nat → Nat → List Bool × Nat
  | 0, X => ([], X)
  | n + 1, X =>
    ((galStepRef P mask X).1 :: (galRefRun P mask n (galStepRef P mask X).2).1,
      (galRefRun P mask n (galStepRef P mask X).2).2)

/-! ### The words of the claims -/

/-- R181, R184, R201: of units that need w control bits 1 each, and have all drawn fewer than K
zeros before, one draws its K-th control bit 0 as the last of these control bits. The first j bits
are the units completed before it. -/
abbrev EndsAtCap (w K : Nat) (control : List Bool) : Prop :=
  ∃ j < control.length,
    (control.take j).count true % w = 0 ∧ (control.take j).getLast? ≠ some false ∧
    (control.drop j).count true < w ∧ (control.drop j).count false = K ∧
    (control.drop j).getLast? = some false

/-- The p-th draw of the control slot v is the first one at which a unit reaches a cap of K. -/
abbrev Slot.FirstAtCap (w K : Nat) (v : Slot) (p : Nat) : Prop :=
  EndsAtCap w K (v.bits p) ∧ ∀ q < p, ¬EndsAtCap w K (v.bits q)

/-- Under a cap of K the bound combiner, asked for n bits, reaches the cap at its p-th pair, with
fewer than n control bits 1 before. The control is S0 under SHRINK and S1 under SSHRINK. -/
abbrev State.CapStopsAt (s : State) (K n p : Nat) : Prop :=
  (s.cmb = .shrink ∧ s.s0.FirstAtCap 1 K p ∧ (s.s0.bits p).count true < n) ∨
  (s.cmb = .sshrink ∧ s.s1.FirstAtCap 2 K p ∧ (s.s1.bits p).count true < n)

/-- The command has answered with this status and data, and nothing else has changed. -/
def answered (st : BitVec 4) (data : Word) (s : State) : Answer := .next (s.setPort (.resp ⟨st, data⟩))

/-- The three slots after a, b and c draws. -/
def State.advance (s : State) (a b c : Nat) : State :=
  { s with s0 := s.s0.after a, s1 := s.s1.after b, s2 := s.s2.after c }

/-- The command is executing and has not ended. -/
def stillBusy (i : Instr) (s : State) : Answer := .next (s.setPort (.busy (Command.ofInstr i)))

/-- A change made to the next state, if there is one. -/
def mapAnswer (f : State → State) : Answer → Answer
  | .next t => .next (f t)
  | .fault r => .fault r
  | .refused r => .refused r

/-- The error a command reports before it writes or draws, row by row of R254 after Decode. -/
def expectedError (i : Instr) (s : State) : Option (BitVec 4) :=
  match i with
  | .cfgFib k len taps seed =>
    if s.owned k then some 4#4
    else if len.toNat = 0 ∨ 64 < len.toNat then some 2#4
    else if taps >>> len.toNat ≠ 0#64 then some 2#4
    else if seed >>> len.toNat ≠ 0#64 then some 2#4
    else none
  | .cfgGal k poly state =>
    if s.owned k then some 4#4
    else if poly = 0#64 then some 2#4
    else if state = 0#64 then some 2#4
    else none
  | .srcNext k => if s.owned k then some 4#4 else if s.slot k = .empty then some 3#4 else none
  | .srcGetn k _ => if s.owned k then some 4#4 else if s.slot k = .empty then some 3#4 else none
  | .bindGeffe =>
    if s.cmb ≠ .none then some 4#4
    else if s.s0 = .empty ∨ s.s1 = .empty ∨ s.s2 = .empty then some 3#4
    else none
  | .bindStopgo =>
    if s.cmb ≠ .none then some 4#4
    else if s.s0 = .empty ∨ s.s1 = .empty ∨ s.s2 = .empty then some 3#4
    else none
  | .bindShrink =>
    if s.cmb ≠ .none then some 4#4
    else if s.s0 = .empty ∨ s.s1 = .empty then some 3#4
    else none
  | .bindSshrink =>
    if s.cmb ≠ .none then some 4#4
    else if s.s0 = .empty ∨ s.s1 = .empty then some 3#4
    else if ¬(s.s0.isGal ∧ s.s1.isGal) then some 2#4
    else none
  | .cmbNext => if s.cmb = .none then some 3#4 else none
  | .cmbGetn n =>
    if s.cmb = .none then some 3#4
    else if s.cmb = .sshrink ∧ n.toNat % 2 = 1 then some 1#4
    else none
  | .geffeNextAlt => if s.cmb ≠ .geffe then some 3#4 else none
  | .release => none

/-- R250, column "raised by": the statuses a decoded command can report. -/
def possibleStatuses : Instr → List (BitVec 4)
  | .cfgFib _ _ _ _ => [0#4, 2#4, 4#4]
  | .cfgGal _ _ _ => [0#4, 2#4, 4#4]
  | .srcNext _ => [0#4, 3#4, 4#4]
  | .srcGetn _ _ => [0#4, 3#4, 4#4]
  | .bindGeffe => [0#4, 3#4, 4#4]
  | .bindStopgo => [0#4, 3#4, 4#4]
  | .bindShrink => [0#4, 3#4, 4#4]
  | .bindSshrink => [0#4, 2#4, 3#4, 4#4]
  | .cmbNext => [0#4, 3#4, 5#4]
  | .cmbGetn _ => [0#4, 1#4, 3#4, 5#4]
  | .geffeNextAlt => [0#4, 3#4]
  | .release => [0#4]

/-- R253: how many bits of DATA an OK response of a command uses. -/
def returnedBits (i : Instr) (s : State) : Nat :=
  match i with
  | .cfgFib _ _ _ _ => 0
  | .cfgGal _ _ _ => 0
  | .srcNext _ => 1
  | .srcGetn _ n => n.toNat
  | .bindGeffe => 0
  | .bindStopgo => 0
  | .bindShrink => 0
  | .bindSshrink => 0
  | .cmbNext => s.cmb.unitWidth
  | .cmbGetn n => n.toNat
  | .geffeNextAlt => 1
  | .release => 0

end Sys2Proof.Machine
end

