-- ==== Sys2Proof/Certificates/Slice0/Obligations.lean ====
section
/-! DEFINITION. The statements for the provers. Every statement is about all states, whether a run
reaches them or not, unless it names `State.Inv`. A statement about RETRY_CAP = none or some K is
made of `cmbNextUnder` and `cmbGetnUnder`, the meanings of CMB_NEXT and CMB_GETN with the parameter
as an argument; the machine's own are those at `Config.retryCap`, which has no value to prove. -/

open Sys2Proof Sys2Proof.Machine

/-! ### Encoding -/

/-- R72, R73, R76, R78: decoding the words of a well-formed command gives it back, every operand at
every value the encoding admits, and leaves the words after it. -/
def Obligations.DecodeOfEncodeIsTheInstruction : Prop :=
  ∀ (i : Instr) (rest : List Word), i.wf = true → decode (encode i ++ rest) = .ok (i, rest)

/-- R72, R78, R83: the words that decode to a command are the words of that command and no others,
and the command is well formed. -/
def Obligations.EncodeOfDecodeIsTheWords : Prop :=
  ∀ (ws rest : List Word) (i : Instr),
    decode ws = .ok (i, rest) → i.wf = true ∧ ws = encode i ++ rest

/-- R78: `Decode(h)` gives (op, k, N) exactly under the checks of the rule, and an ILLEGAL header,
after the words R71 gives have been consumed, is answered with ILLEGAL_COMMAND and no other change.
That a step takes one word, that the command then takes one step, and what the host's side is after
those steps, is the model's choice (log entries 4 and 8). -/
def Obligations.HeaderDecodeAndIllegalHeaders : Prop :=
  (∀ (h : Word) (op : Op) (k : SlotId) (n : BitVec 7),
    decodeHeader h = .ok (op, k, n) ↔
      opcOf h = op.opc ∧ rsvHiOf h = 0#32 ∧ rsvLoOf h = 0#15 ∧ slotOf h = k.field ∧ countOf h = n ∧
        (op.namesSlot = false → k = .s0) ∧
        (op ∈ [Op.srcGetn, Op.cmbGetn] → n.toNat ≤ 64) ∧
        (op ∉ [Op.srcGetn, Op.cmbGetn, Op.cfgFib] → n = 0#7)) ∧
  (∀ (s : State) (h : Word) (ws : List Word) (cs : List CommandAction) (e : DecodeError),
    decodeHeader h = .error e → s.port = .idle → ws.length + 1 = commandLength h →
    s.host.commands = (h :: ws).map CommandAction.word ++ cs →
    (∀ b ∈ s.host.resets.take (ws.length + 2), b = false) →
    Sys2Proof.core.run (ws.length + 2) s =
      answered 1#4 0#64 (s.setHost ⟨tickCommands cs, tickResponses^[ws.length + 2] s.host.responses,
        s.host.resets.drop (ws.length + 2), s.host.received⟩))

/-- R76: a header is a command's exactly when its masked bits are the command's match word and the
two constraints a mask cannot express hold. -/
def Obligations.MatchAndMaskSelectTheCommand : Prop :=
  ∀ (h : Word) (op : Op),
    (∃ k n, decodeHeader h = .ok (op, k, n)) ↔
      h &&& op.maskWord = op.matchWord ∧
        (op.namesSlot = true → slotOf h ≠ 3#2) ∧
        (op ∈ [Op.srcGetn, Op.cmbGetn] → (countOf h).toNat ≤ 64)

/-- R83: every word presented in IDLE is taken as a header; it is exactly one command or ILLEGAL; and
two different commands never match the same word. That one step takes the word, and what the host's
side is after it, is the model's choice (log entries 4 and 8). -/
def Obligations.EveryHeaderIsOneCommandOrIllegal : Prop :=
  (∀ (s : State) (h : Word) (cs : List CommandAction),
    s.port = .idle → s.NoReset → s.host.commands = .word h :: cs →
    ∃ p, (p = .collect0 h ∨ p = .busy ⟨h, []⟩) ∧
      step s = .next ((s.setPort p).setHost
        ⟨cs, tickResponses s.host.responses, s.host.resets.tail, s.host.received⟩)) ∧
  (∀ h : Word,
    (∃ op k n, decodeHeader h = .ok (op, k, n) ∧
      ∀ op' : Op, h &&& op'.maskWord = op'.matchWord → op' = op) ∨
    ∃ e, decodeHeader h = .error e) ∧
  (∀ (h : Word) (op op' : Op), h &&& op.maskWord = op.matchWord →
    h &&& op'.maskWord = op'.matchWord → op = op')

/-- Words of 95_test_vectors.md, written out there from R72 and R76, decode to their commands. -/
def Obligations.WordsOfTheTestVectorsDecode : Prop :=
  decode [0x0000000001000004#64, 0xC#64, 0x1#64] = .ok (.cfgFib .s0 4#7 0xC#64 0x1#64, []) ∧
  decode [0x0000000002800000#64, 0x9#64, 0x1#64] = .ok (.cfgGal .s2 0x9#64 0x1#64, []) ∧
  decode [0x0000000003400000#64] = .ok (.srcNext .s1, []) ∧
  decode [0x0000000004800004#64] = .ok (.srcGetn .s2 4#7, []) ∧
  decode [0x0000000011000000#64] = .ok (.bindStopgo, []) ∧
  decode [0x0000000021000040#64] = .ok (.cmbGetn 64#7, []) ∧
  decode [0x0000000022000000#64] = .ok (.geffeNextAlt, []) ∧
  decode [0x0000000030000000#64] = .ok (.release, [])

/-- R77: 244 OPC values are reserved, 0x00 and 0xFF among them. -/
def Obligations.ReservedOpcodesNumber244 : Prop :=
  ((List.range 256).filter fun v => opOfOpc (BitVec.ofNat 8 v) = none).length = 244 ∧
  opOfOpc 0x00#8 = none ∧ opOfOpc 0xFF#8 = none

/-- R81, R82: every line of the table of R81 with its operands in range assembles to the words of the
table, and `.word V` to V; every line that assembles is the words of a well-formed command, or of
`.word`; the pseudo-command expands to the CFG_FIB with the sums of R82; and what an assembler must
refuse is refused. That a slot number above 3, and a TAPS, SEED, POLY, STATE or V of 2^64 or more,
is refused too is the model's choice (log entry 10). -/
def Obligations.AssemblerEmitsEncodingsAndRefuses : Prop :=
  (∀ (k len taps seed : Nat), k ≤ 2 → len ≤ 127 → taps < 2 ^ 64 → seed < 2 ^ 64 →
    assemble (.cfgFib k len taps seed) =
      some [(0x01#64 <<< 24) ||| (BitVec.ofNat 64 k <<< 22) ||| BitVec.ofNat 64 len,
        BitVec.ofNat 64 taps, BitVec.ofNat 64 seed]) ∧
  (∀ (k poly state : Nat), k ≤ 2 → poly < 2 ^ 64 → state < 2 ^ 64 →
    assemble (.cfgGal k poly state) =
      some [(0x02#64 <<< 24) ||| (BitVec.ofNat 64 k <<< 22), BitVec.ofNat 64 poly,
        BitVec.ofNat 64 state]) ∧
  (∀ k : Nat, k ≤ 2 →
    assemble (.srcNext k) = some [(0x03#64 <<< 24) ||| (BitVec.ofNat 64 k <<< 22)]) ∧
  (∀ (k n : Nat), k ≤ 2 → n ≤ 64 →
    assemble (.srcGetn k n) =
      some [(0x04#64 <<< 24) ||| (BitVec.ofNat 64 k <<< 22) ||| BitVec.ofNat 64 n]) ∧
  assemble .bindGeffe = some [0x10#64 <<< 24] ∧
  assemble .bindStopgo = some [0x11#64 <<< 24] ∧
  assemble .bindShrink = some [0x12#64 <<< 24] ∧
  assemble .bindSshrink = some [0x13#64 <<< 24] ∧
  assemble .cmbNext = some [0x20#64 <<< 24] ∧
  (∀ n : Nat, n ≤ 64 → assemble (.cmbGetn n) = some [(0x21#64 <<< 24) ||| BitVec.ofNat 64 n]) ∧
  assemble .geffeAlt = some [0x22#64 <<< 24] ∧
  assemble .release = some [0x30#64 <<< 24] ∧
  (∀ v : Nat, v < 2 ^ 64 → assemble (.word v) = some [BitVec.ofNat 64 v]) ∧
  (∀ (line : AsmLine) (ws : List Word), assemble line = some ws →
    (∃ v, line = .word v ∧ v < 2 ^ 64 ∧ ws = [BitVec.ofNat 64 v]) ∨
    ∃ i, asmInstr line = some i ∧ i.wf = true ∧ ws = encode i) ∧
  (∀ (k : Nat) (seed : List Bool) (taps : List Nat), taps.Nodup → (∀ t ∈ taps, t < seed.length) →
    assemble (.cfgFibSequence k seed taps) =
      assemble (.cfgFib k seed.length (taps.map (2 ^ ·)).sum (sequenceValue seed))) ∧
  (∀ (k : Nat) (seed : List Bool) (taps : List Nat), (¬taps.Nodup ∨ ∃ t ∈ taps, seed.length ≤ t) →
    assemble (.cfgFibSequence k seed taps) = none) ∧
  (∀ (k len taps seed : Nat), 3 ≤ k ∨ 128 ≤ len → assemble (.cfgFib k len taps seed) = none) ∧
  (∀ (k poly state : Nat), 3 ≤ k → assemble (.cfgGal k poly state) = none) ∧
  (∀ (k len taps seed : Nat), 2 ^ 64 ≤ taps ∨ 2 ^ 64 ≤ seed →
    assemble (.cfgFib k len taps seed) = none) ∧
  (∀ (k poly state : Nat), 2 ^ 64 ≤ poly ∨ 2 ^ 64 ≤ state →
    assemble (.cfgGal k poly state) = none) ∧
  (∀ v : Nat, 2 ^ 64 ≤ v → assemble (.word v) = none) ∧
  (∀ k : Nat, 3 ≤ k → assemble (.srcNext k) = none) ∧
  (∀ (k n : Nat), 3 ≤ k ∨ 64 < n → assemble (.srcGetn k n) = none) ∧
  (∀ n : Nat, 64 < n → assemble (.cmbGetn n) = none)

/-! ### The port, the step and reset -/

/-- R71: the words of a command are the header and as many operand words as its OPC asks for, also
when the header is illegal. That a step takes one word, and what the host's side is after those steps,
is the model's choice (log entries 4 and 8). -/
def Obligations.CommandWordsAreCollectedByLength : Prop :=
  ∀ (s : State) (h : Word) (ws : List Word) (cs : List CommandAction),
    s.port = .idle →
    ws.length + 1 = (if opcOf h = 0x01#8 ∨ opcOf h = 0x02#8 then 3 else 1) →
    s.host.commands = (h :: ws).map CommandAction.word ++ cs →
    (∀ b ∈ s.host.resets.take (ws.length + 1), b = false) →
    Sys2Proof.core.run (ws.length + 1) s =
      .next ((s.setPort (.busy ⟨h, ws⟩)).setHost ⟨cs, tickResponses^[ws.length + 1] s.host.responses,
        s.host.resets.drop (ws.length + 1), s.host.received⟩)

/-- R51, R56: a step in BUSY executes the command that the received words decode to. That it does so
in one step (log entry 8), and that the host's side goes on by one step meanwhile, holding a word or a
`take` and using up a `wait` on each port (log entry 4), is the model's choice. -/
def Obligations.StepRunsTheDecodedCommand : Prop :=
  (∀ (s : State) (c : Command) (i : Instr),
    s.port = .busy c → decodeCommand c = .ok i → s.NoReset →
    step s = exec i (s.setHost s.host.tick)) ∧
  (∀ (h : HostSide) (w : Word) (cs : List CommandAction),
    (h.commands = .word w :: cs → h.tick.commands = .word w :: cs) ∧
    (h.commands = .wait :: cs → h.tick.commands = cs) ∧
    (h.commands = [] → h.tick.commands = [])) ∧
  (∀ (h : HostSide) (ts : List ResponseAction),
    (h.responses = .take :: ts → h.tick.responses = .take :: ts) ∧
    (h.responses = .wait :: ts → h.tick.responses = ts) ∧
    (h.responses = [] → h.tick.responses = [])) ∧
  (∀ h : HostSide, h.tick.resets = h.resets.tail ∧ h.tick.received = h.received)

/-- R51, R52, R55, R57, 60_exceptions.md R266: words are accepted in IDLE and COLLECT, whatever the
host does on the response port; with no word presented the block keeps its state there; a word is held
back, and not dropped, in BUSY and RESP; and a word that is held back while a response waits does not
keep the host from taking it, and is accepted after that. What the host's side is after a step is the
model's choice (log entries 4, 8 and 9). -/
def Obligations.WordsAreAcceptedOnlyInIdleAndCollect : Prop :=
  (∀ (s : State) (w : Word) (cs : List CommandAction), s.NoReset → s.host.commands = .word w :: cs →
    (s.port = .idle →
      step s = .next ((s.setPort (if commandLength w = 3 then .collect0 w else .busy ⟨w, []⟩)).setHost
        ⟨cs, tickResponses s.host.responses, s.host.resets.tail, s.host.received⟩)) ∧
    (∀ h, s.port = .collect0 h →
      step s = .next ((s.setPort (.collect1 h w)).setHost
        ⟨cs, tickResponses s.host.responses, s.host.resets.tail, s.host.received⟩)) ∧
    (∀ h a, s.port = .collect1 h a →
      step s = .next ((s.setPort (.busy ⟨h, [a, w]⟩)).setHost
        ⟨cs, tickResponses s.host.responses, s.host.resets.tail, s.host.received⟩))) ∧
  (∀ s : State, s.NoReset → (∀ w cs, s.host.commands ≠ .word w :: cs) →
    (s.port = .idle ∨ (∃ h, s.port = .collect0 h) ∨ ∃ h a, s.port = .collect1 h a) →
    step s = .next (s.setHost s.host.tick)) ∧
  (∀ (s t : State) (w : Word) (cs : List CommandAction), s.NoReset →
    s.host.commands = .word w :: cs → ((∃ c, s.port = .busy c) ∨ ∃ r, s.port = .resp r) →
    step s = .next t → t.host.commands = .word w :: cs) ∧
  (∀ (s : State) (r : Response) (w : Word) (cs : List CommandAction) (ts : List ResponseAction),
    s.port = .resp r → r.status.toNat ≤ 5 → (∀ b ∈ s.host.resets.take 2, b = false) →
    s.host.commands = .word w :: cs → s.host.responses = .take :: ts →
    step s = .next ((s.setPort .idle).setHost
      ⟨.word w :: cs, ts, s.host.resets.tail, s.host.received ++ [r]⟩) ∧
    Sys2Proof.core.run 2 s =
      .next ((s.setPort (if commandLength w = 3 then .collect0 w else .busy ⟨w, []⟩)).setHost
        ⟨cs, tickResponses ts, s.host.resets.drop 2, s.host.received ++ [r]⟩))

/-- R32, R52: a response is held until the host takes it, whatever it does on the command port, and
PORT is then IDLE. 93_implementation_defined.md item 7: a response with a code from 6 to 15 is a
fault when it is taken. The name of that fault (log entry 7), that the response is then kept in
host.received (log entry 9), and what the host's side is after a step (log entry 4), is the model's
choice. -/
def Obligations.ResponseIsHeldUntilTaken : Prop :=
  (∀ (s : State) (r : Response), s.port = .resp r → s.NoReset →
    (∀ ts, s.host.responses ≠ .take :: ts) → step s = .next (s.setHost s.host.tick)) ∧
  (∀ (s : State) (r : Response) (ts : List ResponseAction), s.port = .resp r → s.NoReset →
    s.host.responses = .take :: ts →
    (r.status.toNat ≤ 5 →
      step s = .next ((s.setPort .idle).setHost
        ⟨tickCommands s.host.commands, ts, s.host.resets.tail, s.host.received ++ [r]⟩)) ∧
    (6 ≤ r.status.toNat → step s = .fault .reservedStatus))

/-- R280: reset, in any state of PORT, abandons what PORT holds and sets the state of R33. That what
the host has already taken, and what it is going to do after the reset, stay with the host is the
model's choice (log entries 4 and 9). -/
def Obligations.ResetWinsInEveryPortState : Prop :=
  ∀ (s : State) (rs : List Bool), s.host.resets = true :: rs →
    step s = .next ⟨.empty, .empty, .empty, .none, .idle,
      ⟨tickCommands s.host.commands, tickResponses s.host.responses, rs, s.host.received⟩⟩

/-- R33: the state after reset. That the host has nothing to do and has taken nothing is the
model's own choice (log entry 4). -/
def Obligations.ResetStateIsEmpty : Prop :=
  (∀ k, State.reset.slot k = .empty) ∧ State.reset.cmb = .none ∧ State.reset.port = .idle ∧
  State.reset.host = ⟨[], [], [], []⟩

/-! ### Responses and errors -/

/-- R253: DATA is 0 for every status other than OK, and under OK every bit above those the command
returns is 0. -/
def Obligations.DataIsOnlyTheReturnedBits : Prop :=
  ∀ (i : Instr) (s t : State) (st : BitVec 4) (d : Word),
    exec i s = .next t → t.port = .resp ⟨st, d⟩ →
    (st ≠ 0#4 → d = 0#64) ∧ (st = 0#4 → d.toNat < 2 ^ returnedBits i s)

/-- R250, R52: a command that goes on to a next state leaves one response waiting, with a status the
table allows it; or it has not ended, which only CMB_NEXT and CMB_GETN under SHRINK and SSHRINK can
do, and only without a retry cap. R182 gives such a command no final state; that the slots and CMB
stand as before it, with PORT at BUSY, is the model's choice (log entry 5). -/
def Obligations.EveryCommandLeavesOneAllowedResponse : Prop :=
  ∀ (i : Instr) (s t : State), exec i s = .next t →
    (∃ st d, t.port = .resp ⟨st, d⟩ ∧ st ∈ possibleStatuses i) ∨
    (t = s.setPort (.busy (Command.ofInstr i)) ∧ Config.retryCap = none ∧
      (s.cmb = .shrink ∨ s.cmb = .sshrink) ∧ (i = .cmbNext ∨ ∃ n, i = .cmbGetn n))

/-- R251: every status other than OK and EXHAUSTED leaves everything but PORT as it was, and once the
response is taken the state is that before the command, with PORT at IDLE. The same holds of a
command that does not decode. That each of these takes one step (log entry 8), that the response is
then kept in host.received (log entry 9), and what the host's side is after a step (log entry 4), is
the model's choice. -/
def Obligations.ErrorsArePrecise : Prop :=
  (∀ (s : State) (c : Command) (e : DecodeError), s.port = .busy c → c.complete = true →
    decodeCommand c = .error e → s.NoReset →
    step s = answered 1#4 0#64 (s.setHost s.host.tick)) ∧
  ∀ (i : Instr) (s t : State) (st : BitVec 4) (d : Word),
    exec i s = .next t → t.port = .resp ⟨st, d⟩ → st ≠ 0#4 → st ≠ 5#4 →
    t = s.setPort (.resp ⟨st, 0#64⟩) ∧
    ∀ (cs : List CommandAction) (ts : List ResponseAction) (rs : List Bool),
      step (t.setHost ⟨cs, .take :: ts, false :: rs, s.host.received⟩) =
        .next ((s.setPort .idle).setHost
          ⟨tickCommands cs, ts, rs, s.host.received ++ [⟨st, 0#64⟩]⟩)

/-- R254: when several checks fail, a command reports the first one in its row, and when none fails
it reports OK or EXHAUSTED. -/
def Obligations.FirstFailingCheckIsReported : Prop :=
  ∀ (i : Instr) (s : State),
    (∀ st, expectedError i s = some st → exec i s = answered st 0#64 s) ∧
    (expectedError i s = none → ∀ (t : State) (st : BitVec 4) (d : Word),
      exec i s = .next t → t.port = .resp ⟨st, d⟩ → st = 0#4 ∨ st = 5#4)

/-- R30, R55: what a command does depends on the slots and CMB alone; it neither reads nor changes
the host's side of the ports, and it reads nothing of PORT. -/
def Obligations.CommandsReadOnlySlotsAndCombiner : Prop :=
  ∀ (i : Instr) (s : State) (p : Port) (h : HostSide),
    exec i ((s.setPort p).setHost h) = mapAnswer (fun t => t.setHost h) (exec i s)

/-! ### Frames -/

/-- The slot commands on slot k leave the other slots, CMB and the host's side as they were, and the
draws leave what construction fixed in slot k (R22, R24, R103, R122, R222, R223). -/
def Obligations.SlotCommandsChangeOnlyTheirSlot : Prop :=
  ∀ (k : SlotId) (i : Instr) (s t : State), exec i s = .next t →
    (((∃ len taps seed, i = .cfgFib k len taps seed) ∨ (∃ poly state, i = .cfgGal k poly state) ∨
        i = .srcNext k ∨ ∃ n, i = .srcGetn k n) →
      (∀ k', k' ≠ k → t.slot k' = s.slot k') ∧ t.cmb = s.cmb ∧ t.host = s.host) ∧
    ((i = .srcNext k ∨ ∃ n, i = .srcGetn k n) → (t.slot k).params = (s.slot k).params)

/-- The binds change no slot but for the one draw from each that BIND_STOPGO makes; RELEASE changes
only the slots the combiner owned; none of them changes the host's side (R62, R140, R160, R180,
R200, R226). -/
def Obligations.BindsAndReleaseKeepTheOtherState : Prop :=
  ∀ (i : Instr) (s t : State), exec i s = .next t →
    ((i = .bindGeffe ∨ i = .bindShrink ∨ i = .bindSshrink) →
      (∀ k, t.slot k = s.slot k) ∧ t.host = s.host) ∧
    (i = .bindStopgo →
      (∀ k, t.slot k = s.slot k ∨ t.slot k = (s.slot k).after 1) ∧ t.host = s.host) ∧
    (i = .release → (∀ k, s.owned k = false → t.slot k = s.slot k) ∧ t.host = s.host)

/-- The combiner commands leave the free slots, the kind of the combiner and the host's side as they
were; an owned slot is the same register some draws later; and the latched bits change only under
STOPGO (R23, R26, R62, R145). -/
def Obligations.CombinerCommandsOnlyDrawOwnedSlots : Prop :=
  ∀ (i : Instr) (s t : State), exec i s = .next t →
    (i = .cmbNext ∨ (∃ n, i = .cmbGetn n) ∨ i = .geffeNextAlt) →
    (∀ k, s.owned k = false → t.slot k = s.slot k) ∧
    (∀ k, ∃ j, t.slot k = (s.slot k).after j ∧ (t.slot k).params = (s.slot k).params) ∧
    t.cmb.kindNumber = s.cmb.kindNumber ∧
    (s.cmb.kindNumber ≠ 2 → t.cmb = s.cmb) ∧ t.host = s.host

/-! ### The invariant -/

/-- The invariant holds at reset, whatever the host is going to do. -/
def Obligations.InvariantHoldsAtReset : Prop :=
  ∀ h : HostSide, (State.reset.setHost h).Inv

/-- R23, R25, R27, R250, R253: every step keeps the invariants of the slots, of the sources of the
bound combiner, and of PORT. -/
def Obligations.StepKeepsTheInvariant : Prop :=
  ∀ s t : State, s.Inv → step s = .next t → t.Inv

/-- R220, R250: in a state that satisfies the invariant, a step ends in no fault and no refusal, and
neither does a command. -/
def Obligations.InvariantStatesNeverStop : Prop :=
  (∀ s : State, s.Inv → ∃ t, step s = .next t) ∧
  (∀ (s : State) (i : Instr), s.Inv → ∃ t, exec i s = .next t)

/-- Whatever the host does from reset on, no step ever ends in a fault or a refusal. -/
def Obligations.EveryRunFromResetIsSafe : Prop :=
  ∀ h : HostSide, (State.reset.setHost h).Safe

/-! ### Fibonacci form -/

/-- R101: the word form of `FibStep` is the source's algorithm of R100, and it keeps r below 2^L. -/
def Obligations.FibStepIsTheSourceAlgorithm : Prop :=
  ∀ (L : BitVec 7) (T r : Word), 1 ≤ L.toNat → L.toNat ≤ 64 → T.toNat < 2 ^ L.toNat →
    r.toNat < 2 ^ L.toNat →
    fibStepRef T (elements L.toNat r) =
      ((fibStep L T r).1, elements L.toNat (fibStep L T r).2) ∧
    (fibStep L T r).2.toNat < 2 ^ L.toNat

/-- R102: the output is the complement of the textbook one, and the step map is A(r) xor e0 with A
linear. -/
def Obligations.FibStepIsAffine : Prop :=
  ∀ (L : BitVec 7) (T : Word), ∃ A : Word → Word,
    A 0#64 = 0#64 ∧ (∀ a b, A (a ^^^ b) = A a ^^^ A b) ∧
    (∀ r, A r = truncTo L.toNat (r <<< 1) ||| bitWord (parity (r &&& T))) ∧
    (∀ r, (fibStep L T r).2 = A r ^^^ 1#64) ∧
    (∀ r, (fibStep L T r).1 = !parity (r &&& T))

/-- R104: an all-zero seed is accepted, and the register leaves zero at once. -/
def Obligations.ZeroFibonacciSeedIsNotAFixedPoint : Prop :=
  (∀ (s : State) (k : SlotId) (L : BitVec 7) (T : Word), s.owned k = false → 1 ≤ L.toNat →
    L.toNat ≤ 64 → T >>> L.toNat = 0#64 →
    exec (.cfgFib k L T 0#64) s = answered 0#4 0#64 (s.setSlot k (.fib L T 0#64))) ∧
  (∀ (L : BitVec 7) (T : Word), fibStep L T 0#64 = (true, 1#64))

/-- R105: with no taps the unit outputs 1 forever, and after L steps the register is all ones. -/
def Obligations.EmptyTapSetOutputsOnes : Prop :=
  ∀ (L : BitVec 7) (r : Word), 1 ≤ L.toNat → L.toNat ≤ 64 → r.toNat < 2 ^ L.toNat →
    (∀ n, (Slot.fib L 0#64 r).bits n = List.replicate n true) ∧
    (Slot.fib L 0#64 r).after L.toNat = .fib L 0#64 (BitVec.ofNat 64 (2 ^ L.toNat - 1))

/-- R107: the fixed points of `FibStep`. -/
def Obligations.FibonacciFixedPoints : Prop :=
  ∀ (L : BitVec 7) (T r : Word), 1 ≤ L.toNat → L.toNat ≤ 64 → T.toNat < 2 ^ L.toNat →
    r.toNat < 2 ^ L.toNat →
    ((fibStep L T r).2 = r ↔ r.toNat = 2 ^ L.toNat - 1 ∧ popcount T % 2 = 0) ∧
    ((fibStep L T r).2 = r → (fibStep L T r).1 = true)

/-- R108: L+1 consecutive draws from a Fibonacci source contain a 1. -/
def Obligations.FibonacciZeroRunsAreBounded : Prop :=
  ∀ (L : BitVec 7) (T r : Word), 1 ≤ L.toNat → L.toNat ≤ 64 → T.toNat < 2 ^ L.toNat →
    r.toNat < 2 ^ L.toNat → true ∈ (Slot.fib L T r).bits (L.toNat + 1)

/-- R109: `FibStep` is a bijection on L-bit registers exactly when T[L-1] = 1. -/
def Obligations.FibStepIsBijectiveIffTopTap : Prop :=
  ∀ (L : BitVec 7) (T : Word), 1 ≤ L.toNat → L.toNat ≤ 64 → T.toNat < 2 ^ L.toNat →
    (Set.BijOn (fun r => (fibStep L T r).2) {r : Word | r.toNat < 2 ^ L.toNat}
        {r : Word | r.toNat < 2 ^ L.toNat} ↔
      T.getLsbD (L.toNat - 1) = true)

/-- R103: CFG_FIB, its words, its checks in order and its effect. -/
def Obligations.CfgFibFollowsItsPseudocode : Prop :=
  ∀ (s : State) (k : SlotId) (L : BitVec 7) (taps seed : Word),
    encode (.cfgFib k L taps seed) =
      [(0x01#64 <<< 24) ||| (k.field.setWidth 64 <<< 22) ||| L.setWidth 64, taps, seed] ∧
    (s.owned k = true → exec (.cfgFib k L taps seed) s = answered 4#4 0#64 s) ∧
    (s.owned k = false → L.toNat = 0 ∨ 64 < L.toNat →
      exec (.cfgFib k L taps seed) s = answered 2#4 0#64 s) ∧
    (s.owned k = false → 1 ≤ L.toNat → L.toNat ≤ 64 →
      taps >>> L.toNat ≠ 0#64 ∨ seed >>> L.toNat ≠ 0#64 →
      exec (.cfgFib k L taps seed) s = answered 2#4 0#64 s) ∧
    (s.owned k = false → 1 ≤ L.toNat → L.toNat ≤ 64 → taps >>> L.toNat = 0#64 →
      seed >>> L.toNat = 0#64 →
      exec (.cfgFib k L taps seed) s = answered 0#4 0#64 (s.setSlot k (.fib L taps seed)))

/-! ### Galois form -/

/-- R121: n steps on the retained m bits give the bits that the source's algorithm gives from any
state integer with those low bits, and retain the low m bits of its state. -/
def Obligations.GalStepRefinesTheSourceAlgorithm : Prop :=
  ∀ (m : BitVec 7) (P : Word) (n X : Nat), 1 ≤ m.toNat → m.toNat ≤ 64 → P.toNat < 2 ^ m.toNat →
    (Slot.gal m P (BitVec.ofNat 64 (X % 2 ^ m.toNat))).bits n =
      (galRefRun P.toNat (2 ^ m.toNat) n X).1 ∧
    (Slot.gal m P (BitVec.ofNat 64 (X % 2 ^ m.toNat))).after n =
      .gal m P (BitVec.ofNat 64 ((galRefRun P.toNat (2 ^ m.toNat) n X).2 % 2 ^ m.toNat))

/-- R125: `GalStep` is a bijection on m-bit states with the inverse the rule gives; a nonzero state
never becomes zero; and every state comes back after some number of draws. -/
def Obligations.GalStepIsInvertible : Prop :=
  ∀ (m : BitVec 7) (P : Word), 1 ≤ m.toNat → m.toNat ≤ 64 → P.toNat < 2 ^ m.toNat →
    P.getLsbD 0 = true →
    Set.BijOn (fun s => (galStep m P s).2) {s : Word | s.toNat < 2 ^ m.toNat}
      {s : Word | s.toNat < 2 ^ m.toNat} ∧
    ∀ s : Word, s.toNat < 2 ^ m.toNat →
      (galStep m P s).2.getLsbD 0 = (galStep m P s).1 ∧
      s = (((galStep m P s).2 ^^^ (if (galStep m P s).1 then P else 0#64)) >>> 1) |||
        (bitWord (galStep m P s).1 <<< (m.toNat - 1)) ∧
      ((galStep m P s).2 = 0#64 ↔ s = 0#64) ∧
      ∃ p, 0 < p ∧ (Slot.gal m P s).after p = .gal m P s

/-- R126: m consecutive draws from a Galois source with a nonzero state contain a 1. -/
def Obligations.GaloisZeroRunsAreBounded : Prop :=
  ∀ (m : BitVec 7) (P s : Word), 1 ≤ m.toNat → m.toNat ≤ 64 → P.toNat < 2 ^ m.toNat →
    P.getLsbD 0 = true → s.toNat < 2 ^ m.toNat → s ≠ 0#64 → true ∈ (Slot.gal m P s).bits m.toNat

/-- R124: a nonzero STATE whose low m bits are 0 is accepted and gives the retained state 0, from
which the source outputs 0 forever. -/
def Obligations.ZeroRetainedStateOutputsZeros : Prop :=
  (∀ (s : State) (k : SlotId) (poly state : Word) (m : Nat), s.owned k = false → 1 ≤ m →
    2 ^ (m - 1) ≤ poly.toNat → poly.toNat < 2 ^ m → state ≠ 0#64 → state.toNat % 2 ^ m = 0 →
    exec (.cfgGal k poly state) s =
      answered 0#4 0#64 (s.setSlot k (.gal (BitVec.ofNat 7 m) (poly ||| 1#64) 0#64))) ∧
  (∀ (m : BitVec 7) (P : Word) (n : Nat),
    (Slot.gal m P 0#64).bits n = List.replicate n false ∧
    (Slot.gal m P 0#64).after n = .gal m P 0#64)

/-- R122: CFG_GAL, its words, its checks in order and its effect, with m = bitlen(POLY) as R7 defines
it. -/
def Obligations.CfgGalFollowsItsPseudocode : Prop :=
  ∀ (s : State) (k : SlotId) (poly state : Word),
    encode (.cfgGal k poly state) = [(0x02#64 <<< 24) ||| (k.field.setWidth 64 <<< 22), poly, state] ∧
    (s.owned k = true → exec (.cfgGal k poly state) s = answered 4#4 0#64 s) ∧
    (s.owned k = false → poly = 0#64 ∨ state = 0#64 →
      exec (.cfgGal k poly state) s = answered 2#4 0#64 s) ∧
    (s.owned k = false → state ≠ 0#64 → ∀ m : Nat, 1 ≤ m → 2 ^ (m - 1) ≤ poly.toNat →
      poly.toNat < 2 ^ m →
      exec (.cfgGal k poly state) s = answered 0#4 0#64
        (s.setSlot k (.gal (BitVec.ofNat 7 m) (poly ||| 1#64)
          (BitVec.ofNat 64 (state.toNat % 2 ^ m)))))

/-- R123: an even polynomial is no error and makes the same register as the odd one above it. -/
def Obligations.EvenPolynomialMakesTheOddRegister : Prop :=
  (∀ (s : State) (k : SlotId) (poly state : Word), poly ≠ 0#64 →
    exec (.cfgGal k poly state) s = exec (.cfgGal k (poly ||| 1#64) state) s) ∧
  (∀ (s : State) (k : SlotId) (poly state : Word), s.owned k = false → poly ≠ 0#64 →
    state ≠ 0#64 → poly.getLsbD 0 = false →
    ∃ v, exec (.cfgGal k poly state) s = answered 0#4 0#64 (s.setSlot k v) ∧ v ≠ .empty)

/-! ### Geffe -/

/-- R141, R144: the truth table of the Geffe function, and the two rows on which the forms of the
second formula differ. REFERENCE is this hardware's form. -/
def Obligations.GeffeFormulas : Prop :=
  geffe false false false = false ∧ geffe false false true = true ∧
  geffe false true false = false ∧ geffe false true true = false ∧
  geffe true false false = false ∧ geffe true false true = true ∧
  geffe true true false = true ∧ geffe true true true = true ∧
  Config.geffeAltForm = .reference ∧
  (∀ b1 b2 b3, geffeAlt .reference b1 b2 b3 = geffe b1 b2 b3) ∧
  (∀ b1 b2 b3, geffeAlt .textbook b1 b2 b3 = ((b1 && b2) ^^ (!b1 && b3))) ∧
  (∀ b1 b2 b3, geffeAlt .textbook b1 b2 b3 ≠ geffeAlt .reference b1 b2 b3 ↔
    (b1, b2, b3) = (false, true, true) ∨ (b1, b2, b3) = (true, false, true))

/-- R140, R180, R200: the binds that draw nothing, their words, their checks in order and their
effect. -/
def Obligations.BindsFollowTheirPseudocode : Prop :=
  encode .bindGeffe = [0x0000000010000000#64] ∧ encode .bindShrink = [0x0000000012000000#64] ∧
  encode .bindSshrink = [0x0000000013000000#64] ∧
  ∀ s : State,
    (s.cmb ≠ .none → exec .bindGeffe s = answered 4#4 0#64 s ∧
      exec .bindShrink s = answered 4#4 0#64 s ∧ exec .bindSshrink s = answered 4#4 0#64 s) ∧
    (s.cmb = .none → (s.s0 = .empty ∨ s.s1 = .empty ∨ s.s2 = .empty) →
      exec .bindGeffe s = answered 3#4 0#64 s) ∧
    (s.cmb = .none → s.s0 ≠ .empty → s.s1 ≠ .empty → s.s2 ≠ .empty →
      exec .bindGeffe s = answered 0#4 0#64 (s.setCmb .geffe)) ∧
    (s.cmb = .none → (s.s0 = .empty ∨ s.s1 = .empty) →
      exec .bindShrink s = answered 3#4 0#64 s ∧ exec .bindSshrink s = answered 3#4 0#64 s) ∧
    (s.cmb = .none → s.s0 ≠ .empty → s.s1 ≠ .empty →
      exec .bindShrink s = answered 0#4 0#64 (s.setCmb .shrink)) ∧
    (s.cmb = .none → s.s0 ≠ .empty → s.s1 ≠ .empty → (s.s0.isGal = false ∨ s.s1.isGal = false) →
      exec .bindSshrink s = answered 2#4 0#64 s) ∧
    (s.cmb = .none → s.s0.isGal = true → s.s1.isGal = true →
      exec .bindSshrink s = answered 0#4 0#64 (s.setCmb .sshrink))

/-- R142, R143, R144: one unit of each entry point draws one bit from each source, and GEFFE_NEXT_ALT
is refused unless GEFFE is bound. -/
def Obligations.GeffeEntryPointsDrawOneTriple : Prop :=
  encode .geffeNextAlt = [0x0000000022000000#64] ∧
  (∀ s : State, s.cmb ≠ .geffe → exec .geffeNextAlt s = answered 3#4 0#64 s) ∧
  (∀ (s : State) (b1 b2 b3 : Bool), s.cmb = .geffe → s.s0.next? = some b1 → s.s1.next? = some b2 →
    s.s2.next? = some b3 →
    exec .cmbNext s = answered 0#4 (bitWord ((b1 && b2) ^^ (!b2 && b3))) (s.advance 1 1 1) ∧
    exec .geffeNextAlt s = answered 0#4 (bitWord ((b1 && b2) ^^ (!b2 && b3))) (s.advance 1 1 1) ∧
    geffeNextAltUnder .textbook s =
      answered 0#4 (bitWord ((b1 && b2) ^^ (!b1 && b3))) (s.advance 1 1 1))

/-- R142, R145, R225, R228: n bits under GEFFE are the three streams combined bit by bit, and each
source has made exactly n draws. -/
def Obligations.GeffeGetnCombinesThreeStreams : Prop :=
  ∀ (s : State) (n : BitVec 7), s.cmb = .geffe → s.s0 ≠ .empty → s.s1 ≠ .empty → s.s2 ≠ .empty →
    n.toNat ≤ 64 →
    ∃ d, exec (.cmbGetn n) s = answered 0#4 d (s.advance n.toNat n.toNat n.toNat) ∧
      stringView n.toNat d = List.zipWith (fun b b3 => geffe b.1 b.2 b3)
        ((s.s0.bits n.toNat).zip (s.s1.bits n.toNat)) (s.s2.bits n.toNat)

/-! ### Stop-and-Go -/

/-- R160: BIND_STOPGO, its word, its checks in order, and the one bit it draws from each source and
latches. -/
def Obligations.BindStopgoLatchesThreeBits : Prop :=
  encode .bindStopgo = [0x0000000011000000#64] ∧
  ∀ s : State,
    (s.cmb ≠ .none → exec .bindStopgo s = answered 4#4 0#64 s) ∧
    (s.cmb = .none → (s.s0 = .empty ∨ s.s1 = .empty ∨ s.s2 = .empty) →
      exec .bindStopgo s = answered 3#4 0#64 s) ∧
    (∀ b1 b2 b3, s.cmb = .none → s.s0.next? = some b1 → s.s1.next? = some b2 →
      s.s2.next? = some b3 →
      exec .bindStopgo s = answered 0#4 0#64 ((s.advance 1 1 1).setCmb (.stopgo b1 b2 b3)))

/-- R161: one Stop-and-Go unit draws a control bit, clocks one of the two other sources, and keeps
the latched bit of the one it does not clock. -/
def Obligations.StopGoUnitClocksOneSource : Prop :=
  ∀ (s : State) (b1 b2 b3 b : Bool), s.cmb = .stopgo b1 b2 b3 →
    (s.s0.next? = some true → s.s1.next? = some b →
      exec .cmbNext s =
        answered 0#4 (bitWord (b ^^ b3)) ((s.advance 1 1 0).setCmb (.stopgo true b b3))) ∧
    (s.s0.next? = some false → s.s2.next? = some b →
      exec .cmbNext s =
        answered 0#4 (bitWord (b2 ^^ b)) ((s.advance 1 0 1).setCmb (.stopgo false b2 b)))

/-- R162, R163: over n units S0 is drawn n times, S1 as often as the control bit was 1 and S2 as
often as it was 0; each output is the xor of the bits then latched, which are the last drawn from S1
and S2 or, before the first such draw, those latched before. -/
def Obligations.StopGoClockingPattern : Prop :=
  ∀ (s : State) (b1 b2 b3 : Bool) (n : BitVec 7), s.cmb = .stopgo b1 b2 b3 → s.s0 ≠ .empty →
    s.s1 ≠ .empty → s.s2 ≠ .empty → n.toNat ≤ 64 →
    ∃ d, exec (.cmbGetn n) s = answered 0#4 d
        ((s.advance n.toNat ((s.s0.bits n.toNat).count true)
            ((s.s0.bits n.toNat).count false)).setCmb
          (.stopgo ((s.s0.bits n.toNat).getLastD b1)
            ((s.s1.bits ((s.s0.bits n.toNat).count true)).getLastD b2)
            ((s.s2.bits ((s.s0.bits n.toNat).count false)).getLastD b3))) ∧
      stringView n.toNat d = (List.range n.toNat).map fun j =>
        (s.s1.bits ((s.s0.bits (j + 1)).count true)).getLastD b2 ^^
          (s.s2.bits ((s.s0.bits (j + 1)).count false)).getLastD b3

/-! ### Shrinking and Self-Shrinking -/

/-- R181, R184: a shrinking unit returns the data bit of the first pair whose control bit is 1; under
`RETRY_CAP = some K` it raises EXHAUSTED after K pairs with control bit 0. -/
def Obligations.ShrinkUnitReturnsTheFirstKeptBit : Prop :=
  (∀ s : State, exec .cmbNext s = cmbNextUnder Config.retryCap s) ∧
  (∀ (s : State) (j : Nat) (b : Bool), s.cmb = .shrink →
    s.s0.bits (j + 1) = List.replicate j false ++ [true] → (s.s1.bits (j + 1)).getLast? = some b →
    (∀ K : ℕ+, Config.retryCap = some K → j < (K : Nat)) →
    exec .cmbNext s = answered 0#4 (bitWord b) (s.advance (j + 1) (j + 1) 0)) ∧
  (∀ (s : State) (K : ℕ+), s.cmb = .shrink → s.s1 ≠ .empty →
    s.s0.bits (K : Nat) = List.replicate (K : Nat) false →
    cmbNextUnder (some K) s = answered 5#4 0#64 (s.advance (K : Nat) (K : Nat) 0))

/-- R182: without a retry cap a shrinking unit ends within L+1 pairs under a Fibonacci control and
within m pairs under a Galois control with a nonzero state, and never ends exactly when the control
is a Galois register with state 0; under a cap of K that case ends in EXHAUSTED after K pairs. R182
gives the hang no final state; that `stillBusy` has the slots and CMB as before the command is the
model's choice (log entry 5). -/
def Obligations.ShrinkHangsExactlyOnAZeroGaloisControl : Prop :=
  ∀ s : State, s.Inv → s.cmb = .shrink →
    (∀ L T r, s.s0 = .fib L T r → ∃ j d, 1 ≤ j ∧ j ≤ L.toNat + 1 ∧
      cmbNextUnder none s = answered 0#4 d (s.advance j j 0)) ∧
    (∀ m P x, s.s0 = .gal m P x → x ≠ 0#64 → ∃ j d, 1 ≤ j ∧ j ≤ m.toNat ∧
      cmbNextUnder none s = answered 0#4 d (s.advance j j 0)) ∧
    (cmbNextUnder none s = stillBusy .cmbNext s ↔ ∃ m P, s.s0 = .gal m P 0#64) ∧
    ((∀ fuel, shrinkLoop none fuel 0 s = .endless) ↔ ∃ m P, s.s0 = .gal m P 0#64) ∧
    (∀ m P, s.s0 = .gal m P 0#64 → ∀ K : ℕ+,
      cmbNextUnder (some K) s = answered 5#4 0#64 (s.advance (K : Nat) (K : Nat) 0))

/-- R201, R202, R184: a self-shrinking unit is the data bits of the first two pairs whose control bit
is 1, the first one in bit 1; under `RETRY_CAP = some K` it raises EXHAUSTED at the K-th pair with
control bit 0, counted over both positions. -/
def Obligations.SelfShrinkUnitKeepsTwoBits : Prop :=
  (∀ (s : State) (p : Nat) (d1 d2 : Bool), s.cmb = .sshrink → s.s0 ≠ .empty →
    decimate (s.s1.bits p) (s.s0.bits p) = [d1, d2] → (s.s1.bits p).getLast? = some true →
    (∀ K : ℕ+, Config.retryCap = some K → (s.s1.bits p).count false < (K : Nat)) →
    exec .cmbNext s = answered 0#4 ((bitWord d1 <<< 1) ||| bitWord d2) (s.advance p p 0)) ∧
  (∀ (s : State) (p : Nat) (K : ℕ+), s.cmb = .sshrink → s.s0 ≠ .empty →
    (s.s1.bits p).count true < 2 → (s.s1.bits p).count false = (K : Nat) →
    (s.s1.bits p).getLast? = some false →
    cmbNextUnder (some K) s = answered 5#4 0#64 (s.advance p p 0))

/-- R203: without a retry cap a self-shrinking unit ends within 2m pairs when the state of the
control S1 is nonzero, and never ends exactly when it is 0. R203 gives the hang no final state; that
`stillBusy` has the slots and CMB as before the command is the model's choice (log entry 5). -/
def Obligations.SelfShrinkHangsExactlyOnAZeroControl : Prop :=
  ∀ s : State, s.Inv → s.cmb = .sshrink →
    (∀ m P x, s.s1 = .gal m P x → x ≠ 0#64 → ∃ j d, 2 ≤ j ∧ j ≤ 2 * m.toNat ∧
      cmbNextUnder none s = answered 0#4 d (s.advance j j 0)) ∧
    (cmbNextUnder none s = stillBusy .cmbNext s ↔ ∃ m P, s.s1 = .gal m P 0#64) ∧
    ((∀ fuel, selfShrinkLoop none fuel 2 0 0#64 s = .endless) ↔ ∃ m P, s.s1 = .gal m P 0#64)

/-- R182, R203, R225: without a retry cap, CMB_GETN under SHRINK and SSHRINK answers OK whenever the
control is not a Galois register with state 0. -/
def Obligations.UncappedGetnAnswersUnlessControlIsZero : Prop :=
  (∀ s : State, ∀ n, exec (.cmbGetn n) s = cmbGetnUnder Config.retryCap n s) ∧
  ∀ (s : State) (n : BitVec 7), s.Inv → n.toNat ≤ 64 →
    (s.cmb = .shrink → (∀ m P, s.s0 ≠ .gal m P 0#64) →
      ∃ d p, cmbGetnUnder none n s = answered 0#4 d (s.advance p p 0)) ∧
    (s.cmb = .sshrink → (∀ m P, s.s1 ≠ .gal m P 0#64) → n.toNat % 2 = 0 →
      ∃ d p, cmbGetnUnder none n s = answered 0#4 d (s.advance p p 0))

/-- R183, R225, R228: under any retry cap, the n bits an OK response of CMB_GETN carries are the data
bits at the control-1 places of the pairs drawn, in order, and the last pair drawn is such a place;
for n = 0 no pair is drawn. -/
def Obligations.ShrinkingGetnIsDecimation : Prop :=
  ∀ (cap : Option ℕ+) (s t : State) (n : BitVec 7) (d : Word), n.toNat ≤ 64 →
    cmbGetnUnder cap n s = .next t → t.port = .resp ⟨0#4, d⟩ →
    (s.cmb = .shrink → ∃ p, t = (s.advance p p 0).setPort (.resp ⟨0#4, d⟩) ∧
      (s.s0.bits p).count true = n.toNat ∧ (0 < n.toNat → (s.s0.bits p).getLast? = some true) ∧
      (n.toNat = 0 → p = 0) ∧
      stringView n.toNat d = decimate (s.s0.bits p) (s.s1.bits p)) ∧
    (s.cmb = .sshrink → ∃ p, t = (s.advance p p 0).setPort (.resp ⟨0#4, d⟩) ∧
      (s.s1.bits p).count true = n.toNat ∧ (0 < n.toNat → (s.s1.bits p).getLast? = some true) ∧
      (n.toNat = 0 → p = 0) ∧
      stringView n.toNat d = decimate (s.s1.bits p) (s.s0.bits p))

/-- R252, R184: CMB_NEXT and CMB_GETN answer EXHAUSTED only under a cap of K, at the pair that is the
K-th control bit 0 of a unit, the first such pair, with fewer bits completed than asked for. Every
pair up to that one stays drawn, those of the completed units among them; DATA is 0 and the combiner
stays bound. And whenever CMB_GETN comes to such a pair, it answers EXHAUSTED there. -/
def Obligations.ExhaustedKeepsTheDraws : Prop :=
  (∀ (cap : Option ℕ+) (s t : State) (d : Word) (n : Nat), t.port = .resp ⟨5#4, d⟩ →
    ((cmbNextUnder cap s = .next t ∧ n = s.cmb.unitWidth) ∨
      ∃ m : BitVec 7, cmbGetnUnder cap m s = .next t ∧ n = m.toNat) →
    d = 0#64 ∧ ∃ (K : ℕ+) (p : Nat), cap = some K ∧ s.CapStopsAt (K : Nat) n p ∧
      t = (s.advance p p 0).setPort (.resp ⟨5#4, 0#64⟩)) ∧
  (∀ (s : State) (K : ℕ+) (n : BitVec 7) (p : Nat), s.s0 ≠ .empty → s.s1 ≠ .empty →
    (s.cmb = .sshrink → n.toNat % 2 = 0) → s.CapStopsAt (K : Nat) n.toNat p →
    cmbGetnUnder (some K) n s = answered 5#4 0#64 (s.advance p p 0))

/-- R259: a command that never ends keeps PORT at BUSY, step after step, until reset; under a retry
cap of K the same command answers EXHAUSTED after K pairs. That the slots and CMB stand as before the
command meanwhile (log entry 5), what the host's side is after a step (log entry 4), and that reset
keeps what the host has taken and is going to do (log entry 9) is the model's choice. -/
def Obligations.HungCommandStaysBusyUntilReset : Prop :=
  ∀ (s : State) (i : Instr) (m : BitVec 7) (P : Word), s.port = .busy (Command.ofInstr i) → s.NoReset →
    ((s.cmb = .shrink ∧ s.s0 = .gal m P 0#64 ∧ s.s1 ≠ .empty ∧
        (i = .cmbNext ∨ ∃ n, i = .cmbGetn n ∧ 1 ≤ n.toNat ∧ n.toNat ≤ 64)) ∨
      (s.cmb = .sshrink ∧ s.s1 = .gal m P 0#64 ∧ s.s0 ≠ .empty ∧
        (i = .cmbNext ∨ ∃ n, i = .cmbGetn n ∧ 2 ≤ n.toNat ∧ n.toNat ≤ 64 ∧ n.toNat % 2 = 0))) →
    step s =
      (match Config.retryCap with
        | none => .next (s.setHost s.host.tick)
        | some K => answered 5#4 0#64 ((s.setHost s.host.tick).advance (K : Nat) (K : Nat) 0)) ∧
    ∀ (cs : List CommandAction) (ts : List ResponseAction) (rs : List Bool),
      step (s.setHost ⟨cs, ts, true :: rs, s.host.received⟩) =
        .next ⟨.empty, .empty, .empty, .none, .idle,
          ⟨tickCommands cs, tickResponses ts, rs, s.host.received⟩⟩

/-- R290: the free slot S2 under SHRINK and SSHRINK does not affect the combiner's commands, and the
slot commands on it behave as if no combiner were bound. -/
def Obligations.FreeSlotIsIndependentOfTheCombiner : Prop :=
  ∀ (s : State), (s.cmb = .shrink ∨ s.cmb = .sshrink) →
    (∀ (v : Slot) (i : Instr), (i = .cmbNext ∨ ∃ n, i = .cmbGetn n) →
      exec i (s.setSlot .s2 v) = mapAnswer (fun t => t.setSlot .s2 v) (exec i s)) ∧
    (∀ i : Instr, ((∃ len taps seed, i = .cfgFib .s2 len taps seed) ∨
        (∃ poly state, i = .cfgGal .s2 poly state) ∨ i = .srcNext .s2 ∨ ∃ n, i = .srcGetn .s2 n) →
      exec i s = mapAnswer (fun t => t.setCmb s.cmb) (exec i (s.setCmb .none)))

/-! ### The output pipeline -/

/-- R222: SRC_NEXT, its word, its checks in order and its effect; it does what SRC_GETN does for
n = 1. -/
def Obligations.SrcNextFollowsItsPseudocode : Prop :=
  ∀ (s : State) (k : SlotId),
    encode (.srcNext k) = [(0x03#64 <<< 24) ||| (k.field.setWidth 64 <<< 22)] ∧
    (s.owned k = true → exec (.srcNext k) s = answered 4#4 0#64 s) ∧
    (s.owned k = false → s.slot k = .empty → exec (.srcNext k) s = answered 3#4 0#64 s) ∧
    (∀ b, s.owned k = false → (s.slot k).next? = some b →
      exec (.srcNext k) s = answered 0#4 (bitWord b) (s.setSlot k ((s.slot k).after 1))) ∧
    exec (.srcNext k) s = exec (.srcGetn k 1#7) s

/-- R223, R221, R228: SRC_GETN, its word, its checks in order and its effect: the n bits of DATA, read
as a string, are the next n bits of the source, and every bit of DATA above them is 0. -/
def Obligations.SrcGetnReturnsTheStream : Prop :=
  ∀ (s : State) (k : SlotId) (n : BitVec 7), n.toNat ≤ 64 →
    encode (.srcGetn k n) =
      [(0x04#64 <<< 24) ||| (k.field.setWidth 64 <<< 22) ||| n.setWidth 64] ∧
    (s.owned k = true → exec (.srcGetn k n) s = answered 4#4 0#64 s) ∧
    (s.owned k = false → s.slot k = .empty → exec (.srcGetn k n) s = answered 3#4 0#64 s) ∧
    (s.owned k = false → s.slot k ≠ .empty →
      ∃ d, exec (.srcGetn k n) s = answered 0#4 d (s.setSlot k ((s.slot k).after n.toNat)) ∧
        stringView n.toNat d = (s.slot k).bits n.toNat ∧ d.toNat < 2 ^ n.toNat)

/-- R226: RELEASE, its word and its effect. With nothing bound it changes only PORT. -/
def Obligations.ReleaseEmptiesTheOwnedSlots : Prop :=
  encode .release = [0x0000000030000000#64] ∧
  (∀ s : State, exec .release s = answered 0#4 0#64
    { s with
      s0 := if s.owned .s0 then .empty else s.s0
      s1 := if s.owned .s1 then .empty else s.s1
      s2 := if s.owned .s2 then .empty else s.s2
      cmb := .none }) ∧
  (∀ s : State, s.cmb = .none → exec .release s = answered 0#4 0#64 s)

/-- R224, R225: the words of CMB_NEXT and CMB_GETN and their checks in order; n = 0 draws nothing, and
returns 0. -/
def Obligations.CmbCommandsHaveTheirWordsAndChecks : Prop :=
  encode .cmbNext = [0x0000000020000000#64] ∧
  ∀ s : State,
    (s.cmb = .none → exec .cmbNext s = answered 3#4 0#64 s) ∧
    ∀ n : BitVec 7, n.toNat ≤ 64 →
      encode (.cmbGetn n) = [(0x21#64 <<< 24) ||| n.setWidth 64] ∧
      (s.cmb = .none → exec (.cmbGetn n) s = answered 3#4 0#64 s) ∧
      (s.cmb = .sshrink → n.toNat % 2 = 1 → exec (.cmbGetn n) s = answered 1#4 0#64 s) ∧
      (s.cmb ≠ .none → n.toNat = 0 → exec (.cmbGetn n) s = answered 0#4 0#64 s)
end

