-- ==== Sys2Proof/Laws/Operands.lean ====
section
/-! SUPPORT. The laws of the operators on words (00_scope.md R7, R8): each says what the operator
means in the spec's terms. -/

namespace Sys2Proof.Machine

@[simp] theorem bitWord_true : bitWord true = 1#64 := rfl

@[simp] theorem bitWord_false : bitWord false = 0#64 := rfl

theorem getLsbD_bitWord (b : Bool) (i : Nat) : (bitWord b).getLsbD i = (decide (i = 0) && b) := by
  cases b <;> simp [bitWord, BitVec.getLsbD_one]

/-- The mask has exactly its low n bits set. -/
theorem getLsbD_lowMask (n i : Nat) : (lowMask n).getLsbD i = (decide (i < 64) && decide (i < n)) := by
  simp [lowMask, BitVec.getLsbD_ofNat, Nat.testBit_two_pow_sub_one]

/-- `truncTo n` keeps the bits below n. -/
theorem getLsbD_truncTo (n : Nat) (v : Word) (i : Nat) :
    (truncTo n v).getLsbD i = (v.getLsbD i && decide (i < n)) := by
  rw [truncTo, BitVec.getLsbD_and, getLsbD_lowMask]
  by_cases h : i < 64
  · simp only [h, decide_true, Bool.true_and]
  · rw [BitVec.getLsbD_of_ge v i (Nat.le_of_not_lt h), Bool.false_and, Bool.false_and]

/-- `truncTo n v` is `v mod 2^n` (R8). -/
theorem toNat_truncTo (n : Nat) (v : Word) : (truncTo n v).toNat = v.toNat % 2 ^ n := by
  apply Nat.eq_of_testBit_eq
  intro i
  rw [Nat.testBit_mod_two_pow, ← BitVec.getLsbD, ← BitVec.getLsbD, getLsbD_truncTo, Bool.and_comm]

theorem toNat_truncTo_lt (n : Nat) (v : Word) : (truncTo n v).toNat < 2 ^ n := by
  rw [toNat_truncTo]
  exact Nat.mod_lt _ (Nat.two_pow_pos n)

theorem parityUpTo_xor (n : Nat) (a b : Word) :
    parityUpTo n (a ^^^ b) = (parityUpTo n a ^^ parityUpTo n b) := by
  induction n with
  | zero => rfl
  | succ n ih =>
    simp only [parityUpTo, ih, BitVec.getLsbD_xor]
    cases a.getLsbD n <;> cases b.getLsbD n <;> simp

/-- Parity is linear (R8). -/
theorem parity_xor (a b : Word) : parity (a ^^^ b) = (parity a ^^ parity b) := parityUpTo_xor 64 a b

theorem parityUpTo_zero (n : Nat) : parityUpTo n 0#64 = false := by
  induction n with
  | zero => rfl
  | succ n ih => simp [parityUpTo, ih]

@[simp] theorem parity_zero : parity 0#64 = false := parityUpTo_zero 64

theorem parityUpTo_eq_popcountUpTo (n : Nat) (v : Word) :
    parityUpTo n v = decide (popcountUpTo n v % 2 = 1) := by
  induction n with
  | zero => rfl
  | succ n ih =>
    simp only [parityUpTo, popcountUpTo, ih]
    rcases Nat.mod_two_eq_zero_or_one (popcountUpTo n v) with h | h <;>
      by_cases hb : v.getLsbD n = true <;> simp [Nat.add_mod, h, hb]

/-- `parity(v)` is the number of 1 bits of v modulo 2 (R8). -/
theorem parity_eq_popcount (v : Word) : parity v = decide (popcount v % 2 = 1) :=
  parityUpTo_eq_popcountUpTo 64 v

theorem bitlenUpTo_le (n : Nat) (v : Word) : bitlenUpTo n v ≤ n := by
  induction n with
  | zero => simp [bitlenUpTo]
  | succ n ih => simp only [bitlenUpTo]; split <;> omega

/-- No bit of v at or above `bitlenUpTo n v`, and below n, is set. -/
theorem getLsbD_of_bitlenUpTo_le (n : Nat) (v : Word) {i : Nat} (hi : bitlenUpTo n v ≤ i) (hn : i < n) :
    v.getLsbD i = false := by
  induction n with
  | zero => omega
  | succ n ih =>
    simp only [bitlenUpTo] at hi
    split at hi
    · omega
    · rename_i h
      rcases Nat.lt_succ_iff_lt_or_eq.mp hn with h' | rfl
      · exact ih hi h'
      · simpa using h

theorem bitlen_le (v : Word) : bitlen v ≤ 64 := bitlenUpTo_le 64 v

/-- R7: `v < 2^bitlen(v)`. -/
theorem toNat_lt_two_pow_bitlen (v : Word) : v.toNat < 2 ^ bitlen v := by
  apply Nat.lt_pow_two_of_testBit
  intro i hi
  by_cases h : i < 64
  · exact getLsbD_of_bitlenUpTo_le 64 v hi h
  · exact BitVec.getLsbD_of_ge v i (Nat.le_of_not_lt h)

theorem bitlenUpTo_pos_bit (n : Nat) (v : Word) (h : 0 < bitlenUpTo n v) :
    v.getLsbD (bitlenUpTo n v - 1) = true := by
  induction n with
  | zero => simp [bitlenUpTo] at h
  | succ n ih =>
    simp only [bitlenUpTo] at h ⊢
    split
    · rename_i hb; simpa using hb
    · rename_i hb
      rw [if_neg hb] at h
      exact ih h

/-- R7: `2^(bitlen(v)-1) <= v` for v > 0. -/
theorem two_pow_bitlen_le (v : Word) (h : v ≠ 0#64) : 1 ≤ bitlen v ∧ 2 ^ (bitlen v - 1) ≤ v.toNat := by
  have hpos : 0 < bitlen v := by
    rcases Nat.eq_zero_or_pos (bitlen v) with h0 | h0
    · have := toNat_lt_two_pow_bitlen v
      rw [h0] at this
      exact absurd (BitVec.eq_of_toNat_eq (by simpa using this)) h
    · exact h0
  exact ⟨hpos, Nat.ge_two_pow_of_testBit (bitlenUpTo_pos_bit 64 v hpos)⟩

/-- R7 determines `bitlen`. -/
theorem bitlen_unique (v : Word) {m : Nat} (hm : 1 ≤ m) (hlo : 2 ^ (m - 1) ≤ v.toNat)
    (hhi : v.toNat < 2 ^ m) : bitlen v = m := by
  have hne : v ≠ 0#64 := by
    rintro rfl
    simp at hlo
  obtain ⟨h1, h2⟩ := two_pow_bitlen_le v hne
  have h3 := toNat_lt_two_pow_bitlen v
  have a : bitlen v - 1 < m := (Nat.pow_lt_pow_iff_right (by omega)).mp (Nat.lt_of_le_of_lt h2 hhi)
  have b : m - 1 < bitlen v := (Nat.pow_lt_pow_iff_right (by omega)).mp (Nat.lt_of_le_of_lt hlo h3)
  omega

@[simp] theorem pack_nil (w : Nat) : pack w [] = 0#64 := rfl

/-- `Pack` of one more unit at the end: shift by the unit's width and put it below (R221). -/
theorem pack_append_singleton (w : Nat) (us : List Word) (u : Word) :
    pack w (us ++ [u]) = (pack w us <<< w) ||| u := by
  simp [pack, List.foldl_append]

@[simp] theorem length_stringView (n : Nat) (d : Word) : (stringView n d).length = n := by
  simp [stringView]

/-! ### One step of a slot -/

@[simp] theorem step_empty : Slot.empty.step = none := rfl

@[simp] theorem step_fib (L : BitVec 7) (T r : Word) :
    (Slot.fib L T r).step = some ((fibStep L T r).1, .fib L T (fibStep L T r).2) := rfl

@[simp] theorem step_gal (m : BitVec 7) (P x : Word) :
    (Slot.gal m P x).step = some ((galStep m P x).1, .gal m P (galStep m P x).2) := rfl

/-- A slot can be drawn exactly when it is not EMPTY (R220). -/
theorem step_eq_none_iff (v : Slot) : v.step = none ↔ v = .empty := by
  cases v <;> simp

/-- The output of `FibStep` is the complement of the parity of the tapped bits (R101). -/
theorem fibStep_bit (L : BitVec 7) (T r : Word) : (fibStep L T r).1 = !parity (r &&& T) := by
  simp [fibStep]

/-- The register after `FibStep`, bit by bit: the output enters at bit 0 (R101). -/
theorem getLsbD_fibStep (L : BitVec 7) (T r : Word) (i : Nat) :
    (fibStep L T r).2.getLsbD i =
      if i = 0 then (fibStep L T r).1
      else (decide (i < 64) && r.getLsbD (i - 1) && decide (i < L.toNat)) := by
  rw [fibStep, BitVec.getLsbD_or, getLsbD_truncTo, getLsbD_bitWord, BitVec.getLsbD_shiftLeft]
  rcases Nat.eq_zero_or_pos i with rfl | hi
  · simp
  · have h0 : i ≠ 0 := Nat.pos_iff_ne_zero.mp hi
    have h1 : ¬i < 1 := by omega
    simp [h0, h1]

/-- The output of `GalStep` is the top bit of the retained state (R121). -/
theorem galStep_bit (m : BitVec 7) (P x : Word) : (galStep m P x).1 = x.getLsbD (m.toNat - 1) := rfl

/-- The retained state after `GalStep`, bit by bit (R121). -/
theorem getLsbD_galStep (m : BitVec 7) (P x : Word) (i : Nat) :
    (galStep m P x).2.getLsbD i =
      ((decide (i < 64) && !decide (i < 1) && x.getLsbD (i - 1) && decide (i < m.toNat)) ^^
        ((galStep m P x).1 && P.getLsbD i)) := by
  simp only [galStep, BitVec.getLsbD_xor, getLsbD_truncTo, BitVec.getLsbD_shiftLeft]
  cases x.getLsbD (m.toNat - 1) <;> simp

end Sys2Proof.Machine
end

