-- ==== Sys2Proof/Laws/State.lean ====
section
/-! SUPPORT. The laws of reading a field of the state after an update: one lemma per field per
update, and what a slot reads as after a write. -/

namespace Sys2Proof.Machine

@[simp] theorem setSlot_s0_s0 (s : State) (v : Slot) : (s.setSlot .s0 v).s0 = v := rfl
@[simp] theorem setSlot_s0_s1 (s : State) (v : Slot) : (s.setSlot .s0 v).s1 = s.s1 := rfl
@[simp] theorem setSlot_s0_s2 (s : State) (v : Slot) : (s.setSlot .s0 v).s2 = s.s2 := rfl
@[simp] theorem setSlot_s0_cmb (s : State) (v : Slot) : (s.setSlot .s0 v).cmb = s.cmb := rfl
@[simp] theorem setSlot_s0_port (s : State) (v : Slot) : (s.setSlot .s0 v).port = s.port := rfl
@[simp] theorem setSlot_s0_host (s : State) (v : Slot) : (s.setSlot .s0 v).host = s.host := rfl

@[simp] theorem setSlot_s1_s0 (s : State) (v : Slot) : (s.setSlot .s1 v).s0 = s.s0 := rfl
@[simp] theorem setSlot_s1_s1 (s : State) (v : Slot) : (s.setSlot .s1 v).s1 = v := rfl
@[simp] theorem setSlot_s1_s2 (s : State) (v : Slot) : (s.setSlot .s1 v).s2 = s.s2 := rfl
@[simp] theorem setSlot_s1_cmb (s : State) (v : Slot) : (s.setSlot .s1 v).cmb = s.cmb := rfl
@[simp] theorem setSlot_s1_port (s : State) (v : Slot) : (s.setSlot .s1 v).port = s.port := rfl
@[simp] theorem setSlot_s1_host (s : State) (v : Slot) : (s.setSlot .s1 v).host = s.host := rfl

@[simp] theorem setSlot_s2_s0 (s : State) (v : Slot) : (s.setSlot .s2 v).s0 = s.s0 := rfl
@[simp] theorem setSlot_s2_s1 (s : State) (v : Slot) : (s.setSlot .s2 v).s1 = s.s1 := rfl
@[simp] theorem setSlot_s2_s2 (s : State) (v : Slot) : (s.setSlot .s2 v).s2 = v := rfl
@[simp] theorem setSlot_s2_cmb (s : State) (v : Slot) : (s.setSlot .s2 v).cmb = s.cmb := rfl
@[simp] theorem setSlot_s2_port (s : State) (v : Slot) : (s.setSlot .s2 v).port = s.port := rfl
@[simp] theorem setSlot_s2_host (s : State) (v : Slot) : (s.setSlot .s2 v).host = s.host := rfl

@[simp] theorem setCmb_s0 (s : State) (v : Cmb) : (s.setCmb v).s0 = s.s0 := rfl
@[simp] theorem setCmb_s1 (s : State) (v : Cmb) : (s.setCmb v).s1 = s.s1 := rfl
@[simp] theorem setCmb_s2 (s : State) (v : Cmb) : (s.setCmb v).s2 = s.s2 := rfl
@[simp] theorem setCmb_cmb (s : State) (v : Cmb) : (s.setCmb v).cmb = v := rfl
@[simp] theorem setCmb_port (s : State) (v : Cmb) : (s.setCmb v).port = s.port := rfl
@[simp] theorem setCmb_host (s : State) (v : Cmb) : (s.setCmb v).host = s.host := rfl

@[simp] theorem setPort_s0 (s : State) (v : Port) : (s.setPort v).s0 = s.s0 := rfl
@[simp] theorem setPort_s1 (s : State) (v : Port) : (s.setPort v).s1 = s.s1 := rfl
@[simp] theorem setPort_s2 (s : State) (v : Port) : (s.setPort v).s2 = s.s2 := rfl
@[simp] theorem setPort_cmb (s : State) (v : Port) : (s.setPort v).cmb = s.cmb := rfl
@[simp] theorem setPort_port (s : State) (v : Port) : (s.setPort v).port = v := rfl
@[simp] theorem setPort_host (s : State) (v : Port) : (s.setPort v).host = s.host := rfl

@[simp] theorem setHost_s0 (s : State) (v : HostSide) : (s.setHost v).s0 = s.s0 := rfl
@[simp] theorem setHost_s1 (s : State) (v : HostSide) : (s.setHost v).s1 = s.s1 := rfl
@[simp] theorem setHost_s2 (s : State) (v : HostSide) : (s.setHost v).s2 = s.s2 := rfl
@[simp] theorem setHost_cmb (s : State) (v : HostSide) : (s.setHost v).cmb = s.cmb := rfl
@[simp] theorem setHost_port (s : State) (v : HostSide) : (s.setHost v).port = s.port := rfl
@[simp] theorem setHost_host (s : State) (v : HostSide) : (s.setHost v).host = v := rfl

@[simp] theorem slot_s0 (s : State) : s.slot .s0 = s.s0 := rfl
@[simp] theorem slot_s1 (s : State) : s.slot .s1 = s.s1 := rfl
@[simp] theorem slot_s2 (s : State) : s.slot .s2 = s.s2 := rfl

@[simp] theorem slot_setSlot_same (s : State) (k : SlotId) (v : Slot) : (s.setSlot k v).slot k = v := by
  cases k <;> rfl

theorem slot_setSlot_other (s : State) (v : Slot) {k k' : SlotId} (h : k' ≠ k) :
    (s.setSlot k v).slot k' = s.slot k' := by
  cases k <;> cases k' <;> first | rfl | exact absurd rfl h

@[simp] theorem setSlot_cmb (s : State) (k : SlotId) (v : Slot) : (s.setSlot k v).cmb = s.cmb := by
  cases k <;> rfl

@[simp] theorem setSlot_port (s : State) (k : SlotId) (v : Slot) : (s.setSlot k v).port = s.port := by
  cases k <;> rfl

@[simp] theorem setSlot_host (s : State) (k : SlotId) (v : Slot) : (s.setSlot k v).host = s.host := by
  cases k <;> rfl

@[simp] theorem setSlot_setSlot (s : State) (k : SlotId) (v w : Slot) :
    (s.setSlot k v).setSlot k w = s.setSlot k w := by
  cases k <;> rfl

@[simp] theorem setSlot_slot (s : State) (k : SlotId) : s.setSlot k (s.slot k) = s := by
  cases k <;> rfl

@[simp] theorem slot_setCmb (s : State) (c : Cmb) (k : SlotId) : (s.setCmb c).slot k = s.slot k := by
  cases k <;> rfl

@[simp] theorem slot_setPort (s : State) (p : Port) (k : SlotId) : (s.setPort p).slot k = s.slot k := by
  cases k <;> rfl

@[simp] theorem slot_setHost (s : State) (h : HostSide) (k : SlotId) :
    (s.setHost h).slot k = s.slot k := by
  cases k <;> rfl

@[simp] theorem setPort_setPort (s : State) (p q : Port) : (s.setPort p).setPort q = s.setPort q := rfl

@[simp] theorem setHost_setHost (s : State) (g h : HostSide) : (s.setHost g).setHost h = s.setHost h := rfl

theorem setPort_setHost (s : State) (p : Port) (h : HostSide) :
    (s.setHost h).setPort p = (s.setPort p).setHost h := rfl

theorem setSlot_setPort (s : State) (k : SlotId) (v : Slot) (p : Port) :
    (s.setPort p).setSlot k v = (s.setSlot k v).setPort p := by
  cases k <;> rfl

theorem setSlot_setHost (s : State) (k : SlotId) (v : Slot) (h : HostSide) :
    (s.setHost h).setSlot k v = (s.setSlot k v).setHost h := by
  cases k <;> rfl

/-- Two states with equal fields are equal. -/
theorem State.ext_fields {s t : State} (h0 : s.s0 = t.s0) (h1 : s.s1 = t.s1) (h2 : s.s2 = t.s2)
    (hc : s.cmb = t.cmb) (hp : s.port = t.port) (hh : s.host = t.host) : s = t := by
  cases s; cases t; simp_all

/-! ### Kinds and ownership -/

@[simp] theorem Slot.isEmpty_iff (v : Slot) : v.isEmpty = true ↔ v = .empty := by
  cases v <;> simp [Slot.isEmpty]

theorem Slot.isGal_iff (v : Slot) : v.isGal = true ↔ ∃ m P x, v = .gal m P x := by
  cases v <;> simp [Slot.isGal]

@[simp] theorem Cmb.isNone_iff (c : Cmb) : c.isNone = true ↔ c = .none := by
  cases c <;> simp [Cmb.isNone]

@[simp] theorem Cmb.isGeffe_iff (c : Cmb) : c.isGeffe = true ↔ c = .geffe := by
  cases c <;> simp [Cmb.isGeffe]

/-- With no combiner bound no slot is owned (R27). -/
theorem owned_of_none {s : State} (h : s.cmb = .none) (k : SlotId) : s.owned k = false := by
  simp [State.owned, h, Cmb.ownedSlots]

/-- Ownership depends on CMB alone (R27). -/
theorem owned_congr {s t : State} (h : s.cmb = t.cmb) (k : SlotId) : s.owned k = t.owned k := by
  simp [State.owned, h]

end Sys2Proof.Machine
end

