-- ==== Sys2Proof/Laws/Ops.lean ====
section
/-! SUPPORT. The laws of the shared operations: for each one, everything it can do. Proofs about
commands cite these and do not unfold the operations. -/

namespace Sys2Proof.Machine

/-! ### Responding -/

@[simp] theorem respond_port (st : Status) (d : Word) (s : State) :
    (respond st d s).port = .resp ⟨st.code, d⟩ := rfl

@[simp] theorem respond_s0 (st : Status) (d : Word) (s : State) : (respond st d s).s0 = s.s0 := rfl

@[simp] theorem respond_s1 (st : Status) (d : Word) (s : State) : (respond st d s).s1 = s.s1 := rfl

@[simp] theorem respond_s2 (st : Status) (d : Word) (s : State) : (respond st d s).s2 = s.s2 := rfl

@[simp] theorem respond_cmb (st : Status) (d : Word) (s : State) : (respond st d s).cmb = s.cmb := rfl

@[simp] theorem respond_host (st : Status) (d : Word) (s : State) : (respond st d s).host = s.host := rfl

/-- A raised status changes PORT alone, and its DATA is 0 (R251, R253). -/
theorem raise_eq (st : Status) (s : State) : raise st s = s.setPort (.resp ⟨st.code, 0#64⟩) := rfl

/-- No status of the block has a reserved code (R250). -/
theorem reservedCode_code (st : Status) : reservedCode st.code = false := by cases st <;> decide

/-! ### Checks -/

@[simp] theorem firstFailing_nil : firstFailing [] = none := rfl

@[simp] theorem firstFailing_true (st : Status) (cs : List (Bool × Status)) :
    firstFailing ((true, st) :: cs) = some st := rfl

@[simp] theorem firstFailing_false (st : Status) (cs : List (Bool × Status)) :
    firstFailing ((false, st) :: cs) = firstFailing cs := rfl

/-- No check fails exactly when each of them passes. -/
theorem firstFailing_eq_none_iff (cs : List (Bool × Status)) :
    firstFailing cs = none ↔ ∀ c ∈ cs, c.1 = false := by
  induction cs with
  | nil => simp
  | cons c cs ih => rcases c with ⟨_ | _, st⟩ <;> simp [ih]

theorem guarded_of_some {cs : List (Bool × Status)} {st : Status} (h : firstFailing cs = some st)
    (s : State) (body : State → Answer) : guarded cs s body = .next (raise st s) := by
  simp [guarded, h]

theorem guarded_of_none {cs : List (Bool × Status)} (h : firstFailing cs = none) (s : State)
    (body : State → Answer) : guarded cs s body = body s := by
  simp [guarded, h]

/-- Everything a guarded command can do: raise the first failing status, or run its body. -/
theorem guarded_cases (cs : List (Bool × Status)) (s : State) (body : State → Answer) :
    (∃ st, firstFailing cs = some st ∧ guarded cs s body = .next (raise st s)) ∨
      (firstFailing cs = none ∧ guarded cs s body = body s) := by
  cases h : firstFailing cs with
  | some st => exact .inl ⟨st, rfl, guarded_of_some h s body⟩
  | none => exact .inr ⟨rfl, guarded_of_none h s body⟩

/-! ### Runs -/

@[simp] theorem bind_done {α β : Type} (a : α) (s : State) (f : α → State → Run β) :
    (Run.done a s).bind f = f a s := rfl

@[simp] theorem bind_exhausted {α β : Type} (s : State) (f : α → State → Run β) :
    (Run.exhausted s).bind f = .exhausted s := rfl

@[simp] theorem bind_endless {α β : Type} (f : α → State → Run β) :
    (Run.endless : Run α).bind f = .endless := rfl

@[simp] theorem bind_noSource {α β : Type} (f : α → State → Run β) :
    (Run.noSource : Run α).bind f = .noSource := rfl

/-- A composed run that produces a value produced one in each part. -/
theorem bind_eq_done {α β : Type} {r : Run α} {f : α → State → Run β} {b : β} {t : State} :
    r.bind f = .done b t ↔ ∃ a s, r = .done a s ∧ f a s = .done b t := by
  cases r <;> simp [Run.bind]

/-- A composed run is exhausted in its first part or in its second. -/
theorem bind_eq_exhausted {α β : Type} {r : Run α} {f : α → State → Run β} {t : State} :
    r.bind f = .exhausted t ↔ r = .exhausted t ∨ ∃ a s, r = .done a s ∧ f a s = .exhausted t := by
  cases r <;> simp [Run.bind]

/-- A draw of a slot that steps (R220). -/
theorem draw_of_step {k : SlotId} {s : State} {b : Bool} {v : Slot}
    (h : (s.slot k).step = some (b, v)) : draw k s = .done b (s.setSlot k v) := by
  simp [draw, h]

/-- A draw produces a bit exactly when the slot steps, and changes that slot alone (R220). -/
theorem draw_eq_done {k : SlotId} {s t : State} {b : Bool} :
    draw k s = .done b t ↔ ∃ v, (s.slot k).step = some (b, v) ∧ t = s.setSlot k v := by
  cases h : (s.slot k).step with
  | none => simp [draw, h]
  | some p => simp [draw, h, Prod.ext_iff, eq_comm]

/-- A draw never raises EXHAUSTED. -/
theorem draw_ne_exhausted (k : SlotId) (s t : State) : draw k s ≠ .exhausted t := by
  unfold draw; split <;> simp

/-- A draw always ends. -/
theorem draw_ne_endless (k : SlotId) (s : State) : draw k s ≠ .endless := by
  unfold draw; split <;> simp

/-- A draw has no source exactly when the slot is EMPTY. -/
theorem draw_eq_noSource {k : SlotId} {s : State} : draw k s = .noSource ↔ s.slot k = .empty := by
  rw [← step_eq_none_iff]
  unfold draw
  split <;> simp_all

@[simp] theorem repeatUnit_zero (unit : State → Run Word) (s : State) :
    repeatUnit unit 0 s = .done [] s := rfl

theorem repeatUnit_succ (unit : State → Run Word) (j : Nat) (s : State) :
    repeatUnit unit (j + 1) s =
      (unit s).bind fun u s1 =>
        (repeatUnit unit j s1).bind fun us s2 => .done (u :: us) s2 := rfl

/-- As many units as were asked for. -/
theorem length_of_repeatUnit {unit : State → Run Word} {j : Nat} {s t : State} {us : List Word}
    (h : repeatUnit unit j s = .done us t) : us.length = j := by
  induction j generalizing s t us with
  | zero => simp at h; simp [← h.1]
  | succ j ih =>
    rw [repeatUnit_succ, bind_eq_done] at h
    obtain ⟨u, s1, -, h⟩ := h
    rw [bind_eq_done] at h
    obtain ⟨us', s2, h', h⟩ := h
    simp at h
    simp [← h.1, ih h']

/-- What every unit keeps, a sequence of units keeps: a relation that is reflexive and transitive
and holds from the state before a unit to the state after it. -/
theorem repeatUnit_rel {unit : State → Run Word} (R : State → State → Prop) (hrefl : ∀ s, R s s)
    (htrans : ∀ a b c, R a b → R b c → R a c) (hdone : ∀ s u t, unit s = .done u t → R s t)
    {j : Nat} {s t : State} {us : List Word} (h : repeatUnit unit j s = .done us t) : R s t := by
  induction j generalizing s t us with
  | zero => simp at h; exact h.2 ▸ hrefl s
  | succ j ih =>
    rw [repeatUnit_succ, bind_eq_done] at h
    obtain ⟨u, s1, hu, h⟩ := h
    rw [bind_eq_done] at h
    obtain ⟨us', s2, h', h⟩ := h
    simp at h
    exact htrans _ _ _ (hdone _ _ _ hu) (h.2 ▸ ih h')

/-! ### The end of a command -/

@[simp] theorem finish_done {α : Type} (i : Instr) (s s1 : State) (data : α → Word) (a : α) :
    finish i s data (.done a s1) = .next (respond .ok (data a) s1) := rfl

@[simp] theorem finish_exhausted {α : Type} (i : Instr) (s s1 : State) (data : α → Word) :
    finish i s data (.exhausted s1) = .next (raise .exhausted s1) := rfl

@[simp] theorem finish_endless {α : Type} (i : Instr) (s : State) (data : α → Word) :
    finish i s data .endless = .next (s.setPort (.busy (Command.ofInstr i))) := rfl

@[simp] theorem finish_noSource {α : Type} (i : Instr) (s : State) (data : α → Word) :
    finish i s data .noSource = .fault .drawOnEmptySlot := rfl

/-- Everything the end of a command can do. -/
theorem finish_cases {α : Type} (i : Instr) (s : State) (data : α → Word) (r : Run α) :
    (∃ a s1, r = .done a s1 ∧ finish i s data r = .next (respond .ok (data a) s1)) ∨
      (∃ s1, r = .exhausted s1 ∧ finish i s data r = .next (raise .exhausted s1)) ∨
      (r = .endless ∧ finish i s data r = .next (s.setPort (.busy (Command.ofInstr i)))) ∨
      (r = .noSource ∧ finish i s data r = .fault .drawOnEmptySlot) := by
  cases r <;> simp

/-! ### The retry cap -/

@[simp] theorem capReached_none (z : Nat) : capReached none z = false := rfl

@[simp] theorem capReached_some (K : ℕ+) (z : Nat) :
    capReached (some K) z = true ↔ z = (K : Nat) := by
  simp [capReached]

/-! ### The loops of the shrinking units, pair by pair -/

@[simp] theorem shrinkLoop_zero (cap : Option ℕ+) (z : Nat) (s : State) :
    shrinkLoop cap 0 z s = .endless := rfl

/-- One pair of a shrinking unit (R181). -/
theorem shrinkLoop_succ (cap : Option ℕ+) (fuel z : Nat) (s : State) :
    shrinkLoop cap (fuel + 1) z s =
      (draw .s0 s).bind fun b1 t1 =>
        (draw .s1 t1).bind fun b2 t2 =>
          if b1 then .done (bitWord b2) t2
          else if capReached cap (z + 1) then .exhausted t2
          else shrinkLoop cap fuel (z + 1) t2 := rfl

@[simp] theorem selfShrinkLoop_filled (cap : Option ℕ+) (fuel z : Nat) (acc : Word) (s : State) :
    selfShrinkLoop cap fuel 0 z acc s = .done acc s := by
  cases fuel <;> rfl

@[simp] theorem selfShrinkLoop_zero (cap : Option ℕ+) (pos z : Nat) (acc : Word) (s : State) :
    selfShrinkLoop cap 0 (pos + 1) z acc s = .endless := rfl

/-- One pair of a self-shrinking unit (R201). -/
theorem selfShrinkLoop_succ (cap : Option ℕ+) (fuel pos z : Nat) (acc : Word) (s : State) :
    selfShrinkLoop cap (fuel + 1) (pos + 1) z acc s =
      (draw .s0 s).bind fun d t1 =>
        (draw .s1 t1).bind fun c t2 =>
          if c then selfShrinkLoop cap fuel pos z (acc ||| (bitWord d <<< pos)) t2
          else if capReached cap (z + 1) then .exhausted t2
          else selfShrinkLoop cap fuel (pos + 1) (z + 1) acc t2 := rfl

end Sys2Proof.Machine
end

