-- ==== Sys2Proof/Laws/PerInstr.lean ====
section
/-! SUPPORT. Facts about every command as syntax, one lemma per constructor. -/

namespace Sys2Proof.Laws

/-- The OPC field of an encoded header is the command's opcode (R72). -/
theorem opcOf_encodeHeader (op : Op) (k : SlotId) (n : BitVec 7) :
    opcOf (encodeHeader op k n) = op.opc := by
  have h : ∀ n : BitVec 7, opcOf (encodeHeader op k n) = op.opc := by
    cases op <;> cases k <;> decide +kernel
  exact h n

/-- The number of words of a command whose header is encoded (R71). -/
theorem commandLength_encodeHeader (op : Op) (k : SlotId) (n : BitVec 7) :
    commandLength (encodeHeader op k n) = if op = .cfgFib ∨ op = .cfgGal then 3 else 1 := by
  simp only [commandLength, opcOf_encodeHeader]
  cases op <;> rfl

namespace EncodeLength

/-- R71: a command has as many words as its own header says. -/
def Statement (i : Instr) : Prop :=
  ∃ h ws, encode i = h :: ws ∧ (encode i).length = commandLength h

theorem cfgFib (k : SlotId) (len : BitVec 7) (taps seed : Word) :
    Statement (.cfgFib k len taps seed) :=
  ⟨_, _, rfl, (commandLength_encodeHeader .cfgFib k len).symm⟩

theorem cfgGal (k : SlotId) (poly state : Word) : Statement (.cfgGal k poly state) :=
  ⟨_, _, rfl, (commandLength_encodeHeader .cfgGal k 0#7).symm⟩

theorem srcNext (k : SlotId) : Statement (.srcNext k) :=
  ⟨_, _, rfl, (commandLength_encodeHeader .srcNext k 0#7).symm⟩

theorem srcGetn (k : SlotId) (n : BitVec 7) : Statement (.srcGetn k n) :=
  ⟨_, _, rfl, (commandLength_encodeHeader .srcGetn k n).symm⟩

theorem bindGeffe : Statement .bindGeffe :=
  ⟨_, _, rfl, (commandLength_encodeHeader .bindGeffe .s0 0#7).symm⟩

theorem bindStopgo : Statement .bindStopgo :=
  ⟨_, _, rfl, (commandLength_encodeHeader .bindStopgo .s0 0#7).symm⟩

theorem bindShrink : Statement .bindShrink :=
  ⟨_, _, rfl, (commandLength_encodeHeader .bindShrink .s0 0#7).symm⟩

theorem bindSshrink : Statement .bindSshrink :=
  ⟨_, _, rfl, (commandLength_encodeHeader .bindSshrink .s0 0#7).symm⟩

theorem cmbNext : Statement .cmbNext :=
  ⟨_, _, rfl, (commandLength_encodeHeader .cmbNext .s0 0#7).symm⟩

theorem cmbGetn (n : BitVec 7) : Statement (.cmbGetn n) :=
  ⟨_, _, rfl, (commandLength_encodeHeader .cmbGetn .s0 n).symm⟩

theorem geffeNextAlt : Statement .geffeNextAlt :=
  ⟨_, _, rfl, (commandLength_encodeHeader .geffeNextAlt .s0 0#7).symm⟩

theorem release : Statement .release :=
  ⟨_, _, rfl, (commandLength_encodeHeader .release .s0 0#7).symm⟩

end EncodeLength

end Sys2Proof.Laws
end

