-- ==== Sys2Proof/Laws/Step.lean ====
section
/-! SUPPORT. The laws of the step: what it does in each state of PORT, and what the streams of
Safety.lean are, draw by draw. -/

namespace Sys2Proof.Machine

/-! ### The host's side -/

@[simp] theorem tick_s0 (s : State) : s.tick.s0 = s.s0 := rfl

@[simp] theorem tick_s1 (s : State) : s.tick.s1 = s.s1 := rfl

@[simp] theorem tick_s2 (s : State) : s.tick.s2 = s.s2 := rfl

@[simp] theorem tick_cmb (s : State) : s.tick.cmb = s.cmb := rfl

@[simp] theorem tick_port (s : State) : s.tick.port = s.port := rfl

@[simp] theorem tick_host (s : State) : s.tick.host = s.host.tick := rfl

@[simp] theorem slot_tick (s : State) (k : SlotId) : s.tick.slot k = s.slot k := slot_setHost s _ k

@[simp] theorem tickCommands_nil : tickCommands [] = [] := rfl

@[simp] theorem tickCommands_word (w : Word) (cs : List CommandAction) :
    tickCommands (.word w :: cs) = .word w :: cs := rfl

@[simp] theorem tickCommands_wait (cs : List CommandAction) : tickCommands (.wait :: cs) = cs := rfl

@[simp] theorem tickResponses_nil : tickResponses [] = [] := rfl

@[simp] theorem tickResponses_take (ts : List ResponseAction) :
    tickResponses (.take :: ts) = .take :: ts := rfl

@[simp] theorem tickResponses_wait (ts : List ResponseAction) : tickResponses (.wait :: ts) = ts := rfl

/-- A word is presented exactly when it is the first thing the host does on the command port. -/
theorem presented_eq_some_iff (h : HostSide) (w : Word) :
    h.presented = some w ↔ ∃ cs, h.commands = .word w :: cs := by
  unfold HostSide.presented
  split
  · rename_i v cs hc; simp [hc]
  · rename_i hc
    simp only [false_iff, reduceCtorEq]
    rintro ⟨cs, h'⟩
    exact hc w cs h'

/-- The host is ready exactly when a `take` is the first thing it does on the response port. -/
theorem ready_iff (h : HostSide) : h.ready = true ↔ ∃ ts, h.responses = .take :: ts := by
  unfold HostSide.ready
  split
  · rename_i ts hc; simp [hc]
  · rename_i hc
    simp only [false_iff, Bool.false_eq_true]
    rintro ⟨ts, h'⟩
    exact hc ts h'

/-- The host's side after the word it presents has been accepted. -/
theorem tick_sent_of_word {h : HostSide} {w : Word} {cs : List CommandAction}
    (hc : h.commands = .word w :: cs) :
    h.tick.sent = ⟨cs, tickResponses h.responses, h.resets.tail, h.received⟩ := by
  simp [HostSide.tick, HostSide.sent, hc]

/-- The host's side after it has taken a response. -/
theorem tick_took_of_take {h : HostSide} {ts : List ResponseAction} (r : Response)
    (ht : h.responses = .take :: ts) :
    h.tick.took r = ⟨tickCommands h.commands, ts, h.resets.tail, h.received ++ [r]⟩ := by
  simp [HostSide.tick, HostSide.took, ht]

/-! ### The step -/

theorem onWord_of_word {accept : Word → State → State} {s : State} {w : Word}
    (h : s.host.presented = some w) : onWord accept s = accept w (s.setHost s.host.tick.sent) := by
  simp [onWord, h]

theorem onWord_of_none {accept : Word → State → State} {s : State} (h : s.host.presented = none) :
    onWord accept s = s.tick := by
  simp [onWord, h]

/-- Reset wins in every state of PORT. -/
theorem step_of_reset {s : State} (h : s.host.resetAsserted = true) :
    step s = .next (applyReset s.tick) := by
  simp [step, clockStep, h]

/-- Without a reset the step is the port's. -/
theorem step_of_noReset {s : State} (h : s.NoReset) : step s = portStep s := by
  simp [step, clockStep, h]

/-- Everything a step can do, by the state of PORT and what the host does. -/
theorem step_cases (s : State) :
    (s.host.resetAsserted = true ∧ step s = .next (applyReset s.tick)) ∨
    (s.NoReset ∧ ∃ c, s.port = .busy c ∧ step s = runCommand c s.tick) ∨
    (s.NoReset ∧ ∃ w, s.host.presented = some w ∧
      ((s.port = .idle ∧ step s = .next (acceptHeader w (s.setHost s.host.tick.sent))) ∨
        (∃ h, s.port = .collect0 h ∧
          step s = .next ((s.setHost s.host.tick.sent).setPort (.collect1 h w))) ∨
        ∃ h a, s.port = .collect1 h a ∧
          step s = .next ((s.setHost s.host.tick.sent).setPort (.busy ⟨h, [a, w]⟩)))) ∨
    (s.NoReset ∧ ∃ r, s.port = .resp r ∧ s.host.ready = true ∧
      step s = if reservedCode r.status then .fault .reservedStatus
        else .next ((s.setPort .idle).setHost (s.host.tick.took r))) ∨
    (s.NoReset ∧ (∀ c, s.port ≠ .busy c) ∧ step s = .next s.tick) := by
  cases hr : s.host.resetAsserted with
  | true => exact .inl ⟨rfl, step_of_reset hr⟩
  | false =>
    have hs := step_of_noReset (s := s) hr
    refine .inr ?_
    cases hp : s.port with
    | busy c => exact .inl ⟨hr, c, rfl, by rw [hs, portStep, hp]⟩
    | resp r =>
      refine .inr (.inr ?_)
      cases ht : s.host.ready with
      | true => exact .inl ⟨hr, r, rfl, rfl, by rw [hs, portStep, hp]; simp [onResponse, ht]⟩
      | false => exact .inr ⟨hr, by simp, by rw [hs, portStep, hp]; simp [onResponse, ht]⟩
    | idle =>
      cases hw : s.host.presented with
      | none => exact .inr (.inr (.inr ⟨hr, by simp, by rw [hs, portStep, hp]; simp [onWord, hw]⟩))
      | some w =>
        exact .inr (.inl ⟨hr, w, rfl, .inl ⟨rfl, by rw [hs, portStep, hp]; simp [onWord, hw]⟩⟩)
    | collect0 h =>
      cases hw : s.host.presented with
      | none => exact .inr (.inr (.inr ⟨hr, by simp, by rw [hs, portStep, hp]; simp [onWord, hw]⟩))
      | some w =>
        exact .inr (.inl ⟨hr, w, rfl,
          .inr (.inl ⟨h, rfl, by rw [hs, portStep, hp]; simp [onWord, hw]⟩)⟩)
    | collect1 h a =>
      cases hw : s.host.presented with
      | none => exact .inr (.inr (.inr ⟨hr, by simp, by rw [hs, portStep, hp]; simp [onWord, hw]⟩))
      | some w =>
        exact .inr (.inl ⟨hr, w, rfl,
          .inr (.inr ⟨h, a, rfl, by rw [hs, portStep, hp]; simp [onWord, hw]⟩)⟩)

/-! ### Streams -/

@[simp] theorem after_zero (v : Slot) : v.after 0 = v := rfl

@[simp] theorem bits_zero (v : Slot) : v.bits 0 = [] := rfl

theorem after_succ_of_step {v v' : Slot} {b : Bool} (h : v.step = some (b, v')) (n : Nat) :
    v.after (n + 1) = v'.after n := by
  simp [Slot.after, h]

theorem bits_succ_of_step {v v' : Slot} {b : Bool} (h : v.step = some (b, v')) (n : Nat) :
    v.bits (n + 1) = b :: v'.bits n := by
  simp [Slot.bits, h]

@[simp] theorem after_empty (n : Nat) : Slot.empty.after n = .empty := by
  cases n <;> simp [Slot.after]

@[simp] theorem bits_empty (n : Nat) : Slot.empty.bits n = [] := by
  cases n <;> simp [Slot.bits]

/-- A draw leaves what construction fixed (R22, R24). -/
theorem params_of_step {v v' : Slot} {b : Bool} (h : v.step = some (b, v')) : v'.params = v.params := by
  cases v <;> simp at h <;> simp [← h.2, Slot.params]

@[simp] theorem params_after (n : Nat) (v : Slot) : (v.after n).params = v.params := by
  induction n generalizing v with
  | zero => rfl
  | succ n ih =>
    cases h : v.step with
    | none => simp [Slot.after, h]
    | some p =>
      obtain ⟨b, v'⟩ := p
      rw [after_succ_of_step h, ih, params_of_step h]

/-- A slot that can be drawn can still be drawn after a draw. -/
theorem ne_empty_of_step {v v' : Slot} {b : Bool} (h : v.step = some (b, v')) : v' ≠ .empty := by
  cases v <;> simp at h <;> simp [← h.2]

theorem length_bits {v : Slot} (hv : v ≠ .empty) (n : Nat) : (v.bits n).length = n := by
  induction n generalizing v with
  | zero => rfl
  | succ n ih =>
    cases h : v.step with
    | none => exact absurd ((step_eq_none_iff v).mp h) hv
    | some p =>
      obtain ⟨b, v'⟩ := p
      simp [bits_succ_of_step h, ih (ne_empty_of_step h)]

/-- Draws add up. -/
theorem after_add (a b : Nat) (v : Slot) : v.after (a + b) = (v.after a).after b := by
  induction a generalizing v with
  | zero => simp
  | succ a ih =>
    cases h : v.step with
    | none =>
      obtain rfl := (step_eq_none_iff v).mp h
      simp
    | some p =>
      obtain ⟨c, v'⟩ := p
      rw [Nat.succ_add_eq_add_succ, Nat.add_succ, after_succ_of_step h, after_succ_of_step h, ih]

/-- The bits of a + b draws are those of a draws and then those of b more. -/
theorem bits_add (a b : Nat) (v : Slot) : v.bits (a + b) = v.bits a ++ (v.after a).bits b := by
  induction a generalizing v with
  | zero => simp
  | succ a ih =>
    cases h : v.step with
    | none =>
      obtain rfl := (step_eq_none_iff v).mp h
      simp
    | some p =>
      obtain ⟨c, v'⟩ := p
      rw [Nat.succ_add_eq_add_succ, Nat.add_succ, bits_succ_of_step h, bits_succ_of_step h,
        after_succ_of_step h, ih]
      rfl

/-! ### Where a retry cap stops a command -/

/-- No control bit, no stop. -/
theorem not_endsAtCap_nil (w K : Nat) : ¬EndsAtCap w K [] := by
  rintro ⟨j, hj, -⟩
  exact absurd hj (Nat.not_lt_zero j)

/-- The last of the control bits at a stop is 0. -/
theorem getLast?_of_endsAtCap {w K : Nat} {control : List Bool} (h : EndsAtCap w K control) :
    control.getLast? = some false := by
  obtain ⟨j, -, -, -, -, -, hlast⟩ := h
  rw [← List.take_append_drop j control, List.getLast?_append, hlast]
  rfl

/-- A control slot reaches a cap for the first time at one draw only. -/
theorem firstAtCap_unique {w K : Nat} {v : Slot} {p q : Nat} (hp : v.FirstAtCap w K p)
    (hq : v.FirstAtCap w K q) : p = q :=
  Nat.le_antisymm (Nat.le_of_not_lt fun h => hp.2 q h hq.1)
    (Nat.le_of_not_lt fun h => hq.2 p h hp.1)

end Sys2Proof.Machine
end

