-- ==== Sys2Proof/Tests/Slice0.lean ====
section
/-! SUPPORT. The model's own tests. The expected values are those of 95_test_vectors.md and of the
examples in the rules; each test names its source. The witnesses at the end show, for each statement
with hypotheses, concrete values that meet them together. -/

-- One theorem after another: many kernel evaluations at once ask for a thread each.
set_option Elab.async false

namespace Sys2Proof.Tests

open Sys2Proof.Machine

/-! ### Small states -/

/-- Stream A of 95_test_vectors.md, Part L2. -/
def streamA : Slot := .fib 4#7 0xC#64 0x1#64

/-- Stream B. -/
def streamB : Slot := .fib 3#7 0x5#64 0x1#64

/-- Stream C. -/
def streamC : Slot := .gal 4#7 0x9#64 0x1#64

/-- Stream D. -/
def streamD : Slot := .gal 4#7 0xF#64 0x1#64

/-- The Galois register with retained state 0 of V-SHR-4. -/
def zeroGal : Slot := .gal 2#7 0x3#64 0x0#64

/-- A block with these slots and combiner, and nothing on its ports. -/
def block (a b c : Slot) (cmb : Cmb) : State := ⟨a, b, c, cmb, .idle, ⟨[], [], [], []⟩⟩

/-- The block with PORT at `p` and the host about to do these things on its ports. -/
def hosted (s : State) (p : Port) (cs : List CommandAction) (ts : List ResponseAction) : State :=
  (s.setPort p).setHost ⟨cs, ts, [], []⟩

/-- The next state of an answer. -/
def stateOf : Answer → Option State
  | .next t => some t
  | .fault _ => none
  | .refused _ => none

/-- The error of a header, if there is one. -/
def headerError (h : Word) : Option DecodeError :=
  match decodeHeader h with
  | .ok _ => none
  | .error e => some e

/-- The instruction that a list of words is, if it is one. -/
def decoded (ws : List Word) : Option (Instr × List Word) :=
  match decode ws with
  | .ok r => some r
  | .error _ => none

/-! ### Well-formedness: an ill-formed term for each check -/

theorem test_wf_srcGetn_65_refused : (Instr.srcGetn .s0 65#7).wf = false := by decide
theorem test_wf_cmbGetn_65_refused : (Instr.cmbGetn 65#7).wf = false := by decide
theorem test_wf_cfgFib_any_length : (Instr.cfgFib .s0 127#7 0#64 0#64).wf = true := by decide

/-! ### Decoding: one word per constructor, from the layout of R72 and the table of R76 -/

/-- 95, Decode: 0x01000004 is CFG_FIB k = 0, L = 4. -/
theorem test_decode_cfgFib :
    decoded [0x0000000001000004#64, 0xC#64, 0x1#64] = some (.cfgFib .s0 4#7 0xC#64 0x1#64, []) := by
  decide +kernel
/-- 95, P2 line 3. -/
theorem test_decode_cfgGal :
    decoded [0x0000000002800000#64, 0x9#64, 0x1#64] = some (.cfgGal .s2 0x9#64 0x1#64, []) := by
  decide +kernel
/-- 95, Decode: 0x03400000 is SRC_NEXT k = 1. -/
theorem test_decode_srcNext : decoded [0x0000000003400000#64] = some (.srcNext .s1, []) := by
  decide +kernel
/-- 95, Decode: 0x04000040 is SRC_GETN k = 0, n = 64. -/
theorem test_decode_srcGetn : decoded [0x0000000004000040#64] = some (.srcGetn .s0 64#7, []) := by
  decide +kernel
theorem test_decode_bindGeffe : decoded [0x0000000010000000#64] = some (.bindGeffe, []) := by
  decide +kernel
theorem test_decode_bindStopgo : decoded [0x0000000011000000#64] = some (.bindStopgo, []) := by
  decide +kernel
theorem test_decode_bindShrink : decoded [0x0000000012000000#64] = some (.bindShrink, []) := by
  decide +kernel
theorem test_decode_bindSshrink : decoded [0x0000000013000000#64] = some (.bindSshrink, []) := by
  decide +kernel
theorem test_decode_cmbNext : decoded [0x0000000020000000#64] = some (.cmbNext, []) := by
  decide +kernel
/-- 95, Decode: 0x21000040 is CMB_GETN n = 64. -/
theorem test_decode_cmbGetn : decoded [0x0000000021000040#64] = some (.cmbGetn 64#7, []) := by
  decide +kernel
theorem test_decode_geffeNextAlt : decoded [0x0000000022000000#64] = some (.geffeNextAlt, []) := by
  decide +kernel
theorem test_decode_release : decoded [0x0000000030000000#64] = some (.release, []) := by
  decide +kernel

/-- The ILLEGAL_COMMAND rows of 95, Decode, each with its reason. -/
theorem test_decode_rejections :
    headerError 0x0000000000000000#64 = some .reservedOpcode ∧
    headerError 0xFFFFFFFFFFFFFFFF#64 = some .reservedOpcode ∧
    headerError 0x0000000001C00004#64 = some .slotOutOfRange ∧
    headerError 0x0000000002C00000#64 = some .slotOutOfRange ∧
    headerError 0x0000000002000001#64 = some .countNotAllowed ∧
    headerError 0x0000000004000041#64 = some .countNotAllowed ∧
    headerError 0x0000000010400000#64 = some .slotNotZero ∧
    headerError 0x0000000020000001#64 = some .countNotAllowed ∧
    headerError 0x0000000030000080#64 = some .reservedBits ∧
    headerError 0x0000000130000000#64 = some .reservedBits ∧
    headerError 0x0000000030400000#64 = some .slotNotZero ∧
    headerError 0x0000000005000000#64 = some .reservedOpcode := by decide +kernel

/-- 95, Decode: an illegal header with OPC 0x01 or 0x02 is 3 words long, every other one 1 word. -/
theorem test_length_of_illegal_headers :
    commandLength 0x0000000001C00004#64 = 3 ∧ commandLength 0x0000000002000001#64 = 3 ∧
    commandLength 0xFFFFFFFFFFFFFFFF#64 = 1 ∧ commandLength 0x0000000004000041#64 = 1 := by
  decide +kernel

/-- A row of the opcode table with its operand words 0, and with operand words given. -/
theorem test_table_words :
    decodeTableWord 64 0x0000000001000000 = some (.cfgFib .s0 0#7 0#64 0#64) ∧
    decodeTableWord 192 0x000000000000000100000000000000090000000002000000 =
      some (.cfgGal .s0 0x9#64 0x1#64) ∧
    decodeTableWord 32 0x30000000 = some .release ∧
    decodeTableWord 64 0x0000000004000041 = none := by decide +kernel

/-- The first step after the command's bits have been received executes it: here CMB_NEXT of P2
line 10, which finds no combiner. -/
theorem test_fetch_runs :
    stateOf (step (State.reset.withFetchWord 64 0x0000000020000000)) =
      some (State.reset.setPort (.resp ⟨3#4, 0#64⟩)) := by decide +kernel

/-! ### The commands -/

/-- R103, example. -/
theorem test_cfgFib :
    stateOf (exec (.cfgFib .s0 4#7 0xC#64 0x1#64) State.reset) =
      some ((block streamA .empty .empty .none).setPort (.resp ⟨0#4, 0#64⟩)) := by decide +kernel
/-- 95, P6 lines 3 to 5: a tap at L, a seed bit at L, L = 65. -/
theorem test_cfgFib_errors :
    stateOf (exec (.cfgFib .s0 3#7 0x8#64 0x1#64) State.reset) =
      some (State.reset.setPort (.resp ⟨2#4, 0#64⟩)) ∧
    stateOf (exec (.cfgFib .s0 3#7 0x1#64 0x8#64) State.reset) =
      some (State.reset.setPort (.resp ⟨2#4, 0#64⟩)) ∧
    stateOf (exec (.cfgFib .s0 65#7 0x0#64 0x0#64) State.reset) =
      some (State.reset.setPort (.resp ⟨2#4, 0#64⟩)) := by decide +kernel
/-- 95, V-GAL-5: an even POLY is forced odd. -/
theorem test_cfgGal_even :
    stateOf (exec (.cfgGal .s1 0xC#64 0x1#64) State.reset) =
      some ((block .empty (.gal 4#7 0xD#64 0x1#64) .empty .none).setPort (.resp ⟨0#4, 0#64⟩)) := by
  decide +kernel
/-- 95, V-GAL-9 and V-GAL-10: STATE bits above m dropped; m = 64. -/
theorem test_cfgGal_width :
    galRegister 0x9#64 0x31#64 = .gal 4#7 0x9#64 0x1#64 ∧
    galRegister 0x8000000000000001#64 0x8000000000000000#64 =
      .gal 64#7 0x8000000000000001#64 0x8000000000000000#64 := by decide +kernel
/-- R222, example: FIB(4, 0xC, 0x9) gives 0 and 0x2. -/
theorem test_srcNext :
    stateOf (exec (.srcNext .s0) (block (.fib 4#7 0xC#64 0x9#64) .empty .empty .none)) =
      some ((block (.fib 4#7 0xC#64 0x2#64) .empty .empty .none).setPort (.resp ⟨0#4, 0#64⟩)) := by
  decide +kernel
/-- 95, V-GAL-10: bit 63 is the carry out. -/
theorem test_srcNext_width64 :
    stateOf (exec (.srcNext .s2)
        (block .empty .empty (.gal 64#7 0x8000000000000001#64 0x8000000000000000#64) .none)) =
      some ((block .empty .empty (.gal 64#7 0x8000000000000001#64 0x8000000000000001#64)
        .none).setPort (.resp ⟨0#4, 1#64⟩)) := by decide +kernel
/-- 95, V-FIB-12: n = 64 with L = 64. -/
theorem test_srcGetn_64 :
    stateOf (exec (.srcGetn .s0 64#7)
        (block (.fib 64#7 0xD800000000000000#64 0x1#64) .empty .empty .none)) =
      some ((block (.fib 64#7 0xD800000000000000#64 0xFFFFFFFFFFFFFFED#64) .empty .empty
        .none).setPort (.resp ⟨0#4, 0xFFFFFFFFFFFFFFED#64⟩)) := by decide +kernel
/-- 95, V-PIPE-1: the first bit is DATA[7]. -/
theorem test_srcGetn_msb_first :
    (stateOf (exec (.srcGetn .s0 8#7) (block streamC .empty .empty .none))).map (·.port) =
      some (.resp ⟨0#4, 0x1E#64⟩) ∧
    stringView 8 0x1E#64 = [false, false, false, true, true, true, true, false] := by decide +kernel
/-- 95, V-GEF-4: S2 EMPTY. -/
theorem test_bindGeffe :
    stateOf (exec .bindGeffe (block streamA streamB .empty .none)) =
      some ((block streamA streamB .empty .none).setPort (.resp ⟨3#4, 0#64⟩)) ∧
    stateOf (exec .bindGeffe (block streamA streamB streamC .none)) =
      some ((block streamA streamB streamC .geffe).setPort (.resp ⟨0#4, 0#64⟩)) := by decide +kernel
/-- R160, example; 95, P4 line 4. -/
theorem test_bindStopgo :
    stateOf (exec .bindStopgo (block streamB streamA streamC .none)) =
      some ((block (.fib 3#7 0x5#64 0x2#64) (.fib 4#7 0xC#64 0x3#64) (.gal 4#7 0x9#64 0x2#64)
        (.stopgo false true false)).setPort (.resp ⟨0#4, 0#64⟩)) := by decide +kernel
/-- R180, example; 95, P6 line 17. -/
theorem test_bindShrink :
    stateOf (exec .bindShrink (block streamC streamA .empty .none)) =
      some ((block streamC streamA .empty .shrink).setPort (.resp ⟨0#4, 0#64⟩)) ∧
    stateOf (exec .bindShrink (block streamC streamA .empty .shrink)) =
      some ((block streamC streamA .empty .shrink).setPort (.resp ⟨4#4, 0#64⟩)) := by decide +kernel
/-- 95, Priority and V-SS-4: NOT_READY before CONFIG_ERROR. -/
theorem test_bindSshrink :
    (stateOf (exec .bindSshrink (block .empty streamA .empty .none))).map (·.port) =
      some (.resp ⟨3#4, 0#64⟩) ∧
    (stateOf (exec .bindSshrink (block streamA streamA .empty .none))).map (·.port) =
      some (.resp ⟨2#4, 0#64⟩) := by decide +kernel
/-- 95, P4 line 5. -/
theorem test_cmbNext_stopgo :
    stateOf (exec .cmbNext (block (.fib 3#7 0x5#64 0x2#64) (.fib 4#7 0xC#64 0x3#64)
        (.gal 4#7 0x9#64 0x2#64) (.stopgo false true false))) =
      some ((block (.fib 3#7 0x5#64 0x5#64) (.fib 4#7 0xC#64 0x7#64) (.gal 4#7 0x9#64 0x2#64)
        (.stopgo true true false)).setPort (.resp ⟨0#4, 1#64⟩)) := by decide +kernel
/-- 95, V-SS-2, and V-SHR-2: the retry cap. -/
theorem test_cmbNext_exhausted :
    stateOf (cmbNextUnder (some 3) (block streamC streamD .empty .sshrink)) =
      some ((block (.gal 4#7 0x9#64 0x8#64) (.gal 4#7 0xF#64 0x8#64) .empty .sshrink).setPort
        (.resp ⟨5#4, 0#64⟩)) ∧
    stateOf (cmbNextUnder (some 2) (block streamC streamA .empty .shrink)) =
      some ((block (.gal 4#7 0x9#64 0x4#64) (.fib 4#7 0xC#64 0x7#64) .empty .shrink).setPort
        (.resp ⟨5#4, 0#64⟩)) := by decide +kernel
/-- 95, V-SHR-4 and P3b: a control of zeros hangs, and is EXHAUSTED under a cap of 5. -/
theorem test_cmbNext_hang :
    stateOf (cmbNextUnder none (block zeroGal streamA .empty .shrink)) =
      some ((block zeroGal streamA .empty .shrink).setPort (.busy ⟨0x0000000020000000#64, []⟩)) ∧
    stateOf (cmbNextUnder (some 5) (block zeroGal streamA .empty .shrink)) =
      some ((block zeroGal (.fib 4#7 0xC#64 0xB#64) .empty .shrink).setPort (.resp ⟨5#4, 0#64⟩)) := by
  decide +kernel
/-- 95, V-GEF-1. -/
theorem test_cmbGetn_geffe :
    (stateOf (exec (.cmbGetn 12#7) (block streamA streamB streamC .geffe))).map (·.port) =
      some (.resp ⟨0#4, 0x5C7#64⟩) := by decide +kernel
/-- 95, V-SHR-1 and V-SS-1; V-SS-3: an odd n draws nothing. -/
theorem test_cmbGetn_shrinking :
    (stateOf (cmbGetnUnder none 8#7 (block streamC streamA .empty .shrink))).map (·.port) =
      some (.resp ⟨0#4, 0xC1#64⟩) ∧
    (stateOf (cmbGetnUnder none 8#7 (block streamC streamD .empty .sshrink))).map (·.port) =
      some (.resp ⟨0#4, 0xE7#64⟩) ∧
    stateOf (cmbGetnUnder none 3#7 (block streamC streamD .empty .sshrink)) =
      some ((block streamC streamD .empty .sshrink).setPort (.resp ⟨1#4, 0#64⟩)) := by decide +kernel
/-- 95, V-SHR-2, third command: 6 completed units are lost, 10 pairs stay drawn. -/
theorem test_cmbGetn_exhausted :
    stateOf (cmbGetnUnder (some 2) 8#7
        (block (.gal 4#7 0x9#64 0x9#64) (.fib 4#7 0xC#64 0xD#64) .empty .shrink)) =
      some ((block (.gal 4#7 0x9#64 0xC#64) (.fib 4#7 0xC#64 0x0#64) .empty .shrink).setPort
        (.resp ⟨5#4, 0#64⟩)) := by decide +kernel
/-- 95, V-GEF-2: unit 4 draws (1, 0, 1). -/
theorem test_geffeNextAlt :
    stateOf (exec .geffeNextAlt (block (.fib 4#7 0xC#64 0xE#64) (.fib 3#7 0x5#64 0x3#64)
        (.gal 4#7 0x9#64 0x8#64) .geffe)) =
      some ((block (.fib 4#7 0xC#64 0xD#64) (.fib 3#7 0x5#64 0x6#64) (.gal 4#7 0x9#64 0x9#64)
        .geffe).setPort (.resp ⟨0#4, 1#64⟩)) ∧
    (stateOf (geffeNextAltUnder .textbook (block (.fib 4#7 0xC#64 0xE#64) (.fib 3#7 0x5#64 0x3#64)
        (.gal 4#7 0x9#64 0x8#64) .geffe))).map (·.port) = some (.resp ⟨0#4, 0#64⟩) := by
  decide +kernel
/-- 95, V-PIPE-8: S2 is unchanged under SHRINK. -/
theorem test_release :
    stateOf (exec .release (block streamC streamA streamB .shrink)) =
      some ((block .empty .empty streamB .none).setPort (.resp ⟨0#4, 0#64⟩)) := by decide +kernel

/-! ### The step functions -/

/-- 95, V-FIB-8: the pre-period of L = 2, T = {0}; V-FIB-10: bit 63 leaves the register. -/
theorem test_fibStep :
    fibStep 2#7 0x1#64 0x0#64 = (true, 0x1#64) ∧ fibStep 2#7 0x1#64 0x1#64 = (false, 0x2#64) ∧
    fibStep 2#7 0x1#64 0x2#64 = (true, 0x1#64) ∧
    fibStep 64#7 0x8000000000000001#64 0x8000000000000000#64 = (false, 0x0#64) := by decide +kernel
/-- 95, V-GAL-4: mask 2^bitlen, so 0x13 has m = 5 and period 8. -/
theorem test_galStep_period8 :
    (Slot.gal 5#7 0x13#64 0x1#64).bits 8 =
      [false, false, false, false, true, true, true, true] ∧
    (Slot.gal 5#7 0x13#64 0x1#64).after 8 = .gal 5#7 0x13#64 0x1#64 := by decide +kernel
/-- R111: period 15 from seed 0x1, and not before. -/
theorem test_fibonacci_period15 :
    streamA.after 15 = streamA ∧ ∀ j ∈ List.range 14, streamA.after (j + 1) ≠ streamA := by
  decide +kernel
/-- R120: the source's unbounded integer from 0x31 reaches 0x31EB3 (95, V-GAL-9). -/
theorem test_galois_reference : (galRefRun 0x9 0x10 12 0x31).2 = 0x31EB3 := by decide +kernel

/-! ### The port -/

/-- 95, V-RST-2: reset in COLLECT, and the next word is a header. -/
theorem test_reset_in_collect :
    stateOf (step ((State.reset.setPort (.collect1 0x0000000001000004#64 0xC#64)).setHost
        ⟨[.word 0x0000000030000000#64], [], [true], []⟩)) =
      some (hosted State.reset .idle [.word 0x0000000030000000#64] []) := by decide +kernel
/-- R284: the word after a CFG header is an operand, whatever it is. -/
theorem test_operand_word_is_taken :
    stateOf (step (hosted State.reset (.collect0 0x0000000002C00000#64)
        [.word 0x0000000030000000#64] [])) =
      some (hosted State.reset (.collect1 0x0000000002C00000#64 0x0000000030000000#64) [] []) := by
  decide +kernel
/-- R51, R52: a word held back in RESP, the response taken, the word accepted. -/
theorem test_ports_are_independent :
    stateOf (Sys2Proof.core.run 2
        (hosted State.reset (.resp ⟨0#4, 5#64⟩) [.word 0x30000000#64] [.take, .take])) =
      some ((State.reset.setPort (.busy ⟨0x30000000#64, []⟩)).setHost
        ⟨[], [.take], [], [⟨0#4, 5#64⟩]⟩) := by decide +kernel

/-! ### The assembler -/

/-- R81 and R82: the lines of P1 lines 1 and 2, the pseudo-command for the same source, and a refused
slot. -/
theorem test_assemble :
    assemble (.cfgFib 0 4 0xC 0x1) = some [0x0000000001000004#64, 0xC#64, 0x1#64] ∧
    assemble (.srcGetn 0 8) = some [0x0000000004000008#64] ∧
    assemble (.cfgFibSequence 0 [true, false, false, false] [2, 3]) =
      some [0x0000000001000004#64, 0xC#64, 0x1#64] ∧
    assemble (.srcNext 3) = none ∧ assemble (.cfgFibSequence 0 [true] [0, 0]) = none := by
  decide +kernel
/-- R81: `src.getn s0, 0x8 ; c` and a line that is all comment. -/
theorem test_read_line :
    readLine ['s', 'r', 'c', '.', 'g', 'e', 't', 'n', ' ', 's', '0', ',', ' ', '0', 'x', '8', ' ',
      ';', 'c'] = some (some (.srcGetn 0 8)) ∧
    readLine [' ', ';', 'c'] = some none ∧ readLine ['n', 'o', 'p'] = none := by decide +kernel
/-- R82: `cfg.fib s1, seed="1 0", taps=[0, 1]`, with the taps in curly braces. -/
theorem test_read_sequence_form :
    readLine (['c', 'f', 'g', '.', 'f', 'i', 'b', ' ', 's', '1', ',', ' ', 's', 'e', 'e', 'd', '=',
      '"', '1', ' ', '0', '"', ',', ' ', 't', 'a', 'p', 's', '=', openBrace, '0', ',', ' ', '1',
      closeBrace]) = some (some (.cfgFibSequence 1 [true, false] [0, 1])) := by decide +kernel

/-! ### Witnesses: the hypotheses of the statements can be met -/

theorem next_of_stateOf {a : Answer} {t : State} (h : stateOf a = some t) : a = .next t := by
  cases a <;> simp_all [stateOf]

/-- Three streams under a combiner, with nothing on the ports. -/
def bound (cmb : Cmb) : State := block streamA streamB streamC cmb

/-- Two Galois sources, free or under SSHRINK. -/
def twoGalois (cmb : Cmb) : State := block streamC streamD .empty cmb

/-- A Galois register whose next bit is 1. -/
def oneGal : Slot := .gal 4#7 0x9#64 0x8#64

/-- The greatest word. -/
def allOnes : Word := 0xFFFFFFFFFFFFFFFF#64

theorem witness_DecodeOfEncodeIsTheInstruction :
    (Instr.srcGetn .s2 64#7).wf = true ∧ (Instr.cmbGetn 64#7).wf = true ∧
    (Instr.cfgFib .s0 127#7 0#64 0#64).wf = true := by decide

theorem witness_EncodeOfDecodeIsTheWords :
    decode [0x0000000021000040#64, 0#64] = .ok (.cmbGetn 64#7, [0#64]) := by rfl

theorem witness_HeaderDecodeAndIllegalHeaders :
    ∃ (s : State) (h : Word) (ws : List Word) (e : DecodeError),
      decodeHeader h = .error e ∧ s.port = .idle ∧ ws.length + 1 = commandLength h ∧
      s.host.commands = (h :: ws).map CommandAction.word ++ .wait :: [] ∧
      ∀ b ∈ s.host.resets.take (ws.length + 2), b = false :=
  ⟨hosted State.reset .idle
      [.word 0x0000000001C00004#64, .word 0#64, .word 0#64, .wait] [],
    0x0000000001C00004#64, [0#64, 0#64], .slotOutOfRange, rfl, rfl, rfl, rfl, by decide⟩

theorem witness_EveryHeaderIsOneCommandOrIllegal :
    (hosted State.reset .idle [.word 0#64] []).port = .idle ∧
    (hosted State.reset .idle [.word 0#64] []).NoReset ∧
    (hosted State.reset .idle [.word 0#64] []).host.commands = .word 0#64 :: [] ∧
    (0x000000000180007F#64 : Word) &&& Op.maskWord .cfgFib = Op.matchWord .cfgFib := by
  decide +kernel

theorem witness_AssemblerEmitsEncodingsAndRefuses :
    assemble (.word 0xFF) = some [0xFF#64] ∧ 2 ^ 64 - 1 < 2 ^ 64 ∧
    assemble (.cfgFib 2 127 0 (2 ^ 64 - 1)) = some [0x000000000180007F#64, 0#64, allOnes] ∧
    assemble (.cfgGal 2 (2 ^ 64 - 1) 1) = some [0x0000000002800000#64, allOnes, 1#64] ∧
    assemble (.srcNext 2) = some [0x0000000003800000#64] ∧
    assemble (.srcGetn 2 64) = some [0x0000000004800040#64] ∧
    assemble (.cmbGetn 64) = some [0x0000000021000040#64] ∧
    [0, 63].Nodup ∧ (∀ t ∈ [0, 63], t < (List.replicate 64 true).length) ∧
    ¬[1, 1].Nodup ∧ (∃ t ∈ [1], [true].length ≤ t) ∧ 3 ≤ 3 ∧ 128 ≤ 128 ∧ 64 < 65 ∧
    2 ^ 64 ≤ 2 ^ 64 := by
  refine ⟨?_, ?_, ?_, ?_, ?_, ?_, ?_, ?_, ?_, ?_, ?_, ?_, ?_, ?_, ?_⟩ <;> decide +kernel

theorem witness_CommandWordsAreCollectedByLength :
    (hosted State.reset .idle [.word 0x02C00000#64, .word 0#64, .word 1#64] []).port = .idle ∧
    (∀ b ∈ (hosted State.reset .idle [] []).host.resets.take 3, b = false) ∧
    [0#64, 1#64].length + 1 =
      (if opcOf 0x02C00000#64 = 0x01#8 ∨ opcOf 0x02C00000#64 = 0x02#8 then 3 else 1) ∧
    (hosted State.reset .idle [.word 0x02C00000#64, .word 0#64, .word 1#64] []).host.commands =
      [0x02C00000#64, 0#64, 1#64].map CommandAction.word ++ [] ∧
    ([] : List Word).length + 1 =
      (if opcOf 0xFF000000#64 = 0x01#8 ∨ opcOf 0xFF000000#64 = 0x02#8 then 3 else 1) := by
  decide +kernel

theorem witness_StepRunsTheDecodedCommand :
    ∃ (s : State) (c : Command) (i : Instr),
      s.port = .busy c ∧ decodeCommand c = .ok i ∧ s.NoReset :=
  ⟨hosted State.reset (.busy ⟨0x30000000#64, []⟩) [] [], ⟨0x30000000#64, []⟩, .release, rfl, rfl, rfl⟩

theorem witness_StepRunsTheDecodedCommand_wait :
    (hosted State.reset .idle [.wait] [.wait]).host.commands = .wait :: [] ∧
    (hosted State.reset .idle [.wait] [.wait]).host.responses = .wait :: [] ∧
    (hosted State.reset .idle [.word 7#64] [.take]).host.commands = .word 7#64 :: [] ∧
    (hosted State.reset .idle [.word 7#64] [.take]).host.responses = .take :: [] ∧
    (hosted State.reset .idle [] []).host.commands = [] ∧
    (hosted State.reset .idle [] []).host.responses = [] := by decide

theorem witness_WordsAreAcceptedOnlyInIdleAndCollect :
    (hosted State.reset .idle [.word 0#64] [.take]).port = .idle ∧
    (hosted State.reset .idle [.word 0#64] [.take]).NoReset ∧
    (hosted State.reset .idle [.word 0#64] [.take]).host.commands = .word 0#64 :: [] ∧
    (hosted State.reset (.collect0 0x01000000#64) [.word 1#64] []).port = .collect0 0x01000000#64 ∧
    (hosted State.reset (.collect1 0x01000000#64 0#64) [.word 1#64] []).port =
      .collect1 0x01000000#64 0#64 ∧
    (∀ w cs, (hosted State.reset .idle [] []).host.commands ≠ .word w :: cs) ∧
    stateOf (step (hosted State.reset (.busy ⟨0x30000000#64, []⟩) [.word 7#64] [])) =
      some (hosted State.reset (.resp ⟨0#4, 0#64⟩) [.word 7#64] []) ∧
    stateOf (step (hosted State.reset (.resp ⟨0#4, 0#64⟩) [.word 7#64] [])) =
      some (hosted State.reset (.resp ⟨0#4, 0#64⟩) [.word 7#64] []) :=
  ⟨rfl, rfl, rfl, rfl, rfl, (by intro w cs h; cases h), by decide +kernel, by decide +kernel⟩

theorem witness_WordsAreAcceptedOnlyInIdleAndCollect_held :
    (hosted State.reset (.resp ⟨5#4, 0#64⟩) [.word 7#64] [.take]).port = .resp ⟨5#4, 0#64⟩ ∧
    (5#4).toNat ≤ 5 ∧
    (∀ b ∈ (hosted State.reset (.resp ⟨5#4, 0#64⟩) [.word 7#64] [.take]).host.resets.take 2,
      b = false) ∧
    (hosted State.reset (.resp ⟨5#4, 0#64⟩) [.word 7#64] [.take]).host.commands = .word 7#64 :: [] ∧
    (hosted State.reset (.resp ⟨5#4, 0#64⟩) [.word 7#64] [.take]).host.responses = .take :: [] := by
  decide

theorem witness_ResponseIsHeldUntilTaken :
    (hosted State.reset (.resp ⟨5#4, 0#64⟩) [] []).NoReset ∧
    (∀ ts, (hosted State.reset (.resp ⟨5#4, 0#64⟩) [] []).host.responses ≠ .take :: ts) ∧
    (⟨5#4, 0#64⟩ : Response).status.toNat ≤ 5 ∧ 6 ≤ (⟨6#4, 0#64⟩ : Response).status.toNat ∧
    (hosted State.reset (.resp ⟨6#4, 0#64⟩) [] [.take]).host.responses = .take :: [] :=
  ⟨rfl, (by intro ts h; cases h), by decide, by decide, rfl⟩

theorem witness_ResetWinsInEveryPortState :
    ((State.reset.setPort (.busy ⟨0x20000000#64, []⟩)).setHost ⟨[], [], [true], []⟩).host.resets =
      true :: [] := rfl

theorem witness_DataIsOnlyTheReturnedBits :
    exec .cmbNext (bound .geffe) = .next (((bound .geffe).advance 1 1 1).setPort (.resp ⟨0#4, 0#64⟩)) ∧
    exec .bindGeffe State.reset = .next (State.reset.setPort (.resp ⟨3#4, 0#64⟩)) ∧ 3#4 ≠ 0#4 :=
  ⟨next_of_stateOf (by decide +kernel), next_of_stateOf (by decide +kernel), by decide⟩

theorem witness_EveryCommandLeavesOneAllowedResponse :
    exec .cmbNext State.reset = .next (State.reset.setPort (.resp ⟨3#4, 0#64⟩)) :=
  next_of_stateOf (by decide +kernel)

theorem witness_ErrorsArePrecise :
    exec (.srcNext .s1) (bound .geffe) = .next ((bound .geffe).setPort (.resp ⟨4#4, 0#64⟩)) ∧
    4#4 ≠ 0#4 ∧ 4#4 ≠ 5#4 ∧
    (Command.mk 0x02C00000#64 [0#64, 0#64]).complete = true ∧
    decodeCommand ⟨0x02C00000#64, [0#64, 0#64]⟩ = .error .slotOutOfRange ∧
    (hosted State.reset (.busy ⟨0x02C00000#64, [0#64, 0#64]⟩) [] []).NoReset :=
  ⟨next_of_stateOf (by decide +kernel), by decide, by decide, by decide +kernel, rfl, rfl⟩

theorem witness_FirstFailingCheckIsReported :
    expectedError (.cfgFib .s0 0#7 0#64 0#64) (bound .shrink) = some 4#4 ∧
    expectedError (.cmbGetn 3#7) State.reset = some 3#4 ∧
    expectedError (.cmbGetn 64#7) (bound .geffe) = none ∧
    (stateOf (exec (.cmbGetn 64#7) (bound .geffe))).isSome = true := by decide +kernel

theorem witness_SlotCommandsChangeOnlyTheirSlot :
    exec (.srcNext .s0) (bound .none) =
      .next (((bound .none).advance 1 0 0).setPort (.resp ⟨0#4, 1#64⟩)) ∧ SlotId.s1 ≠ .s0 :=
  ⟨next_of_stateOf (by decide +kernel), by decide⟩

theorem witness_BindsAndReleaseKeepTheOtherState :
    exec .bindStopgo (bound .none) =
      .next ((((bound .none).advance 1 1 1).setCmb (.stopgo true false false)).setPort
        (.resp ⟨0#4, 0#64⟩)) ∧
    exec .bindShrink (bound .none) = .next ((bound .shrink).setPort (.resp ⟨0#4, 0#64⟩)) ∧
    exec .release (bound .shrink) =
      .next ((block .empty .empty streamC .none).setPort (.resp ⟨0#4, 0#64⟩)) ∧
    (bound .shrink).owned .s2 = false :=
  ⟨next_of_stateOf (by decide +kernel), next_of_stateOf (by decide +kernel),
    next_of_stateOf (by decide +kernel), by decide⟩

theorem witness_CombinerCommandsOnlyDrawOwnedSlots :
    exec .cmbNext (block oneGal streamA streamB .shrink) =
      .next (((block oneGal streamA streamB .shrink).advance 1 1 0).setPort (.resp ⟨0#4, 1#64⟩)) ∧
    (block oneGal streamA streamB .shrink).owned .s2 = false ∧
    (block oneGal streamA streamB .shrink).cmb.kindNumber ≠ 2 :=
  ⟨next_of_stateOf (by decide +kernel), by decide, by decide⟩

theorem witness_StepKeepsTheInvariant :
    ((bound .geffe).setPort (.busy ⟨0x20000000#64, []⟩)).Inv ∧
    step ((bound .geffe).setPort (.busy ⟨0x20000000#64, []⟩)) =
      .next (((bound .geffe).advance 1 1 1).setPort (.resp ⟨0#4, 0#64⟩)) :=
  ⟨by decide +kernel, next_of_stateOf (by decide +kernel)⟩

theorem witness_InvariantStatesNeverStop :
    (block streamC streamD streamA .sshrink).Inv ∧ (bound (.stopgo true false true)).Inv := by
  decide +kernel

theorem witness_FibStepIsTheSourceAlgorithm :
    1 ≤ (64#7).toNat ∧ (64#7).toNat ≤ 64 ∧ allOnes.toNat < 2 ^ (64#7).toNat ∧
    1 ≤ (1#7).toNat ∧ (1#64).toNat < 2 ^ (1#7).toNat := by decide

theorem witness_ZeroFibonacciSeedIsNotAFixedPoint :
    State.reset.owned .s0 = false ∧ 1 ≤ (64#7).toNat ∧ (64#7).toNat ≤ 64 ∧
    allOnes >>> (64#7).toNat = 0#64 ∧ (1#64) >>> (1#7).toNat = 0#64 := by decide +kernel

theorem witness_EmptyTapSetOutputsOnes :
    1 ≤ (3#7).toNat ∧ (3#7).toNat ≤ 64 ∧ (5#64).toNat < 2 ^ (3#7).toNat := by decide

/-- 95, V-FIB-7. -/
theorem witness_FibonacciFixedPoints :
    1 ≤ (5#7).toNat ∧ (5#7).toNat ≤ 64 ∧ (0x12#64).toNat < 2 ^ (5#7).toNat ∧
    (0x1F#64).toNat < 2 ^ (5#7).toNat ∧ (fibStep 5#7 0x12#64 0x1F#64).2 = 0x1F#64 := by
  decide +kernel

theorem witness_FibonacciZeroRunsAreBounded :
    1 ≤ (4#7).toNat ∧ (4#7).toNat ≤ 64 ∧ (0xC#64).toNat < 2 ^ (4#7).toNat ∧
    (0x1#64).toNat < 2 ^ (4#7).toNat := by decide

theorem witness_FibStepIsBijectiveIffTopTap :
    1 ≤ (2#7).toNat ∧ (2#7).toNat ≤ 64 ∧ (0x1#64).toNat < 2 ^ (2#7).toNat ∧
    (0x2#64).toNat < 2 ^ (2#7).toNat := by decide

/-- One set of operands for each clause: an owned slot, L = 0 and L = 65, a tap and a seed bit at L,
and L = 64 with every bit set. -/
theorem witness_CfgFibFollowsItsPseudocode :
    (bound .shrink).owned .s1 = true ∧ (bound .shrink).owned .s2 = false ∧
    (0#7).toNat = 0 ∧ 64 < (65#7).toNat ∧ (1 ≤ (1#7).toNat ∧ (1#7).toNat ≤ 64) ∧
    (2#64) >>> (1#7).toNat ≠ 0#64 ∧ (1#64) >>> (1#7).toNat = 0#64 ∧
    (64#7).toNat ≤ 64 ∧ allOnes >>> (64#7).toNat = 0#64 := by decide +kernel

theorem witness_GalStepRefinesTheSourceAlgorithm :
    1 ≤ (64#7).toNat ∧ (64#7).toNat ≤ 64 ∧ allOnes.toNat < 2 ^ (64#7).toNat ∧
    1 ≤ (4#7).toNat ∧ (0x9#64).toNat < 2 ^ (4#7).toNat := by decide

theorem witness_GalStepIsInvertible :
    1 ≤ (64#7).toNat ∧ (64#7).toNat ≤ 64 ∧ allOnes.toNat < 2 ^ (64#7).toNat ∧
    allOnes.getLsbD 0 = true ∧ (1#64).toNat < 2 ^ (1#7).toNat ∧ (1#64).getLsbD 0 = true := by
  decide +kernel

theorem witness_GaloisZeroRunsAreBounded :
    1 ≤ (4#7).toNat ∧ (4#7).toNat ≤ 64 ∧ (0x9#64).toNat < 2 ^ (4#7).toNat ∧
    (0x9#64).getLsbD 0 = true ∧ (0x1#64).toNat < 2 ^ (4#7).toNat ∧ 0x1#64 ≠ 0#64 := by decide

/-- 95, V-GAL-8: POLY 0x3, STATE 0x4, m = 2. -/
theorem witness_ZeroRetainedStateOutputsZeros :
    State.reset.owned .s0 = false ∧ 2 ^ (2 - 1) ≤ (0x3#64).toNat ∧ (0x3#64).toNat < 2 ^ 2 ∧
    0x4#64 ≠ 0#64 ∧ (0x4#64).toNat % 2 ^ 2 = 0 := by decide

/-- One set of operands for each clause: an owned slot, POLY = 0 and STATE = 0, m = 1 and m = 64. -/
theorem witness_CfgGalFollowsItsPseudocode :
    (bound .shrink).owned .s0 = true ∧ (bound .shrink).owned .s2 = false ∧ 1#64 ≠ 0#64 ∧
    (2 ^ (1 - 1) ≤ (1#64).toNat ∧ (1#64).toNat < 2 ^ 1) ∧
    (2 ^ (64 - 1) ≤ allOnes.toNat ∧ allOnes.toNat < 2 ^ 64) := by decide

theorem witness_EvenPolynomialMakesTheOddRegister :
    State.reset.owned .s0 = false ∧ 0xC#64 ≠ 0#64 ∧ 0x1#64 ≠ 0#64 ∧ (0xC#64).getLsbD 0 = false := by
  decide

/-- One state for each clause: a combiner bound, an EMPTY slot, all three filled, a Fibonacci source
under BIND_SSHRINK, two Galois sources. -/
theorem witness_BindsFollowTheirPseudocode :
    (bound .geffe).cmb ≠ .none ∧ (twoGalois .none).cmb = .none ∧ (twoGalois .none).s2 = .empty ∧
    (twoGalois .none).s0 ≠ .empty ∧ (twoGalois .none).s1 ≠ .empty ∧
    (twoGalois .none).s0.isGal = true ∧ (twoGalois .none).s1.isGal = true ∧
    (bound .none).s0 ≠ .empty ∧ (bound .none).s1 ≠ .empty ∧ (bound .none).s2 ≠ .empty ∧
    (bound .none).s0.isGal = false ∧ (block .empty streamA .empty .none).s0 = .empty := by decide

theorem witness_GeffeEntryPointsDrawOneTriple :
    (bound .shrink).cmb ≠ .geffe ∧ (bound .geffe).cmb = .geffe ∧
    (bound .geffe).s0.next? = some true ∧ (bound .geffe).s1.next? = some false ∧
    (bound .geffe).s2.next? = some false := by decide +kernel

theorem witness_GeffeGetnCombinesThreeStreams :
    (bound .geffe).cmb = .geffe ∧ (bound .geffe).s0 ≠ .empty ∧ (bound .geffe).s1 ≠ .empty ∧
    (bound .geffe).s2 ≠ .empty ∧ (64#7).toNat ≤ 64 := by decide

theorem witness_BindStopgoLatchesThreeBits :
    (bound .geffe).cmb ≠ .none ∧ (twoGalois .none).cmb = .none ∧ (twoGalois .none).s2 = .empty ∧
    (bound .none).cmb = .none ∧ (bound .none).s0.next? = some true ∧
    (bound .none).s1.next? = some false ∧ (bound .none).s2.next? = some false := by decide +kernel

/-- A control bit of 1 and one of 0. -/
theorem witness_StopGoUnitClocksOneSource :
    ((bound (.stopgo true false true)).s0.next? = some true ∧
      (bound (.stopgo true false true)).s1.next? = some false) ∧
    ((block streamB streamA streamC (.stopgo true false true)).s0.next? = some false ∧
      (block streamB streamA streamC (.stopgo true false true)).s2.next? = some false) := by
  decide +kernel

theorem witness_StopGoClockingPattern :
    (bound (.stopgo true false true)).cmb = .stopgo true false true ∧
    (bound (.stopgo true false true)).s0 ≠ .empty ∧ (bound (.stopgo true false true)).s1 ≠ .empty ∧
    (bound (.stopgo true false true)).s2 ≠ .empty ∧ (64#7).toNat ≤ 64 := by decide

/-- The control bit 1 comes first, which every cap allows; and a control of zeros under a cap of 5. -/
theorem witness_ShrinkUnitReturnsTheFirstKeptBit :
    ((block oneGal streamA .empty .shrink).s0.bits (0 + 1) = List.replicate 0 false ++ [true] ∧
      ((block oneGal streamA .empty .shrink).s1.bits (0 + 1)).getLast? = some true ∧
      ∀ K : ℕ+, Config.retryCap = some K → 0 < (K : Nat)) ∧
    ((block zeroGal streamA .empty .shrink).s1 ≠ .empty ∧
      (block zeroGal streamA .empty .shrink).s0.bits ((5 : ℕ+) : Nat) =
        List.replicate ((5 : ℕ+) : Nat) false) :=
  ⟨⟨by decide +kernel, by decide +kernel, fun K _ => K.pos⟩, by decide +kernel, by decide +kernel⟩

/-- A Fibonacci control, a Galois control with a nonzero state, and one with state 0. -/
theorem witness_ShrinkHangsExactlyOnAZeroGaloisControl :
    (bound .shrink).Inv ∧ (twoGalois .shrink).Inv ∧ (block zeroGal streamA .empty .shrink).Inv ∧
    (bound .shrink).s0 = .fib 4#7 0xC#64 0x1#64 ∧ (twoGalois .shrink).s0 = .gal 4#7 0x9#64 0x1#64 ∧
    0x1#64 ≠ 0#64 ∧ (block zeroGal streamA .empty .shrink).s0 = .gal 2#7 0x3#64 0#64 := by
  decide +kernel

/-- Two control bits of 1 in two pairs, which every cap allows: POLY 0x3 from state 0x2 gives 1, 1;
and three control bits of 0 under a cap of 3. -/
theorem witness_SelfShrinkUnitKeepsTwoBits :
    (decimate ((block streamC (.gal 2#7 0x3#64 0x2#64) .empty .sshrink).s1.bits 2)
        ((block streamC (.gal 2#7 0x3#64 0x2#64) .empty .sshrink).s0.bits 2) = [false, false] ∧
      ((block streamC (.gal 2#7 0x3#64 0x2#64) .empty .sshrink).s1.bits 2).getLast? = some true ∧
      ∀ K : ℕ+, Config.retryCap = some K →
        ((block streamC (.gal 2#7 0x3#64 0x2#64) .empty .sshrink).s1.bits 2).count false < (K : Nat)) ∧
    ((twoGalois .sshrink).s0 ≠ .empty ∧ ((twoGalois .sshrink).s1.bits 3).count true < 2 ∧
      ((twoGalois .sshrink).s1.bits 3).count false = ((3 : ℕ+) : Nat) ∧
      ((twoGalois .sshrink).s1.bits 3).getLast? = some false) := by
  refine ⟨⟨by decide +kernel, by decide +kernel, fun K _ => ?_⟩, by decide +kernel⟩
  have h : ((block streamC (.gal 2#7 0x3#64 0x2#64) .empty .sshrink).s1.bits 2).count false = 0 := by
    decide +kernel
  rw [h]
  exact K.pos

theorem witness_SelfShrinkHangsExactlyOnAZeroControl :
    (twoGalois .sshrink).Inv ∧ (twoGalois .sshrink).s1 = .gal 4#7 0xF#64 0x1#64 ∧ 0x1#64 ≠ 0#64 ∧
    (block streamC zeroGal .empty .sshrink).Inv := by decide +kernel

theorem witness_UncappedGetnAnswersUnlessControlIsZero :
    (bound .shrink).Inv ∧ (∀ m P, (bound .shrink).s0 ≠ .gal m P 0#64) ∧
    (twoGalois .sshrink).Inv ∧ (∀ m P, (twoGalois .sshrink).s1 ≠ .gal m P 0#64) ∧
    (64#7).toNat ≤ 64 ∧ (64#7).toNat % 2 = 0 := by
  refine ⟨by decide +kernel, ?_, by decide +kernel, ?_, by decide, by decide⟩ <;>
    intro m P h <;> simp [bound, twoGalois, block, streamA, streamD] at h

/-- 95, V-SHR-1 and V-SS-1. -/
theorem witness_ShrinkingGetnIsDecimation :
    (∃ t, cmbGetnUnder none 8#7 (block streamC streamA .empty .shrink) = .next t ∧
      t.port = .resp ⟨0#4, 0xC1#64⟩) ∧
    ∃ t, cmbGetnUnder none 8#7 (twoGalois .sshrink) = .next t ∧ t.port = .resp ⟨0#4, 0xE7#64⟩ :=
  ⟨⟨((block streamC streamA .empty .shrink).advance 15 15 0).setPort (.resp ⟨0#4, 0xC1#64⟩),
      next_of_stateOf (by decide +kernel), rfl⟩,
    ⟨((twoGalois .sshrink).advance 20 20 0).setPort (.resp ⟨0#4, 0xE7#64⟩),
      next_of_stateOf (by decide +kernel), rfl⟩⟩

theorem witness_ShrinkingGetnIsDecimation_none :
    ∃ t, cmbGetnUnder none 0#7 (twoGalois .sshrink) = .next t ∧ t.port = .resp ⟨0#4, 0#64⟩ :=
  ⟨(twoGalois .sshrink).setPort (.resp ⟨0#4, 0#64⟩), next_of_stateOf (by decide +kernel), rfl⟩

/-- The control of streamD is 0, 0, 0, 1, 1, 0, 0, 0, ... (95, Part L2). -/
theorem witness_ExhaustedKeepsTheDraws :
    cmbNextUnder (some 3) (twoGalois .sshrink) =
      .next (((twoGalois .sshrink).advance 3 3 0).setPort (.resp ⟨5#4, 0#64⟩)) :=
  next_of_stateOf (by decide +kernel)

/-- Stream C from its fifth bit on: 1 1 1 0 1 0 1 1 0 0 1 0 0 0, ... (95, Part L2). -/
def streamC5 : Slot := .gal 4#7 0x9#64 0x9#64

/-- The first run of three zeros ends at the 14th bit, after seven ones. -/
theorem witness_ExhaustedKeepsTheDraws_shrink :
    (block streamC5 streamA .empty .shrink).CapStopsAt 3 8 14 ∧
    (block streamC5 streamA .empty .shrink).s0 ≠ .empty ∧
    (block streamC5 streamA .empty .shrink).s1 ≠ .empty := by decide +kernel

/-- The first unit needs five pairs and three control zeros, the second as many: the cap is reached
at the third pair. -/
theorem witness_ExhaustedKeepsTheDraws_sshrink :
    (twoGalois .sshrink).CapStopsAt 3 2 3 ∧ (twoGalois .sshrink).s0 ≠ .empty ∧
    (twoGalois .sshrink).s1 ≠ .empty ∧ (2#7).toNat % 2 = 0 := by decide +kernel

theorem witness_HungCommandStaysBusyUntilReset :
    ((block zeroGal streamA .empty .shrink).setPort (.busy (Command.ofInstr .cmbNext))).NoReset ∧
    ((block zeroGal streamA .empty .shrink).setPort (.busy (Command.ofInstr .cmbNext))).s0 =
      .gal 2#7 0x3#64 0#64 ∧
    ((block zeroGal streamA .empty .shrink).setPort (.busy (Command.ofInstr .cmbNext))).s1 ≠ .empty ∧
    ((block streamC zeroGal .empty .sshrink).setPort
      (.busy (Command.ofInstr (.cmbGetn 2#7)))).NoReset ∧
    ((block streamC zeroGal .empty .sshrink).setPort (.busy (Command.ofInstr (.cmbGetn 2#7)))).s1 =
      .gal 2#7 0x3#64 0#64 ∧ 2 ≤ (2#7).toNat ∧ (2#7).toNat % 2 = 0 :=
  ⟨rfl, by decide, by decide, rfl, by decide, by decide, by decide⟩

theorem witness_FreeSlotIsIndependentOfTheCombiner :
    (bound .shrink).cmb = .shrink ∧ (twoGalois .sshrink).cmb = .sshrink := by decide

theorem witness_SrcNextFollowsItsPseudocode :
    (bound .geffe).owned .s2 = true ∧
    (State.reset.owned .s1 = false ∧ State.reset.slot .s1 = .empty) ∧
    ((bound .none).owned .s0 = false ∧ ((bound .none).slot .s0).next? = some true) := by
  decide +kernel

theorem witness_SrcGetnReturnsTheStream :
    (64#7).toNat ≤ 64 ∧ (bound .geffe).owned .s2 = true ∧
    (State.reset.owned .s1 = false ∧ State.reset.slot .s1 = .empty) ∧
    ((bound .none).owned .s0 = false ∧ (bound .none).slot .s0 ≠ .empty) := by decide

theorem witness_ReleaseEmptiesTheOwnedSlots : State.reset.cmb = .none := rfl

theorem witness_CmbCommandsHaveTheirWordsAndChecks :
    State.reset.cmb = .none ∧ (64#7).toNat ≤ 64 ∧ (twoGalois .sshrink).cmb = .sshrink ∧
    (63#7).toNat % 2 = 1 ∧ (bound .geffe).cmb ≠ .none ∧ (0#7).toNat = 0 := by decide

end Sys2Proof.Tests
end

section
/-! PROOFS of the family 10_state.md: what each shared operation can reach, one statement of what a
command can change, and from it the frames and the invariant. -/

namespace Sys2Proof.Machine

/-! ### What a run can end in -/

/-- Every state the run ends in satisfies `Q`, with a value or by EXHAUSTED. -/
def Run.Ends {α : Type} (r : Run α) (Q : State → Prop) : Prop :=
  match r with
  | .done _ t => Q t
  | .exhausted t => Q t
  | .endless => True
  | .noSource => True

@[simp] theorem ends_done {α : Type} (a : α) (t : State) (Q : State → Prop) :
    (Run.done a t).Ends Q ↔ Q t := Iff.rfl

@[simp] theorem ends_exhausted {α : Type} (t : State) (Q : State → Prop) :
    (Run.exhausted t : Run α).Ends Q ↔ Q t := Iff.rfl

@[simp] theorem ends_endless {α : Type} (Q : State → Prop) : (Run.endless : Run α).Ends Q := trivial

@[simp] theorem ends_noSource {α : Type} (Q : State → Prop) : (Run.noSource : Run α).Ends Q := trivial

theorem Run.Ends.mono {α : Type} {r : Run α} {P Q : State → Prop} (h : r.Ends P)
    (hPQ : ∀ t, P t → Q t) : r.Ends Q := by
  cases r with
  | done a t => exact hPQ t h
  | exhausted t => exact hPQ t h
  | endless => trivial
  | noSource => trivial

/-- Where a composed run ends: the first part keeps `Q` or ends in it, and the second keeps it. -/
theorem Run.Ends.bind {α β : Type} {r : Run α} {f : α → State → Run β} {Q : State → Prop}
    (hr : r.Ends Q) (hf : ∀ a t, Q t → (f a t).Ends Q) : (r.bind f).Ends Q := by
  cases r with
  | done a t => exact hf a t hr
  | exhausted t => exact hr
  | endless => trivial
  | noSource => trivial

/-- A reflexive and transitive relation that every unit keeps is kept by a sequence of units, also
where EXHAUSTED cuts it short. -/
theorem repeatUnit_ends {unit : State → Run Word} {R : State → State → Prop} (hrefl : ∀ s, R s s)
    (htrans : ∀ a b c, R a b → R b c → R a c) (hunit : ∀ s, (unit s).Ends (R s)) (j : Nat)
    (s : State) : (repeatUnit unit j s).Ends (R s) := by
  induction j generalizing s with
  | zero => exact hrefl s
  | succ j ih =>
    rw [repeatUnit_succ]
    refine (hunit s).bind fun u t ht => Run.Ends.bind ?_ fun us t' ht' => ht'
    exact (ih t).mono fun t' ht' => htrans s t t' ht ht'

/-! ### Draws -/

/-- From s to t some slots among `ks` have been drawn, nothing else has changed in the slots or on
the host's side, and CMB has gone from one value to another as `R` says. -/
structure Drawn (ks : List SlotId) (R : Cmb → Cmb → Prop) (s t : State) : Prop where
  after : ∀ k, ∃ j, t.slot k = (s.slot k).after j
  free : ∀ k, k ∉ ks → t.slot k = s.slot k
  cmb : R s.cmb t.cmb
  host : t.host = s.host

/-- CMB has the kind it had, and changes at all only under STOPGO (R26). -/
def SameKind (c d : Cmb) : Prop := d.kindNumber = c.kindNumber ∧ (c.kindNumber ≠ 2 → d = c)

/-- Three bits are latched under STOPGO (R160, R161). -/
def Latches (_ d : Cmb) : Prop := ∃ b1 b2 b3, d = .stopgo b1 b2 b3

theorem SameKind.refl (c : Cmb) : SameKind c c := ⟨rfl, fun _ => rfl⟩

theorem SameKind.trans {c d e : Cmb} (h : SameKind c d) (h' : SameKind d e) : SameKind c e := by
  obtain ⟨hk, heq⟩ := h
  obtain ⟨hk', heq'⟩ := h'
  exact ⟨hk'.trans hk, fun hc => (heq' (hk ▸ hc)).trans (heq hc)⟩

theorem eq_stopgo_of_kindNumber {c : Cmb} (h : c.kindNumber = 2) :
    ∃ b1 b2 b3, c = .stopgo b1 b2 b3 := by
  cases c <;> cases h
  exact ⟨_, _, _, rfl⟩

/-- The kind of the combiner says which slots it owns (R27). -/
theorem SameKind.ownedSlots_eq {c d : Cmb} (h : SameKind c d) : d.ownedSlots = c.ownedSlots := by
  obtain ⟨hk, heq⟩ := h
  by_cases hc : c.kindNumber = 2
  · obtain ⟨b1, b2, b3, rfl⟩ := eq_stopgo_of_kindNumber hc
    obtain ⟨c1, c2, c3, rfl⟩ := eq_stopgo_of_kindNumber hk
    rfl
  · rw [heq hc]

/-- Only SSHRINK has its kind. -/
theorem SameKind.eq_sshrink {c : Cmb} (h : SameKind c .sshrink) : c = .sshrink := by
  obtain ⟨hk, heq⟩ := h
  exact (heq (by rw [← hk]; decide)).symm

section
variable {ks : List SlotId} {R : Cmb → Cmb → Prop} {s t u : State}

theorem Drawn.refl (ks : List SlotId) (hR : R s.cmb s.cmb) : Drawn ks R s s :=
  ⟨fun _ => ⟨0, rfl⟩, fun _ _ => rfl, hR, rfl⟩

theorem Drawn.trans {S T : Cmb → Cmb → Prop} (h : Drawn ks R s t) (h' : Drawn ks S t u)
    (hT : R s.cmb t.cmb → S t.cmb u.cmb → T s.cmb u.cmb) : Drawn ks T s u where
  after k := by
    obtain ⟨i, hi⟩ := h.after k
    obtain ⟨j, hj⟩ := h'.after k
    exact ⟨i + j, by rw [hj, hi, after_add]⟩
  free k hk := (h'.free k hk).trans (h.free k hk)
  cmb := hT h.cmb h'.cmb
  host := h'.host.trans h.host

theorem Drawn.mono {S : Cmb → Cmb → Prop} (h : Drawn ks R s t) (hS : R s.cmb t.cmb → S s.cmb t.cmb) :
    Drawn ks S s t :=
  ⟨h.after, h.free, hS h.cmb, h.host⟩

theorem Drawn.setPort (h : Drawn ks R s t) (p : Port) : Drawn ks R s (t.setPort p) :=
  ⟨by simpa using h.after, by simpa using h.free, h.cmb, h.host⟩

/-- Draws change none of what construction fixed (R22, R24). -/
theorem Drawn.params_eq (h : Drawn ks R s t) (k : SlotId) :
    (t.slot k).params = (s.slot k).params := by
  obtain ⟨j, hj⟩ := h.after k
  rw [hj, params_after]

theorem drawn_setSlot {k : SlotId} {b : Bool} {v : Slot} (hk : k ∈ ks)
    (hv : (s.slot k).step = some (b, v)) : Drawn ks Eq s (s.setSlot k v) where
  after k' := by
    by_cases h : k' = k
    · subst h
      exact ⟨1, by rw [slot_setSlot_same, after_succ_of_step hv, after_zero]⟩
    · exact ⟨0, slot_setSlot_other s v h⟩
  free k' hk' := slot_setSlot_other s v (by rintro rfl; exact hk' hk)
  cmb := (setSlot_cmb s k v).symm
  host := setSlot_host s k v

theorem drawn_setCmb (ks : List SlotId) (s : State) {c : Cmb} (hR : R s.cmb c) :
    Drawn ks R s (s.setCmb c) :=
  ⟨fun k => ⟨0, slot_setCmb s c k⟩, fun k _ => slot_setCmb s c k, hR, rfl⟩

/-- A draw and what follows it. -/
theorem draw_bind_ends {α : Type} {k : SlotId} {f : Bool → State → Run α} (hk : k ∈ ks)
    (hf : ∀ b t, (f b t).Ends (Drawn ks R t)) : ((draw k s).bind f).Ends (Drawn ks R s) := by
  cases h : draw k s with
  | done b t =>
    obtain ⟨v, hv, rfl⟩ := draw_eq_done.mp h
    exact (hf b _).mono fun u hu => (drawn_setSlot hk hv).trans hu fun he hR => he ▸ hR
  | exhausted t => exact absurd h (draw_ne_exhausted k s t)
  | endless => trivial
  | noSource => trivial

end

/-! ### The units -/

/-- A draw as a unit changes nothing but its slot (R222, R223). -/
theorem drawUnit_ends (k : SlotId) (s : State) : (drawUnit k s).Ends (Drawn [k] Eq s) :=
  draw_bind_ends (List.mem_singleton_self k) fun _ _ => Drawn.refl _ rfl

/-- Three draws and then a last write of CMB, or none. -/
theorem drawThree_ends (f : Bool → Bool → Bool → Bool) (s : State) :
    (drawThree f s).Ends (Drawn [.s0, .s1, .s2] Eq s) :=
  draw_bind_ends (by decide) fun _ _ => draw_bind_ends (by decide) fun _ _ =>
    draw_bind_ends (by decide) fun _ _ => Drawn.refl _ rfl

/-- R161: one or the other slot is clocked, and three bits are latched. -/
theorem stopGoUnit_ends (b2 b3 : Bool) (s : State) :
    (stopGoUnit b2 b3 s).Ends (Drawn [.s0, .s1, .s2] Latches s) := by
  refine draw_bind_ends (by decide) fun b1 t1 => ?_
  cases b1 with
  | true => exact draw_bind_ends (by decide) fun b2' t2 => drawn_setCmb _ t2 ⟨_, _, _, rfl⟩
  | false => exact draw_bind_ends (by decide) fun b3' t2 => drawn_setCmb _ t2 ⟨_, _, _, rfl⟩

theorem shrinkLoop_ends (cap : Option ℕ+) (fuel z : Nat) (s : State) :
    (shrinkLoop cap fuel z s).Ends (Drawn [.s0, .s1] Eq s) := by
  induction fuel generalizing z s with
  | zero => trivial
  | succ fuel ih =>
    rw [shrinkLoop_succ]
    refine draw_bind_ends (by decide) fun b1 t1 => draw_bind_ends (by decide) fun b2 t2 => ?_
    split_ifs with hkept hcap
    · exact Drawn.refl _ rfl
    · exact Drawn.refl _ rfl
    · exact ih (z + 1) t2

theorem selfShrinkLoop_ends (cap : Option ℕ+) (fuel left z : Nat) (acc : Word) (s : State) :
    (selfShrinkLoop cap fuel left z acc s).Ends (Drawn [.s0, .s1] Eq s) := by
  induction fuel generalizing left z acc s with
  | zero =>
    cases left with
    | zero => exact Drawn.refl _ rfl
    | succ pos => trivial
  | succ fuel ih =>
    cases left with
    | zero => exact Drawn.refl _ rfl
    | succ pos =>
      rw [selfShrinkLoop_succ]
      refine draw_bind_ends (by decide) fun d t1 => draw_bind_ends (by decide) fun c t2 => ?_
      split_ifs with hkept hcap
      · exact ih pos z _ t2
      · exact Drawn.refl _ rfl
      · exact ih (pos + 1) (z + 1) acc t2

/-- One unit of the bound combiner draws from the slots it owns, and keeps its kind (R26, R227). -/
theorem combinerUnit_ends (cap : Option ℕ+) (s : State) :
    (combinerUnit cap s).Ends (Drawn s.cmb.ownedSlots SameKind s) := by
  have hkeep {t : State} (h : s.cmb = t.cmb) : SameKind s.cmb t.cmb := h ▸ SameKind.refl _
  unfold combinerUnit
  cases hc : s.cmb with
  | none => trivial
  | geffe => exact (drawThree_ends geffe s).mono fun _ ht => ht.mono hkeep
  | stopgo b1 b2 b3 =>
    refine (stopGoUnit_ends b2 b3 s).mono fun t ht => ht.mono ?_
    rintro ⟨c1, c2, c3, ht⟩
    rw [hc, ht]
    exact ⟨rfl, fun h => absurd rfl h⟩
  | shrink => exact (shrinkLoop_ends cap _ 0 s).mono fun _ ht => ht.mono hkeep
  | sshrink => exact (selfShrinkLoop_ends cap _ 2 0 _ s).mono fun _ ht => ht.mono hkeep

theorem repeat_drawUnit_ends (k : SlotId) (j : Nat) (s : State) :
    (repeatUnit (drawUnit k) j s).Ends (Drawn [k] Eq s) :=
  repeatUnit_ends (fun _ => Drawn.refl _ rfl) (fun _ _ _ h h' => h.trans h' Eq.trans)
    (drawUnit_ends k) j s

theorem repeat_combinerUnit_ends (cap : Option ℕ+) (j : Nat) (s : State) :
    (repeatUnit (combinerUnit cap) j s).Ends (Drawn s.cmb.ownedSlots SameKind s) := by
  refine repeatUnit_ends (R := fun s t => Drawn s.cmb.ownedSlots SameKind s t)
    (fun s => Drawn.refl _ (SameKind.refl _)) (fun a b c h h' => ?_) (combinerUnit_ends cap) j s
  rw [h.cmb.ownedSlots_eq] at h'
  exact h.trans h' SameKind.trans

/-- The draws of BIND_STOPGO and what it latches (R160). -/
theorem bindStopgo_draws_end (s : State) :
    ((draw .s0 s).bind fun b1 t1 => (draw .s1 t1).bind fun b2 t2 =>
      (draw .s2 t2).bind fun b3 t3 => .done () (t3.setCmb (.stopgo b1 b2 b3))).Ends
      (Drawn [.s0, .s1, .s2] Latches s) :=
  draw_bind_ends (by decide) fun _ _ => draw_bind_ends (by decide) fun _ _ =>
    draw_bind_ends (by decide) fun _ t3 => drawn_setCmb _ t3 ⟨_, _, _, rfl⟩

/-! ### What a command can change -/

/-- R226: RELEASE empties the owned slots and no other. -/
theorem slot_foldl_empty (ks : List SlotId) (s : State) (k : SlotId) :
    (ks.foldl (fun t k => t.setSlot k .empty) s).slot k = if k ∈ ks then .empty else s.slot k := by
  induction ks generalizing s with
  | nil => simp
  | cons a ks ih =>
    rw [List.foldl_cons, ih]
    by_cases ha : k = a
    · subst ha; simp
    · simp [ha, slot_setSlot_other s .empty ha]

theorem owned_iff {s : State} {k : SlotId} : s.owned k = true ↔ k ∈ s.cmb.ownedSlots := by
  simp [State.owned]

theorem slot_releaseOwned (s : State) (k : SlotId) :
    (releaseOwned s).slot k = if s.owned k then .empty else s.slot k := by
  simp [releaseOwned, slot_foldl_empty, owned_iff]

/-- A command has completed from s to t: PORT has what `Port.wf` allows, and the rest of the state is
as before or as `Q` says. -/
def Completes (Q : State → Prop) (s t : State) : Prop :=
  ∃ u p, t = u.setPort p ∧ p.wf = true ∧ (u = s ∨ Q u)

/-- R250, R253: a response with DATA = 0, or with OK, is one PORT can hold. -/
theorem portWf_resp {st : Status} {d : Word} (h : st = .ok ∨ d = 0#64) :
    (Port.resp ⟨st.code, d⟩).wf = true := by
  rcases h with rfl | rfl <;> simp [Port.wf, reservedCode_code]

/-- R71: an encoded command is complete. -/
theorem complete_ofInstr (i : Instr) : (Command.ofInstr i).complete = true := by
  obtain ⟨h, ws, henc, hlen⟩ : Laws.EncodeLength.Statement i := by
    cases i with
    | cfgFib k len taps seed => exact Laws.EncodeLength.cfgFib k len taps seed
    | cfgGal k poly state => exact Laws.EncodeLength.cfgGal k poly state
    | srcNext k => exact Laws.EncodeLength.srcNext k
    | srcGetn k n => exact Laws.EncodeLength.srcGetn k n
    | bindGeffe => exact Laws.EncodeLength.bindGeffe
    | bindStopgo => exact Laws.EncodeLength.bindStopgo
    | bindShrink => exact Laws.EncodeLength.bindShrink
    | bindSshrink => exact Laws.EncodeLength.bindSshrink
    | cmbNext => exact Laws.EncodeLength.cmbNext
    | cmbGetn n => exact Laws.EncodeLength.cmbGetn n
    | geffeNextAlt => exact Laws.EncodeLength.geffeNextAlt
    | release => exact Laws.EncodeLength.release
  rw [henc] at hlen
  simpa [Command.ofInstr, henc, Command.complete] using hlen

section
variable {cs : List (Bool × Status)} {s t : State}

/-- A command that raises a status completes with no other change (R251). -/
theorem guarded_completes {body : State → Answer} {Q : State → Prop}
    (h : guarded cs s body = .next t)
    (hbody : firstFailing cs = none → body s = .next t → Completes Q s t) : Completes Q s t := by
  rcases guarded_cases cs s body with ⟨st, -, hraise⟩ | ⟨hnone, hrun⟩
  · rw [hraise] at h
    cases h
    exact ⟨s, _, raise_eq st s, portWf_resp (.inr rfl), .inl rfl⟩
  · exact hbody hnone (hrun ▸ h)

/-- A command that only writes. -/
theorem guarded_respond_completes {f : State → State}
    (h : guarded cs s (fun s => .next (respond .ok 0#64 (f s))) = .next t) :
    Completes (fun u => firstFailing cs = none ∧ u = f s) s t := by
  refine guarded_completes h fun hnone hrun => ?_
  cases hrun
  exact ⟨f s, _, rfl, portWf_resp (.inl rfl), .inr ⟨hnone, rfl⟩⟩

/-- A command that draws. -/
theorem guarded_finish_completes {α : Type} {i : Instr} {data : State → α → Word}
    {run : State → Run α} {Q : State → Prop}
    (h : guarded cs s (fun s => finish i s (data s) (run s)) = .next t) (hends : (run s).Ends Q) :
    Completes (fun u => firstFailing cs = none ∧ Q u) s t := by
  refine guarded_completes h fun hnone hrun => ?_
  cases hr : run s with
  | done a u =>
    simp only [hr, finish_done, Host.Outcome.next.injEq] at hrun hends
    exact ⟨u, _, hrun.symm, portWf_resp (.inl rfl), .inr ⟨hnone, hends⟩⟩
  | exhausted u =>
    simp only [hr, finish_exhausted, Host.Outcome.next.injEq] at hrun hends
    exact ⟨u, _, hrun.symm, portWf_resp (.inr rfl), .inr ⟨hnone, hends⟩⟩
  | endless =>
    simp only [hr, finish_endless, Host.Outcome.next.injEq] at hrun
    exact ⟨s, _, hrun.symm, complete_ofInstr i, .inl rfl⟩
  | noSource => simp [hr] at hrun

end

/-- What a command whose checks pass makes of everything but PORT, one row per command. -/
def CommandEffect (i : Instr) (s u : State) : Prop :=
  match i with
  | .cfgFib k len taps seed =>
    firstFailing (checksCfgFib s k len taps seed) = none ∧ u = s.setSlot k (.fib len taps seed)
  | .cfgGal k poly state =>
    firstFailing (checksCfgGal s k poly state) = none ∧ u = s.setSlot k (galRegister poly state)
  | .srcNext k => firstFailing (checksSource s k) = none ∧ Drawn [k] Eq s u
  | .srcGetn k _ => firstFailing (checksSource s k) = none ∧ Drawn [k] Eq s u
  | .bindGeffe => firstFailing (checksBind3 s) = none ∧ u = s.setCmb .geffe
  | .bindStopgo => firstFailing (checksBind3 s) = none ∧ Drawn [.s0, .s1, .s2] Latches s u
  | .bindShrink => firstFailing (checksBindShrink s) = none ∧ u = s.setCmb .shrink
  | .bindSshrink => firstFailing (checksBindSshrink s) = none ∧ u = s.setCmb .sshrink
  | .cmbNext => firstFailing (checksCmbNext s) = none ∧ Drawn s.cmb.ownedSlots SameKind s u
  | .cmbGetn n => firstFailing (checksCmbGetn s n) = none ∧ Drawn s.cmb.ownedSlots SameKind s u
  | .geffeNextAlt =>
    firstFailing (checksGeffeNextAlt s) = none ∧ Drawn [.s0, .s1, .s2] Eq s u
  | .release => firstFailing checksRelease = none ∧ u = releaseOwned s

/-- CMB_NEXT under every retry cap. -/
theorem cmbNextUnder_completes {cap : Option ℕ+} {s t : State} (h : cmbNextUnder cap s = .next t) :
    Completes (CommandEffect .cmbNext s) s t :=
  guarded_finish_completes h (combinerUnit_ends cap s)

/-- CMB_GETN under every retry cap. -/
theorem cmbGetnUnder_completes {cap : Option ℕ+} {n : BitVec 7} {s t : State}
    (h : cmbGetnUnder cap n s = .next t) : Completes (CommandEffect (.cmbGetn n) s) s t :=
  guarded_finish_completes h (repeat_combinerUnit_ends cap _ s)

/-- GEFFE_NEXT_ALT under both formulas. -/
theorem geffeNextAltUnder_completes {form : GeffeAltForm} {s t : State}
    (h : geffeNextAltUnder form s = .next t) : Completes (CommandEffect .geffeNextAlt s) s t :=
  guarded_finish_completes h (drawThree_ends (geffeAlt form) s)

/-- Everything a command can do: its response or its BUSY in PORT, with its effect or with none. -/
theorem exec_completes {i : Instr} {s t : State} (h : exec i s = .next t) :
    Completes (CommandEffect i s) s t := by
  unfold exec at h
  cases i with
  | cfgFib k len taps seed => exact guarded_respond_completes h
  | cfgGal k poly state => exact guarded_respond_completes h
  | srcNext k => exact guarded_finish_completes h (drawUnit_ends k s)
  | srcGetn k n => exact guarded_finish_completes h (repeat_drawUnit_ends k n.toNat s)
  | bindGeffe => exact guarded_respond_completes h
  | bindStopgo => exact guarded_finish_completes h (bindStopgo_draws_end s)
  | bindShrink => exact guarded_respond_completes h
  | bindSshrink => exact guarded_respond_completes h
  | cmbNext => exact cmbNextUnder_completes h
  | cmbGetn n => exact cmbGetnUnder_completes h
  | geffeNextAlt => exact geffeNextAltUnder_completes h
  | release => exact guarded_respond_completes h

/-! ### The frames -/

/-- A property that PORT does not matter to holds after a command when it holds before it and its
effect has it. -/
theorem Completes.elim {Q P : State → Prop} {s t : State} (h : Completes Q s t)
    (hport : ∀ u p, P u → P (u.setPort p)) (hs : P s) (hQ : ∀ u, Q u → P u) : P t := by
  obtain ⟨u, p, rfl, -, rfl | hu⟩ := h
  · exact hport u p hs
  · exact hport u p (hQ u hu)

/-- The draws of a command are all that it changes, if they are all its effect. -/
theorem Completes.drawn {Q : State → Prop} {ks : List SlotId} {R : Cmb → Cmb → Prop} {s t : State}
    (h : Completes Q s t) (hR : R s.cmb s.cmb) (hQ : ∀ u, Q u → Drawn ks R s u) : Drawn ks R s t :=
  h.elim (fun _ p hu => hu.setPort p) (Drawn.refl ks hR) hQ

/-- Slot k has been written, and everything else but PORT is as it was. -/
def OnlySlotChanged (k : SlotId) (s t : State) : Prop :=
  (∀ k', k' ≠ k → t.slot k' = s.slot k') ∧ t.cmb = s.cmb ∧ t.host = s.host

theorem onlySlotChanged_refl (k : SlotId) (s : State) : OnlySlotChanged k s s :=
  ⟨fun _ _ => rfl, rfl, rfl⟩

theorem onlySlotChanged_setSlot (k : SlotId) (s : State) (v : Slot) :
    OnlySlotChanged k s (s.setSlot k v) :=
  ⟨fun _ h => slot_setSlot_other s v h, setSlot_cmb s k v, setSlot_host s k v⟩

theorem Drawn.onlySlotChanged {k : SlotId} {s t : State} (h : Drawn [k] Eq s t) :
    OnlySlotChanged k s t :=
  ⟨fun k' hk' => h.free k' (by simpa using hk'), h.cmb.symm, h.host⟩

theorem Completes.onlySlotChanged {Q : State → Prop} {k : SlotId} {s t : State}
    (h : Completes Q s t) (hQ : ∀ u, Q u → OnlySlotChanged k s u) : OnlySlotChanged k s t :=
  h.elim (fun u p hu => by simpa [OnlySlotChanged] using hu) (onlySlotChanged_refl k s) hQ

/-- SRC_NEXT and SRC_GETN only draw from their slot (R222, R223). -/
theorem exec_source_drawn {i : Instr} {k : SlotId} {s t : State} (h : exec i s = .next t)
    (hi : i = .srcNext k ∨ ∃ n, i = .srcGetn k n) : Drawn [k] Eq s t := by
  rcases hi with rfl | ⟨n, rfl⟩
  · exact (exec_completes h).drawn rfl fun u hu => hu.2
  · exact (exec_completes h).drawn rfl fun u hu => hu.2

/-- The combiner commands only draw from the owned slots (R62). -/
theorem exec_combiner_drawn {i : Instr} {s t : State} (h : exec i s = .next t)
    (hi : i = .cmbNext ∨ (∃ n, i = .cmbGetn n) ∨ i = .geffeNextAlt) :
    Drawn s.cmb.ownedSlots SameKind s t := by
  rcases hi with rfl | ⟨n, rfl⟩ | rfl
  · exact (exec_completes h).drawn (SameKind.refl _) fun u hu => hu.2
  · exact (exec_completes h).drawn (SameKind.refl _) fun u hu => hu.2
  · refine (exec_completes h).drawn (SameKind.refl _) fun u hu => ?_
    obtain ⟨hchecks, hdrawn⟩ := hu
    have hgeffe : s.cmb = .geffe := by
      simpa [checksGeffeNextAlt, firstFailing_eq_none_iff] using hchecks
    rw [hgeffe]
    exact hdrawn.mono fun h => h ▸ SameKind.refl _

/-- Settles O20: CFG_FIB and CFG_GAL write their slot, SRC_NEXT and SRC_GETN draw from it. -/
theorem slotCommandsChangeOnlyTheirSlot : Obligations.SlotCommandsChangeOnlyTheirSlot := by
  intro k i s t h
  refine ⟨?_, fun hi => (exec_source_drawn h hi).params_eq k⟩
  rintro (⟨len, taps, seed, rfl⟩ | ⟨poly, state, rfl⟩ | hi)
  · exact (exec_completes h).onlySlotChanged fun u hu => hu.2 ▸ onlySlotChanged_setSlot k s _
  · exact (exec_completes h).onlySlotChanged fun u hu => hu.2 ▸ onlySlotChanged_setSlot k s _
  · exact (exec_source_drawn h hi).onlySlotChanged

/-- Settles O22: what the draws of the owned slots leave. -/
theorem combinerCommandsOnlyDrawOwnedSlots : Obligations.CombinerCommandsOnlyDrawOwnedSlots := by
  intro i s t h hi
  have hdrawn := exec_combiner_drawn h hi
  obtain ⟨hkind, hsame⟩ := hdrawn.cmb
  refine ⟨fun k hk => hdrawn.free k ?_, fun k => ?_, hkind, hsame, hdrawn.host⟩
  · rw [← owned_iff, hk]
    exact Bool.false_ne_true
  · obtain ⟨j, hj⟩ := hdrawn.after k
    exact ⟨j, hj, hdrawn.params_eq k⟩

/-! ### The invariant of a slot -/

@[simp] theorem wf_empty : Slot.empty.wf = true := rfl

/-- R23. -/
theorem wf_fib_iff {L : BitVec 7} {T r : Word} : (Slot.fib L T r).wf = true ↔
    1 ≤ L.toNat ∧ L.toNat ≤ 64 ∧ T.toNat < 2 ^ L.toNat ∧ r.toNat < 2 ^ L.toNat := by
  rw [Slot.wf, decide_eq_true_iff, Config.nfMax]

/-- R25. -/
theorem wf_gal_iff {m : BitVec 7} {P x : Word} : (Slot.gal m P x).wf = true ↔
    (1 ≤ m.toNat ∧ m.toNat ≤ 64 ∧ P.toNat < 2 ^ m.toNat ∧ x.toNat < 2 ^ m.toNat) ∧
      P.getLsbD 0 = true ∧ P.getLsbD (m.toNat - 1) = true := by
  rw [Slot.wf, Bool.and_eq_true, Bool.and_eq_true, decide_eq_true_iff, and_assoc, Config.ngMax]

theorem toNat_bitWord_lt {n : Nat} (hn : 1 ≤ n) (b : Bool) : (bitWord b).toNat < 2 ^ n := by
  have h : 1 < 2 ^ n := Nat.one_lt_two_pow (by omega)
  cases b
  · exact Nat.two_pow_pos n
  · exact h

/-- A Fibonacci register keeps its L bits (R23, R101). -/
theorem toNat_fibStep_lt {L : BitVec 7} (hL : 1 ≤ L.toNat) (T r : Word) :
    (fibStep L T r).2.toNat < 2 ^ L.toNat := by
  rw [fibStep, BitVec.toNat_or]
  exact Nat.or_lt_two_pow (toNat_truncTo_lt _ _) (toNat_bitWord_lt hL _)

/-- A Galois register keeps its m bits (R25, R121). -/
theorem toNat_galStep_lt {m : BitVec 7} {P : Word} (hP : P.toNat < 2 ^ m.toNat) (x : Word) :
    (galStep m P x).2.toNat < 2 ^ m.toNat := by
  rw [galStep, BitVec.toNat_xor]
  refine Nat.xor_lt_two_pow (toNat_truncTo_lt _ _) ?_
  split
  · exact hP
  · exact Nat.two_pow_pos _

theorem wf_of_step {v v' : Slot} {b : Bool} (hv : v.wf = true) (h : v.step = some (b, v')) :
    v'.wf = true := by
  cases v with
  | empty => simp at h
  | fib L T r =>
    obtain ⟨-, rfl⟩ := Prod.mk.inj (Option.some.inj h)
    obtain ⟨h1, h64, hT, -⟩ := wf_fib_iff.mp hv
    exact wf_fib_iff.mpr ⟨h1, h64, hT, toNat_fibStep_lt h1 T r⟩
  | gal m P x =>
    obtain ⟨-, rfl⟩ := Prod.mk.inj (Option.some.inj h)
    obtain ⟨⟨h1, h64, hP, -⟩, hbits⟩ := wf_gal_iff.mp hv
    exact wf_gal_iff.mpr ⟨⟨h1, h64, hP, toNat_galStep_lt hP x⟩, hbits⟩

theorem wf_after {v : Slot} (hv : v.wf = true) (n : Nat) : (v.after n).wf = true := by
  induction n generalizing v with
  | zero => exact hv
  | succ n ih =>
    cases h : v.step with
    | none => rw [(step_eq_none_iff v).mp h, after_empty, wf_empty]
    | some p =>
      rw [after_succ_of_step h]
      exact ih (wf_of_step hv h)

/-- A word with no bit at or above n is below 2^n. -/
theorem toNat_lt_of_ushiftRight_eq_zero {v : Word} {n : Nat} (h : v >>> n = 0#64) :
    v.toNat < 2 ^ n := by
  have hz : v.toNat / 2 ^ n = 0 := by
    rw [← Nat.shiftRight_eq_div_pow, ← BitVec.toNat_ushiftRight, h]
    rfl
  exact (Nat.div_eq_zero_iff_lt (Nat.two_pow_pos n)).mp hz

/-- CFG_FIB constructs a register that meets R23 when its checks pass (R103). -/
theorem wf_fib_of_checks {s : State} {k : SlotId} {len : BitVec 7} {taps seed : Word}
    (h : firstFailing (checksCfgFib s k len taps seed) = none) :
    s.owned k = false ∧ (Slot.fib len taps seed).wf = true := by
  obtain ⟨hfree, ⟨hpos, hmax⟩, htaps, hseed⟩ : s.owned k = false ∧
      (¬len.toNat = 0 ∧ len.toNat ≤ Config.nfMax) ∧ taps >>> len.toNat = 0#64 ∧
      seed >>> len.toNat = 0#64 := by
    simpa [checksCfgFib, firstFailing_eq_none_iff] using h
  exact ⟨hfree, wf_fib_iff.mpr ⟨by omega, hmax, toNat_lt_of_ushiftRight_eq_zero htaps,
    toNat_lt_of_ushiftRight_eq_zero hseed⟩⟩

/-- CFG_GAL constructs a register that meets R25 (R122). -/
theorem wf_galRegister {poly : Word} (h : poly ≠ 0#64) (state : Word) :
    (galRegister poly state).wf = true := by
  obtain ⟨hpos, -⟩ := two_pow_bitlen_le poly h
  have hle := bitlen_le poly
  have hm : (BitVec.ofNat 7 (bitlen poly)).toNat = bitlen poly := by
    rw [BitVec.toNat_ofNat]; omega
  have hP : (poly ||| 1#64).toNat < 2 ^ bitlen poly := by
    rw [BitVec.toNat_or]
    exact Nat.or_lt_two_pow (toNat_lt_two_pow_bitlen poly) (toNat_bitWord_lt hpos true)
  refine wf_gal_iff.mpr ?_
  rw [hm]
  refine ⟨⟨hpos, hle, hP, toNat_truncTo_lt _ _⟩, by simp, ?_⟩
  rw [BitVec.getLsbD_or, bitlen, bitlenUpTo_pos_bit 64 poly hpos, Bool.true_or]

/-! ### The invariant of the slots and the combiner -/

/-- The part of the invariant that PORT does not matter to: R23 and R25 for each slot, no owned slot
EMPTY (R220), and under SSHRINK only Galois registers owned (R200). -/
structure State.SourcesInv (s : State) : Prop where
  wf : ∀ k, (s.slot k).wf = true
  ready : ∀ k, s.owned k = true → (s.slot k).isEmpty = false
  galois : s.cmb = .sshrink → ∀ k, s.owned k = true → (s.slot k).isGal = true

theorem forall_slotId {P : SlotId → Prop} : (∀ k, P k) ↔ P .s0 ∧ P .s1 ∧ P .s2 :=
  ⟨fun h => ⟨h .s0, h .s1, h .s2⟩, fun ⟨h0, h1, h2⟩ k => by cases k <;> assumption⟩

theorem isEmpty_of_isGal {v : Slot} (h : v.isGal = true) : v.isEmpty = false := by
  obtain ⟨m, P, x, rfl⟩ := (Slot.isGal_iff v).mp h
  rfl

/-- The sources of every kind of combiner are ready when the slots it owns are (R200, R220). -/
theorem sourcesReady_iff (s : State) : s.sourcesReady = true ↔
    (∀ k, s.owned k = true → (s.slot k).isEmpty = false) ∧
      (s.cmb = .sshrink → ∀ k, s.owned k = true → (s.slot k).isGal = true) := by
  cases hc : s.cmb with
  | none => simp [State.sourcesReady, State.owned, hc, Cmb.ownedSlots]
  | geffe => simp [State.sourcesReady, State.owned, hc, Cmb.ownedSlots, and_assoc]
  | stopgo b1 b2 b3 =>
    simp [State.sourcesReady, State.owned, hc, Cmb.ownedSlots, and_assoc]
  | shrink => simp [State.sourcesReady, State.owned, hc, Cmb.ownedSlots]
  | sshrink =>
    simp only [State.sourcesReady, State.owned, hc, Cmb.ownedSlots, forall_slotId]
    simpa using fun h0 h1 => ⟨isEmpty_of_isGal h0, isEmpty_of_isGal h1⟩

theorem inv_iff (s : State) : s.Inv ↔ s.SourcesInv ∧ s.port.wf = true := by
  constructor
  · rintro ⟨h0, h1, h2, hready, hport⟩
    obtain ⟨hsources, hgalois⟩ := (sourcesReady_iff s).mp hready
    exact ⟨⟨forall_slotId.mpr ⟨h0, h1, h2⟩, hsources, hgalois⟩, hport⟩
  · rintro ⟨⟨hwf, hsources, hgalois⟩, hport⟩
    exact ⟨hwf .s0, hwf .s1, hwf .s2, (sourcesReady_iff s).mpr ⟨hsources, hgalois⟩, hport⟩

section
variable {s t : State}

theorem State.SourcesInv.setPort (h : s.SourcesInv) (p : Port) : (s.setPort p).SourcesInv :=
  ⟨by simpa using h.wf, by simpa [State.owned] using h.ready, by simpa [State.owned] using h.galois⟩

theorem State.SourcesInv.setHost (h : s.SourcesInv) (g : HostSide) : (s.setHost g).SourcesInv :=
  ⟨by simpa using h.wf, by simpa [State.owned] using h.ready, by simpa [State.owned] using h.galois⟩

/-- A well-formed register can be constructed in a slot that is not owned. -/
theorem State.SourcesInv.setSlot (h : s.SourcesInv) {k : SlotId} {v : Slot} (hk : s.owned k = false)
    (hv : v.wf = true) : (s.setSlot k v).SourcesInv := by
  have hother {k' : SlotId} (h' : (s.setSlot k v).owned k' = true) :
      s.owned k' = true ∧ (s.setSlot k v).slot k' = s.slot k' := by
    rw [owned_congr (setSlot_cmb s k v)] at h'
    exact ⟨h', slot_setSlot_other s v (by rintro rfl; simp [hk] at h')⟩
  refine ⟨fun k' => ?_, fun k' h' => ?_, fun hc k' h' => ?_⟩
  · by_cases hkk : k' = k
    · rwa [hkk, slot_setSlot_same]
    · rw [slot_setSlot_other s v hkk]
      exact h.wf k'
  · obtain ⟨ho, hslot⟩ := hother h'
    rw [hslot]
    exact h.ready k' ho
  · obtain ⟨ho, hslot⟩ := hother h'
    rw [hslot]
    exact h.galois (setSlot_cmb s k v ▸ hc) k' ho

/-- The kind of a slot is part of what construction fixed. -/
theorem isEmpty_congr {v w : Slot} (h : v.params = w.params) : v.isEmpty = w.isEmpty := by
  cases v <;> cases w <;> cases h <;> rfl

theorem isGal_congr {v w : Slot} (h : v.params = w.params) : v.isGal = w.isGal := by
  cases v <;> cases w <;> cases h <;> rfl

/-- After draws the invariant holds if the slots owned then were ready before. -/
theorem Drawn.sourcesInv {ks : List SlotId} {R : Cmb → Cmb → Prop} (h : Drawn ks R s t)
    (hs : s.SourcesInv) (hready : ∀ k, t.owned k = true → (s.slot k).isEmpty = false)
    (hgalois : t.cmb = .sshrink → ∀ k, t.owned k = true → (s.slot k).isGal = true) :
    t.SourcesInv where
  wf k := by
    obtain ⟨j, hj⟩ := h.after k
    rw [hj]
    exact wf_after (hs.wf k) j
  ready k hk := (isEmpty_congr (h.params_eq k)).trans (hready k hk)
  galois hc k hk := (isGal_congr (h.params_eq k)).trans (hgalois hc k hk)

/-- Draws under the combiner that is bound keep the invariant. -/
theorem Drawn.sourcesInv_of_sameKind {ks : List SlotId} (h : Drawn ks SameKind s t)
    (hs : s.SourcesInv) : t.SourcesInv := by
  have howned (k : SlotId) (hk : t.owned k = true) : s.owned k = true := by
    rw [owned_iff] at hk ⊢
    rwa [← h.cmb.ownedSlots_eq]
  exact h.sourcesInv hs (fun k hk => hs.ready k (howned k hk))
    fun hc k hk => hs.galois (hc ▸ h.cmb).eq_sshrink k (howned k hk)

/-- A combiner can be bound over slots that are ready for it. -/
theorem State.SourcesInv.setCmb (h : s.SourcesInv) {c : Cmb}
    (hready : ∀ k ∈ c.ownedSlots, (s.slot k).isEmpty = false)
    (hgalois : c = .sshrink → ∀ k ∈ c.ownedSlots, (s.slot k).isGal = true) :
    (s.setCmb c).SourcesInv :=
  (drawn_setCmb (R := fun _ _ => True) [] s trivial).sourcesInv h
    (fun k hk => hready k (owned_iff.mp hk)) fun hc k hk => hgalois hc k (owned_iff.mp hk)

theorem ready_of_checksBind3 (h : firstFailing (checksBind3 s) = none) :
    ∀ k, (s.slot k).isEmpty = false := by
  obtain ⟨-, h0, h1, h2⟩ : s.cmb = .none ∧ s.s0.isEmpty = false ∧ s.s1.isEmpty = false ∧
      s.s2.isEmpty = false := by
    simpa [checksBind3, firstFailing_eq_none_iff, and_assoc] using h
  exact forall_slotId.mpr ⟨h0, h1, h2⟩

theorem ready_of_checksBindShrink (h : firstFailing (checksBindShrink s) = none) :
    ∀ k ∈ Cmb.shrink.ownedSlots, (s.slot k).isEmpty = false := by
  have hchecks : s.cmb = .none ∧ s.s0.isEmpty = false ∧ s.s1.isEmpty = false := by
    simpa [checksBindShrink, firstFailing_eq_none_iff] using h
  simpa [Cmb.ownedSlots] using hchecks.2

theorem galois_of_checksBindSshrink (h : firstFailing (checksBindSshrink s) = none) :
    ∀ k ∈ Cmb.sshrink.ownedSlots, (s.slot k).isGal = true := by
  have hchecks : s.cmb = .none ∧ (s.s0.isEmpty = false ∧ s.s1.isEmpty = false) ∧
      s.s0.isGal = true ∧ s.s1.isGal = true := by
    simpa [checksBindSshrink, firstFailing_eq_none_iff] using h
  simpa [Cmb.ownedSlots] using hchecks.2.2

/-- R226. -/
theorem State.SourcesInv.releaseOwned (h : s.SourcesInv) : (releaseOwned s).SourcesInv where
  wf k := by
    rw [slot_releaseOwned]
    split
    · exact wf_empty
    · exact h.wf k
  ready k hk := by simp [owned_of_none (s := Machine.releaseOwned s) rfl k] at hk
  galois hc := by simp [Machine.releaseOwned] at hc

end

/-- The effect of every command keeps the invariant. -/
theorem sourcesInv_of_effect {i : Instr} {s u : State} (hs : s.SourcesInv)
    (h : CommandEffect i s u) : u.SourcesInv := by
  cases i with
  | cfgFib k len taps seed =>
    obtain ⟨hchecks, rfl⟩ := h
    obtain ⟨hfree, hwf⟩ := wf_fib_of_checks hchecks
    exact hs.setSlot hfree hwf
  | cfgGal k poly state =>
    obtain ⟨hchecks, rfl⟩ := h
    obtain ⟨hfree, hpoly, -⟩ : s.owned k = false ∧ ¬poly = 0#64 ∧ ¬state = 0#64 := by
      simpa [checksCfgGal, firstFailing_eq_none_iff] using hchecks
    exact hs.setSlot hfree (wf_galRegister hpoly state)
  | srcNext k => exact (h.2.mono fun he => he ▸ SameKind.refl _).sourcesInv_of_sameKind hs
  | srcGetn k n => exact (h.2.mono fun he => he ▸ SameKind.refl _).sourcesInv_of_sameKind hs
  | bindGeffe =>
    obtain ⟨hchecks, rfl⟩ := h
    exact hs.setCmb (fun k _ => ready_of_checksBind3 hchecks k) nofun
  | bindStopgo =>
    obtain ⟨hchecks, hdrawn⟩ := h
    obtain ⟨b1, b2, b3, hc⟩ := hdrawn.cmb
    exact hdrawn.sourcesInv hs (fun k _ => ready_of_checksBind3 hchecks k) (by simp [hc])
  | bindShrink =>
    obtain ⟨hchecks, rfl⟩ := h
    exact hs.setCmb (ready_of_checksBindShrink hchecks) nofun
  | bindSshrink =>
    obtain ⟨hchecks, rfl⟩ := h
    have hgalois := galois_of_checksBindSshrink hchecks
    exact hs.setCmb (fun k hk => isEmpty_of_isGal (hgalois k hk)) fun _ => hgalois
  | cmbNext => exact h.2.sourcesInv_of_sameKind hs
  | cmbGetn n => exact h.2.sourcesInv_of_sameKind hs
  | geffeNextAlt => exact (h.2.mono fun he => he ▸ SameKind.refl _).sourcesInv_of_sameKind hs
  | release =>
    obtain ⟨-, rfl⟩ := h
    exact hs.releaseOwned

/-- A command keeps the invariant, whatever PORT held before it. -/
theorem exec_keeps_inv {i : Instr} {s t : State} (hs : s.SourcesInv) (h : exec i s = .next t) :
    t.Inv := by
  obtain ⟨u, p, rfl, hp, hu⟩ := exec_completes h
  refine (inv_iff _).mpr ⟨State.SourcesInv.setPort ?_ p, hp⟩
  rcases hu with rfl | heffect
  · exact hs
  · exact sourcesInv_of_effect hs heffect

/-- The step in BUSY: the decoded command runs, or ILLEGAL_COMMAND is raised. -/
theorem runCommand_keeps_inv {c : Command} {s t : State} (hs : s.SourcesInv)
    (h : runCommand c s = .next t) : t.Inv := by
  unfold runCommand at h
  split at h
  · split at h
    · exact exec_keeps_inv hs h
    · cases h
      exact (inv_iff _).mpr ⟨hs.setPort _, portWf_resp (.inr rfl)⟩
  · cases h

/-- R71: a command has three words or one. -/
theorem commandLength_eq (h : Word) : commandLength h = 3 ∨ commandLength h = 1 := by
  unfold commandLength
  split
  · exact .inl rfl
  · exact .inr rfl

/-- A header leads to COLLECT or, when its command has one word, to BUSY (R71). -/
theorem acceptHeader_eq_setPort (w : Word) (s : State) :
    ∃ p, acceptHeader w s = s.setPort p ∧ p.wf = true := by
  rcases commandLength_eq w with h | h
  · exact ⟨.collect0 w, by simp [acceptHeader, h], by simp [Port.wf, h]⟩
  · exact ⟨.busy ⟨w, []⟩, by simp [acceptHeader, h], by simp [Port.wf, Command.complete, h]⟩

/-- Settles O23: no slot and no combiner is left to meet a condition. -/
theorem invariantHoldsAtReset : Obligations.InvariantHoldsAtReset := by
  intro h
  exact ⟨rfl, rfl, rfl, rfl, rfl⟩

/-- Settles O24: reset meets the invariant, a command keeps it, and every other step changes PORT and
the host's side alone. -/
theorem stepKeepsTheInvariant : Obligations.StepKeepsTheInvariant := by
  intro s t hinv h
  obtain ⟨hs, hp⟩ := (inv_iff s).mp hinv
  have hsent : (s.setHost s.host.tick.sent).SourcesInv := hs.setHost _
  rcases step_cases s with ⟨-, hstep⟩ | ⟨-, c, -, hstep⟩ | ⟨-, w, -, hword⟩ | ⟨-, r, -, -, hstep⟩ |
    ⟨-, -, hstep⟩
  · obtain rfl : applyReset s.tick = t := by simpa [hstep] using h
    exact invariantHoldsAtReset s.tick.host
  · exact runCommand_keeps_inv (hs.setHost _) (hstep ▸ h)
  · rcases hword with ⟨-, hstep⟩ | ⟨hd, hport, hstep⟩ | ⟨hd, a, hport, hstep⟩
    · obtain ⟨p, hset, hwf⟩ := acceptHeader_eq_setPort w (s.setHost s.host.tick.sent)
      obtain rfl : _ = t := by simpa [hstep, hset] using h
      exact (inv_iff _).mpr ⟨hsent.setPort p, hwf⟩
    · obtain rfl : _ = t := by simpa [hstep] using h
      exact (inv_iff _).mpr ⟨hsent.setPort _, by simpa [hport, Port.wf] using hp⟩
    · obtain rfl : _ = t := by simpa [hstep] using h
      have hlen : commandLength hd = 3 := by simpa [hport, Port.wf] using hp
      exact (inv_iff _).mpr ⟨hsent.setPort _, by simp [Port.wf, Command.complete, hlen]⟩
  · rw [hstep] at h
    split at h
    · cases h
    · cases h
      exact (inv_iff _).mpr ⟨(hs.setPort .idle).setHost _, rfl⟩
  · obtain rfl : s.tick = t := by simpa [hstep] using h
    exact (inv_iff _).mpr ⟨hs.setHost _, hp⟩

/-- Settles O14, field by field of R33. -/
theorem resetStateIsEmpty : Obligations.ResetStateIsEmpty :=
  ⟨forall_slotId.mpr ⟨rfl, rfl, rfl⟩, rfl, rfl, rfl⟩

end Sys2Proof.Machine
end

section
/-! PROOFS. Commands are blind to the ports: what they draw and write commutes with any change of PORT
and of the host's side (10_state.md R30, 20_memory.md R55). -/

namespace Sys2Proof.Machine

/-- The same slots and combiner with other ports. -/
def State.withPorts (s : State) (p : Port) (h : HostSide) : State := (s.setPort p).setHost h

/-- A change made to the state a run ends in, if it ends. -/
def Run.mapState {α : Type} (f : State → State) (r : Run α) : Run α :=
  match r with
  | .done a s => .done a (f s)
  | .exhausted s => .exhausted (f s)
  | .endless => .endless
  | .noSource => .noSource

/-- A write that neither reads nor changes the ports. -/
def WriteBlind (f : State → State) : Prop :=
  ∀ s p h, f (s.withPorts p h) = (f s).withPorts p h

/-- A run that neither reads nor changes the ports. -/
def RunBlind {α : Type} (run : State → Run α) : Prop :=
  ∀ s p h, run (s.withPorts p h) = (run s).mapState fun t => t.withPorts p h

/-- A command that sets PORT, reads nothing of the ports and leaves the host's side. -/
def CommandBlind (body : State → Answer) : Prop :=
  ∀ s p h, body (s.withPorts p h) = mapAnswer (fun t => t.setHost h) (body s)

@[simp] theorem slot_withPorts (s : State) (p : Port) (h : HostSide) (k : SlotId) :
    (s.withPorts p h).slot k = s.slot k := by
  rw [State.withPorts, slot_setHost, slot_setPort]

@[simp] theorem cmb_withPorts (s : State) (p : Port) (h : HostSide) :
    (s.withPorts p h).cmb = s.cmb := rfl

/-! ### Writes -/

theorem setSlot_withPorts (s : State) (p : Port) (h : HostSide) (k : SlotId) (v : Slot) :
    (s.withPorts p h).setSlot k v = (s.setSlot k v).withPorts p h := by
  simp only [State.withPorts, setSlot_setHost, setSlot_setPort]

theorem writeBlind_setSlot (k : SlotId) (v : Slot) : WriteBlind fun s => s.setSlot k v :=
  fun s p h => setSlot_withPorts s p h k v

theorem writeBlind_setCmb (c : Cmb) : WriteBlind fun s => s.setCmb c := fun _ _ _ => rfl

theorem foldl_setSlot_withPorts (ks : List SlotId) (s : State) (p : Port) (h : HostSide) :
    ks.foldl (fun t k => t.setSlot k .empty) (s.withPorts p h) =
      (ks.foldl (fun t k => t.setSlot k .empty) s).withPorts p h := by
  induction ks generalizing s with
  | nil => rfl
  | cons k ks ih => rw [List.foldl_cons, setSlot_withPorts, ih, List.foldl_cons]

theorem writeBlind_releaseOwned : WriteBlind releaseOwned := by
  intro s p h
  rw [releaseOwned, cmb_withPorts, foldl_setSlot_withPorts]
  rfl

/-! ### Runs -/

section
variable {α β : Type}

theorem runBlind_done (a : α) : RunBlind fun s => .done a s := fun _ _ _ => rfl

theorem runBlind_exhausted : RunBlind fun s => (.exhausted s : Run α) := fun _ _ _ => rfl

theorem runBlind_endless : RunBlind fun _ => (.endless : Run α) := fun _ _ _ => rfl

theorem runBlind_setCmb (a : α) (c : Cmb) : RunBlind fun s => .done a (s.setCmb c) :=
  fun _ _ _ => rfl

theorem RunBlind.bind {run : State → Run α} {f : α → State → Run β} (hrun : RunBlind run)
    (hf : ∀ a, RunBlind (f a)) : RunBlind fun s => (run s).bind f := by
  intro s p h
  simp only [hrun s p h]
  cases run s with
  | done a t => exact hf a t p h
  | exhausted t => rfl
  | endless => rfl
  | noSource => rfl

theorem RunBlind.ite {c : Prop} [Decidable c] {run run' : State → Run α} (h : RunBlind run)
    (h' : RunBlind run') : RunBlind fun s => if c then run s else run' s := by
  by_cases hc : c
  · simpa only [if_pos hc] using h
  · simpa only [if_neg hc] using h'

end

theorem runBlind_draw (k : SlotId) : RunBlind (draw k) := by
  intro s p h
  unfold draw
  rw [slot_withPorts]
  cases (s.slot k).step with
  | none => rfl
  | some r => exact congrArg (Run.done r.1) (setSlot_withPorts s p h k r.2)

theorem runBlind_drawUnit (k : SlotId) : RunBlind (drawUnit k) :=
  (runBlind_draw k).bind fun b => runBlind_done (bitWord b)

theorem runBlind_drawThree (f : Bool → Bool → Bool → Bool) : RunBlind (drawThree f) :=
  (runBlind_draw .s0).bind fun _ => (runBlind_draw .s1).bind fun _ =>
    (runBlind_draw .s2).bind fun _ => runBlind_done _

theorem runBlind_stopGoUnit (b2 b3 : Bool) : RunBlind (stopGoUnit b2 b3) := by
  refine (runBlind_draw .s0).bind fun b1 => RunBlind.ite ?_ ?_
  · exact (runBlind_draw .s1).bind fun b2' => runBlind_setCmb _ _
  · exact (runBlind_draw .s2).bind fun b3' => runBlind_setCmb _ _

theorem runBlind_shrinkLoop (cap : Option ℕ+) (fuel z : Nat) : RunBlind (shrinkLoop cap fuel z) := by
  induction fuel generalizing z with
  | zero => exact runBlind_endless
  | succ fuel ih =>
    exact (runBlind_draw .s0).bind fun b1 => (runBlind_draw .s1).bind fun b2 =>
      (runBlind_done _).ite (runBlind_exhausted.ite (ih (z + 1)))

theorem runBlind_selfShrinkLoop (cap : Option ℕ+) (fuel left z : Nat) (acc : Word) :
    RunBlind (selfShrinkLoop cap fuel left z acc) := by
  induction fuel generalizing left z acc with
  | zero =>
    cases left with
    | zero => exact runBlind_done acc
    | succ pos => exact runBlind_endless
  | succ fuel ih =>
    cases left with
    | zero => exact runBlind_done acc
    | succ pos =>
      exact (runBlind_draw .s0).bind fun d => (runBlind_draw .s1).bind fun c =>
        (ih pos z _).ite (runBlind_exhausted.ite (ih (pos + 1) (z + 1) acc))

theorem runBlind_combinerUnit (cap : Option ℕ+) : RunBlind (combinerUnit cap) := by
  intro s p h
  simp only [combinerUnit, cmb_withPorts]
  cases s.cmb with
  | none => rfl
  | geffe => exact runBlind_drawThree geffe s p h
  | stopgo b1 b2 b3 => exact runBlind_stopGoUnit b2 b3 s p h
  | shrink => exact runBlind_shrinkLoop cap _ 0 s p h
  | sshrink => exact runBlind_selfShrinkLoop cap _ 2 0 _ s p h

theorem runBlind_repeatUnit {unit : State → Run Word} (hunit : RunBlind unit) (j : Nat) :
    RunBlind (repeatUnit unit j) := by
  induction j with
  | zero => exact runBlind_done []
  | succ j ih => exact hunit.bind fun u => ih.bind fun us => runBlind_done (u :: us)

/-- The draws of BIND_STOPGO with the bits they latch (R160). -/
theorem runBlind_bindStopgo_draws : RunBlind fun s =>
    (draw .s0 s).bind fun b1 t1 => (draw .s1 t1).bind fun b2 t2 =>
      (draw .s2 t2).bind fun b3 t3 => .done () (t3.setCmb (.stopgo b1 b2 b3)) :=
  (runBlind_draw .s0).bind fun _ => (runBlind_draw .s1).bind fun _ =>
    (runBlind_draw .s2).bind fun _ => runBlind_setCmb _ _

/-! ### Commands -/

section
variable {checks : State → List (Bool × Status)}

/-- Checks that do not read the ports, before a body that does not. -/
theorem CommandBlind.guarded {body : State → Answer} (hbody : CommandBlind body)
    (hchecks : ∀ s p h, checks (s.withPorts p h) = checks s) :
    CommandBlind fun s => guarded (checks s) s body := by
  intro s p h
  simp only [hchecks]
  cases hf : firstFailing (checks s) with
  | some st => rw [guarded_of_some hf, guarded_of_some hf]; rfl
  | none => rw [guarded_of_none hf, guarded_of_none hf]; exact hbody s p h

theorem WriteBlind.respond {f : State → State} (hf : WriteBlind f) :
    CommandBlind fun s => .next (respond .ok 0#64 (f s)) := by
  intro s p h
  simp only [hf s p h]
  rfl

theorem RunBlind.finish {α : Type} {run : State → Run α} (hrun : RunBlind run) (i : Instr)
    (data : α → Word) : CommandBlind fun s => finish i s data (run s) := by
  intro s p h
  simp only [hrun s p h]
  cases run s with
  | done a t => rfl
  | exhausted t => rfl
  | endless => rfl
  | noSource => rfl

end

theorem checksSource_withPorts (s : State) (p : Port) (h : HostSide) (k : SlotId) :
    checksSource (s.withPorts p h) k = checksSource s k := by
  rw [checksSource, slot_withPorts, owned_congr (cmb_withPorts s p h), checksSource]

/-- CMB_GETN asks for units of the width of the combiner that is bound (R225). -/
theorem commandBlind_cmbGetn_units (cap : Option ℕ+) (n : BitVec 7) : CommandBlind fun s =>
    finish (.cmbGetn n) s (pack s.cmb.unitWidth)
      (repeatUnit (combinerUnit cap) (n.toNat / s.cmb.unitWidth) s) := by
  intro s p h
  simp only [cmb_withPorts]
  exact (runBlind_repeatUnit (runBlind_combinerUnit cap) _).finish _ (pack s.cmb.unitWidth) s p h

theorem commandBlind_cmbNextUnder (cap : Option ℕ+) : CommandBlind (cmbNextUnder cap) :=
  ((runBlind_combinerUnit cap).finish _ _).guarded fun _ _ _ => rfl

theorem commandBlind_cmbGetnUnder (cap : Option ℕ+) (n : BitVec 7) :
    CommandBlind (cmbGetnUnder cap n) :=
  (commandBlind_cmbGetn_units cap n).guarded fun _ _ _ => rfl

theorem commandBlind_geffeNextAltUnder (form : GeffeAltForm) :
    CommandBlind (geffeNextAltUnder form) :=
  ((runBlind_drawThree _).finish _ _).guarded fun _ _ _ => rfl

/-- No command reads the ports or changes the host's side. -/
theorem commandBlind_exec (i : Instr) : CommandBlind (exec i) := by
  unfold exec
  cases i with
  | cfgFib k len taps seed => exact (writeBlind_setSlot k _).respond.guarded fun _ _ _ => rfl
  | cfgGal k poly state => exact (writeBlind_setSlot k _).respond.guarded fun _ _ _ => rfl
  | srcNext k =>
    exact ((runBlind_drawUnit k).finish _ _).guarded (checksSource_withPorts · · · k)
  | srcGetn k n =>
    exact ((runBlind_repeatUnit (runBlind_drawUnit k) n.toNat).finish _ _).guarded
      (checksSource_withPorts · · · k)
  | bindGeffe => exact (writeBlind_setCmb .geffe).respond.guarded fun _ _ _ => rfl
  | bindStopgo => exact (runBlind_bindStopgo_draws.finish _ _).guarded fun _ _ _ => rfl
  | bindShrink => exact (writeBlind_setCmb .shrink).respond.guarded fun _ _ _ => rfl
  | bindSshrink => exact (writeBlind_setCmb .sshrink).respond.guarded fun _ _ _ => rfl
  | cmbNext => exact commandBlind_cmbNextUnder Config.retryCap
  | cmbGetn n => exact commandBlind_cmbGetnUnder Config.retryCap n
  | geffeNextAlt => exact commandBlind_geffeNextAltUnder Config.geffeAltForm
  | release => exact writeBlind_releaseOwned.respond.guarded fun _ _ _ => rfl

/-- Settles O19: what every command does goes through operations that are blind to the ports. -/
theorem commandsReadOnlySlotsAndCombiner : Obligations.CommandsReadOnlySlotsAndCombiner :=
  fun i s p h => commandBlind_exec i s p h

end Sys2Proof.Machine
end

section
/-! PROOFS of the family 20_memory.md: what a step does in each state of PORT when reset is not
asserted, which words the decoder takes for one command, and from these the statements about the two
ports. After them the frames of the binds and RELEASE. -/

namespace Sys2Proof.Machine

/-! ### A run, step by step -/

/-- A run of a machine goes on from the state its first step leads to. -/
theorem coreRun_succ_of_step (M : Host.Core) {s t : M.State} (h : M.step s = .next t) (n : Nat) :
    M.run (n + 1) s = M.run n t := by
  rw [Host.Core.run, h]

/-- A run of the block goes on from the state its first step leads to. -/
theorem run_succ_of_step {s t : State} (h : step s = .next t) (n : Nat) :
    core.run (n + 1) s = core.run n t :=
  coreRun_succ_of_step core h n

/-- A reset input that stays low for some steps is low in the first of them. -/
theorem headD_of_take {rs : List Bool} {n : Nat} (h : ∀ b ∈ rs.take (n + 1), b = false) :
    rs.headD false = false := by
  cases rs with
  | nil => rfl
  | cons b rs => exact h b (by simp)

/-- A reset input that stays low for some steps is low in those after the first. -/
theorem tail_take_of_take {rs : List Bool} {n : Nat} (h : ∀ b ∈ rs.take (n + 1), b = false) :
    ∀ b ∈ rs.tail.take n, b = false := by
  cases rs with
  | nil => simp
  | cons b rs => exact fun c hc => h c (List.mem_cons_of_mem b hc)

/-! ### The host's side in one step -/

@[simp] theorem tick_commands (h : HostSide) : h.tick.commands = tickCommands h.commands := rfl

@[simp] theorem tick_responses (h : HostSide) : h.tick.responses = tickResponses h.responses := rfl

@[simp] theorem tick_resets (h : HostSide) : h.tick.resets = h.resets.tail := rfl

@[simp] theorem tick_received (h : HostSide) : h.tick.received = h.received := rfl

theorem presented_of_word {h : HostSide} {w : Word} {cs : List CommandAction}
    (hc : h.commands = .word w :: cs) : h.presented = some w :=
  (presented_eq_some_iff h w).mpr ⟨cs, hc⟩

theorem presented_of_noWord {h : HostSide} (hc : ∀ w cs, h.commands ≠ .word w :: cs) :
    h.presented = none := by
  rw [Option.eq_none_iff_forall_ne_some]
  intro w hw
  obtain ⟨cs, hcs⟩ := (presented_eq_some_iff h w).mp hw
  exact hc w cs hcs

theorem ready_of_noTake {h : HostSide} (ht : ∀ ts, h.responses ≠ .take :: ts) : h.ready = false := by
  rw [Bool.eq_false_iff, ne_eq, ready_iff]
  rintro ⟨ts, hts⟩
  exact ht ts hts

/-! ### The step in each state of PORT -/

/-- A header leads to COLLECT or to BUSY, by the number of its words (R71). -/
theorem acceptHeader_eq_ite (w : Word) (s : State) :
    acceptHeader w s = s.setPort (if commandLength w = 3 then .collect0 w else .busy ⟨w, []⟩) :=
  (apply_ite s.setPort _ _ _).symm

/-- The number of a reserved code (R250). -/
theorem reservedCode_iff (st : BitVec 4) : reservedCode st = true ↔ 6 ≤ st.toNat := by
  simp [reservedCode, Nat.succ_le_iff]

section
variable {s t : State} {w : Word} {cs : List CommandAction}

theorem step_of_idle (hr : s.NoReset) (hp : s.port = .idle) :
    step s = .next (onWord acceptHeader s) := by
  rw [step_of_noReset hr, portStep, hp]

theorem step_of_collect0 {h : Word} (hr : s.NoReset) (hp : s.port = .collect0 h) :
    step s = .next (onWord (fun a t => t.setPort (.collect1 h a)) s) := by
  rw [step_of_noReset hr, portStep, hp]

theorem step_of_collect1 {h a : Word} (hr : s.NoReset) (hp : s.port = .collect1 h a) :
    step s = .next (onWord (fun b t => t.setPort (.busy ⟨h, [a, b]⟩)) s) := by
  rw [step_of_noReset hr, portStep, hp]

theorem step_of_busy {c : Command} (hr : s.NoReset) (hp : s.port = .busy c) :
    step s = runCommand c s.tick := by
  rw [step_of_noReset hr, portStep, hp]

theorem step_of_resp {r : Response} (hr : s.NoReset) (hp : s.port = .resp r) :
    step s = onResponse r s := by
  rw [step_of_noReset hr, portStep, hp]

/-- The state after PORT has accepted the first word of the host and become `p`. -/
theorem onWord_setPort {accept : Word → State → State} {p : Port}
    (hc : s.host.commands = .word w :: cs) (haccept : ∀ u, accept w u = u.setPort p) :
    onWord accept s = (s.setPort p).setHost
      ⟨cs, tickResponses s.host.responses, s.host.resets.tail, s.host.received⟩ := by
  rw [onWord_of_word (presented_of_word hc), haccept, setPort_setHost, tick_sent_of_word hc]

/-- R51, R71: a word presented in IDLE is a header. -/
theorem step_of_idle_of_word (hr : s.NoReset) (hp : s.port = .idle)
    (hc : s.host.commands = .word w :: cs) :
    step s = .next ((s.setPort (if commandLength w = 3 then .collect0 w else .busy ⟨w, []⟩)).setHost
      ⟨cs, tickResponses s.host.responses, s.host.resets.tail, s.host.received⟩) := by
  rw [step_of_idle hr hp, onWord_setPort hc (acceptHeader_eq_ite w)]

/-- R51: a word presented in COLLECT is the next operand. -/
theorem step_of_collect0_of_word {h : Word} (hr : s.NoReset) (hp : s.port = .collect0 h)
    (hc : s.host.commands = .word w :: cs) :
    step s = .next ((s.setPort (.collect1 h w)).setHost
      ⟨cs, tickResponses s.host.responses, s.host.resets.tail, s.host.received⟩) := by
  rw [step_of_collect0 hr hp, onWord_setPort hc fun _ => rfl]

/-- R51: the second operand completes the command. -/
theorem step_of_collect1_of_word {h a : Word} (hr : s.NoReset) (hp : s.port = .collect1 h a)
    (hc : s.host.commands = .word w :: cs) :
    step s = .next ((s.setPort (.busy ⟨h, [a, w]⟩)).setHost
      ⟨cs, tickResponses s.host.responses, s.host.resets.tail, s.host.received⟩) := by
  rw [step_of_collect1 hr hp, onWord_setPort hc fun _ => rfl]

/-- R55, R266: with no word presented, IDLE and COLLECT wait. -/
theorem step_of_noWord (hr : s.NoReset) (hc : ∀ w cs, s.host.commands ≠ .word w :: cs)
    (hp : s.port = .idle ∨ (∃ h, s.port = .collect0 h) ∨ ∃ h a, s.port = .collect1 h a) :
    step s = .next s.tick := by
  have hnone := presented_of_noWord hc
  rcases hp with hp | ⟨h, hp⟩ | ⟨h, a, hp⟩
  · rw [step_of_idle hr hp, onWord_of_none hnone]
  · rw [step_of_collect0 hr hp, onWord_of_none hnone]
  · rw [step_of_collect1 hr hp, onWord_of_none hnone]

/-! ### The response port -/

/-- R52: a response that the host does not take is held. -/
theorem step_of_resp_of_noTake {r : Response} (hr : s.NoReset) (hp : s.port = .resp r)
    (ht : ∀ ts, s.host.responses ≠ .take :: ts) : step s = .next s.tick := by
  rw [step_of_resp hr hp, onResponse, ready_of_noTake ht, if_neg Bool.false_ne_true]

/-- What taking a response comes to is decided by its code (R32, item 7 of 93). -/
theorem step_of_resp_of_take {r : Response} {ts : List ResponseAction} (hr : s.NoReset)
    (hp : s.port = .resp r) (ht : s.host.responses = .take :: ts) :
    step s = if reservedCode r.status then .fault .reservedStatus
      else .next ((s.setPort .idle).setHost
        ⟨tickCommands s.host.commands, ts, s.host.resets.tail, s.host.received ++ [r]⟩) := by
  rw [step_of_resp hr hp, onResponse, (ready_iff _).mpr ⟨ts, ht⟩, if_pos rfl, tick_took_of_take r ht]

/-- A response with a defined status leaves PORT in IDLE when it is taken (R32). -/
theorem step_of_resp_of_take_defined {r : Response} {ts : List ResponseAction} (hr : s.NoReset)
    (hp : s.port = .resp r) (hdefined : r.status.toNat ≤ 5) (ht : s.host.responses = .take :: ts) :
    step s = .next ((s.setPort .idle).setHost
      ⟨tickCommands s.host.commands, ts, s.host.resets.tail, s.host.received ++ [r]⟩) := by
  have hcode : ¬reservedCode r.status = true := by rw [reservedCode_iff]; omega
  rw [step_of_resp_of_take hr hp ht, if_neg hcode]

end

/-- Settles O12: not taken, taken with a defined code, taken with a reserved one. -/
theorem responseIsHeldUntilTaken : Obligations.ResponseIsHeldUntilTaken := by
  refine ⟨fun s r hp hr ht => step_of_resp_of_noTake hr hp ht, fun s r ts hp hr ht => ⟨?_, ?_⟩⟩
  · exact fun hdefined => step_of_resp_of_take_defined hr hp hdefined ht
  · intro hreserved
    rw [step_of_resp_of_take hr hp ht, if_pos ((reservedCode_iff _).mpr hreserved)]

/-! ### Held words -/

section
variable {s t : State} {w : Word} {cs : List CommandAction}

/-- No command changes the host's side, since none reads it: with the host's side it already has, the
state is the same, and so is the answer. -/
theorem host_of_exec {i : Instr} (h : exec i s = .next t) : t.host = s.host := by
  have hsame : exec i s = mapAnswer (fun u => u.setHost s.host) (exec i s) :=
    commandBlind_exec i s s.port s.host
  rw [h] at hsame
  injection hsame with ht
  rw [ht]
  rfl

/-- The block leaves the host's side while it executes. -/
theorem host_of_runCommand {c : Command} (h : runCommand c s = .next t) : t.host = s.host := by
  unfold runCommand at h
  split at h
  · split at h
    · exact host_of_exec h
    · cases h
      rfl
  · cases h

/-- On the command port a step in RESP transfers nothing. -/
theorem commands_of_onResponse {r : Response} (h : onResponse r s = .next t) :
    t.host.commands = tickCommands s.host.commands := by
  unfold onResponse at h
  split at h
  · split at h
    · cases h
    · cases h
      rfl
  · cases h
    rfl

/-- R51: in BUSY and in RESP a step transfers nothing on the command port. -/
theorem commands_of_step_of_busy_or_resp (hr : s.NoReset)
    (hp : (∃ c, s.port = .busy c) ∨ ∃ r, s.port = .resp r) (h : step s = .next t) :
    t.host.commands = tickCommands s.host.commands := by
  rcases hp with ⟨c, hp⟩ | ⟨r, hp⟩
  · rw [step_of_busy hr hp] at h
    exact congrArg HostSide.commands (host_of_runCommand h)
  · rw [step_of_resp hr hp] at h
    exact commands_of_onResponse h

/-- A word held back while a response waits: the host takes the response in one step, and PORT accepts
the word in the next. -/
theorem run_two_of_resp_of_word {r : Response} {ts : List ResponseAction}
    (hp : s.port = .resp r) (hdefined : r.status.toNat ≤ 5)
    (hresets : ∀ b ∈ s.host.resets.take 2, b = false)
    (hc : s.host.commands = .word w :: cs) (ht : s.host.responses = .take :: ts) :
    core.run 2 s =
      .next ((s.setPort (if commandLength w = 3 then .collect0 w else .busy ⟨w, []⟩)).setHost
        ⟨cs, tickResponses ts, s.host.resets.drop 2, s.host.received ++ [r]⟩) := by
  have htake := step_of_resp_of_take_defined (headD_of_take hresets) hp hdefined ht
  rw [hc, tickCommands_word] at htake
  have haccept := step_of_idle_of_word (w := w) (cs := cs)
    (s := (s.setPort .idle).setHost ⟨.word w :: cs, ts, s.host.resets.tail, s.host.received ++ [r]⟩)
    (headD_of_take (tail_take_of_take hresets)) rfl rfl
  rw [run_succ_of_step htake, run_succ_of_step haccept, ← List.drop_one, ← List.drop_one]
  simp only [setHost_host, List.drop_drop]
  rfl

end

/-- Settles O11, one clause for each way a word on the command port can fare. -/
theorem wordsAreAcceptedOnlyInIdleAndCollect : Obligations.WordsAreAcceptedOnlyInIdleAndCollect := by
  refine ⟨fun s w cs hr hc => ⟨?_, ?_, ?_⟩, fun s hr hc hp => step_of_noWord hr hc hp, ?_, ?_⟩
  · exact fun hp => step_of_idle_of_word hr hp hc
  · exact fun h hp => step_of_collect0_of_word hr hp hc
  · exact fun h a hp => step_of_collect1_of_word hr hp hc
  · intro s t w cs hr hc hp h
    rw [commands_of_step_of_busy_or_resp hr hp h, hc, tickCommands_word]
  · intro s r w cs ts hp hdefined hresets hc ht
    refine ⟨?_, run_two_of_resp_of_word hp hdefined hresets hc ht⟩
    rw [step_of_resp_of_take_defined (headD_of_take hresets) hp hdefined ht, hc, tickCommands_word]

/-! ### A command that decodes is complete -/

/-- R76 read backwards and forwards again. -/
theorem opc_of_opOfOpc {v : BitVec 8} {op : Op} (h : opOfOpc v = some op) : v = op.opc := by
  unfold opOfOpc at h
  split at h <;> cases h
  all_goals exact BitVec.eq_of_toNat_eq (by assumption)

/-- R78: the header of a command has the command's opcode. -/
theorem opcOf_of_decodeHeader {h : Word} {op : Op} {k : SlotId} {n : BitVec 7}
    (hd : decodeHeader h = .ok (op, k, n)) : opcOf h = op.opc := by
  unfold decodeHeader at hd
  cases hop : opOfOpc (opcOf h) with
  | none => simp [hop] at hd
  | some op' =>
    cases hslot : slotField op' (slotOf h) with
    | error e =>
      simp only [hop, hslot] at hd
      split_ifs at hd
    | ok k' =>
      simp only [hop, hslot] at hd
      split_ifs at hd
      cases hd
      exact opc_of_opOfOpc hop

/-- R70, R73: the two CFG commands take two words after the header, and the others none. -/
theorem length_of_assembleOperands {op : Op} {k : SlotId} {n : BitVec 7} {ws rest : List Word}
    {i : Instr} (h : assembleOperands op k n ws = .ok (i, rest)) :
    ws.length = (if op = .cfgFib ∨ op = .cfgGal then 2 else 0) + rest.length := by
  cases op with
  | cfgFib | cfgGal =>
    match ws with
    | [] | [_] => cases h
    | _ :: _ :: _ =>
      cases h
      exact Nat.add_comm _ 2
  | _ =>
    cases h
    simp

/-- R71: the length of a command by its opcode. -/
theorem commandLength_of_opcOf {h : Word} {op : Op} (hop : opcOf h = op.opc) :
    commandLength h = (if op = .cfgFib ∨ op = .cfgGal then 2 else 0) + 1 := by
  rw [commandLength, hop]
  cases op <;> rfl

/-- The words that decode to one command are as many as R71 asks for. -/
theorem complete_of_decodeCommand {c : Command} {i : Instr} (h : decodeCommand c = .ok i) :
    c.complete = true := by
  have hdecode : decode (c.header :: c.operands) = .ok (i, []) := by
    unfold decodeCommand at h
    split at h <;> cases h
    assumption
  rw [decode] at hdecode
  split at hdecode
  · cases hdecode
  · rename_i op k n hheader
    have hlength := length_of_assembleOperands hdecode
    have hwords := commandLength_of_opcOf (opcOf_of_decodeHeader hheader)
    simp [Command.complete, hlength, hwords]

/-- A command that decodes is the one the block executes (R51, R56). -/
theorem runCommand_of_decodeCommand {c : Command} {i : Instr} (h : decodeCommand c = .ok i)
    (s : State) : runCommand c s = exec i s := by
  rw [runCommand, if_pos (complete_of_decodeCommand h), h]

/-- Settles O10: the command runs, and the host's side ticks. -/
theorem stepRunsTheDecodedCommand : Obligations.StepRunsTheDecodedCommand := by
  refine ⟨fun s c i hp hdecode hr => ?_, fun h w cs => ⟨?_, ?_, ?_⟩,
    fun h ts => ⟨?_, ?_, ?_⟩, fun h => ⟨rfl, rfl⟩⟩
  · rw [step_of_busy hr hp, runCommand_of_decodeCommand hdecode, State.tick]
  all_goals
    intro hport
    simp [hport]

/-! ### The frames of the binds and RELEASE -/

/-- What a slot has before a command and after its effect, it has after the command. -/
theorem Completes.slot {Q : State → Prop} {P : Slot → Prop} {k : SlotId} {s t : State}
    (h : Completes Q s t) (hs : P (s.slot k)) (hQ : ∀ u, Q u → P (u.slot k)) : P (t.slot k) :=
  h.elim (P := fun u => P (u.slot k)) (fun u p hu => by rwa [slot_setPort]) hs hQ

/-- A command whose effect is on CMB alone changes no slot. -/
theorem Completes.slot_eq_of_setCmb {Q : State → Prop} {s t : State} (h : Completes Q s t)
    (hQ : ∀ u, Q u → ∃ c, u = s.setCmb c) (k : SlotId) : t.slot k = s.slot k := by
  refine h.slot (P := (· = s.slot k)) rfl fun u hu => ?_
  obtain ⟨c, rfl⟩ := hQ u hu
  exact slot_setCmb s c k

/-- Where a draw goes on from: its slot one step later (R220). -/
theorem draw_bind_ends_after {α : Type} {k : SlotId} {s : State} {f : Bool → State → Run α}
    {Q : State → Prop} (hf : ∀ b, (f b (s.setSlot k ((s.slot k).after 1))).Ends Q) :
    ((draw k s).bind f).Ends Q := by
  cases h : draw k s with
  | done b t =>
    obtain ⟨v, hv, rfl⟩ := draw_eq_done.mp h
    rw [bind_done, ← after_zero v, ← after_succ_of_step hv 0]
    exact hf b
  | exhausted t => exact absurd h (draw_ne_exhausted k s t)
  | endless => trivial
  | noSource => trivial

/-- R160: BIND_STOPGO draws once from each slot. -/
theorem bindStopgo_draws_advance (s : State) :
    ((draw .s0 s).bind fun b1 t1 => (draw .s1 t1).bind fun b2 t2 =>
      (draw .s2 t2).bind fun b3 t3 => .done () (t3.setCmb (.stopgo b1 b2 b3))).Ends
      fun u => ∃ c, u = (s.advance 1 1 1).setCmb c :=
  draw_bind_ends_after fun _ => draw_bind_ends_after fun _ => draw_bind_ends_after fun _ => ⟨_, rfl⟩

theorem exec_bindStopgo_completes {s t : State} (h : exec .bindStopgo s = .next t) :
    Completes (fun u => firstFailing (checksBind3 s) = none ∧ ∃ c, u = (s.advance 1 1 1).setCmb c)
      s t :=
  have hrun : execBindStopgo s = .next t := h
  guarded_finish_completes hrun (bindStopgo_draws_advance s)

theorem slot_advance_one (s : State) (k : SlotId) :
    (s.advance 1 1 1).slot k = (s.slot k).after 1 := by
  cases k <;> rfl

/-- R140, R180, R200: the binds that draw nothing change no slot. -/
theorem slot_of_exec_bind {i : Instr} {s t : State} (h : exec i s = .next t)
    (hi : i = .bindGeffe ∨ i = .bindShrink ∨ i = .bindSshrink) (k : SlotId) :
    t.slot k = s.slot k := by
  rcases hi with rfl | rfl | rfl
  · exact (exec_completes h).slot_eq_of_setCmb (fun u hu => ⟨.geffe, hu.2⟩) k
  · exact (exec_completes h).slot_eq_of_setCmb (fun u hu => ⟨.shrink, hu.2⟩) k
  · exact (exec_completes h).slot_eq_of_setCmb (fun u hu => ⟨.sshrink, hu.2⟩) k

/-- R160: BIND_STOPGO draws from a slot once, or not at all when it raises a status. -/
theorem slot_of_exec_bindStopgo {s t : State} (h : exec .bindStopgo s = .next t) (k : SlotId) :
    t.slot k = s.slot k ∨ t.slot k = (s.slot k).after 1 := by
  refine (exec_bindStopgo_completes h).slot (P := fun v => v = s.slot k ∨ v = (s.slot k).after 1)
    (.inl rfl) ?_
  rintro u ⟨-, c, rfl⟩
  exact .inr (by rw [slot_setCmb, slot_advance_one])

/-- R226: RELEASE leaves the free slots. -/
theorem slot_of_exec_release {s t : State} (h : exec .release s = .next t) {k : SlotId}
    (hk : s.owned k = false) : t.slot k = s.slot k := by
  refine (exec_completes h).slot (P := (· = s.slot k)) rfl ?_
  rintro u ⟨-, rfl⟩
  simp [slot_releaseOwned, hk]

/-- Settles O21: what each of these commands leaves of a slot, and the host's side, which no command
changes. -/
theorem bindsAndReleaseKeepTheOtherState : Obligations.BindsAndReleaseKeepTheOtherState := by
  intro i s t h
  have hhost := host_of_exec h
  refine ⟨fun hi => ⟨slot_of_exec_bind h hi, hhost⟩, ?_, ?_⟩
  · rintro rfl
    exact ⟨slot_of_exec_bindStopgo h, hhost⟩
  · rintro rfl
    exact ⟨fun k hk => slot_of_exec_release h hk, hhost⟩

end Sys2Proof.Machine
end

section
/-! PROOFS of the family 30_encoding.md: a header word is its five fields, so the encoder, the match and
mask words and the decoder are compared field by field; then how PORT collects the words of a command,
and what the assembler emits and refuses. -/

namespace Sys2Proof.Machine

/-! ### The five fields of a header word (R72), as numbers -/

section
variable (h : Word)

theorem toNat_rsvHiOf : (rsvHiOf h).toNat = h.toNat / 2 ^ 32 := by
  rw [rsvHiOf, BitVec.extractLsb'_toNat, Nat.shiftRight_eq_div_pow]
  omega

theorem toNat_opcOf : (opcOf h).toNat = h.toNat / 2 ^ 24 % 2 ^ 8 := by
  rw [opcOf, BitVec.extractLsb'_toNat, Nat.shiftRight_eq_div_pow]

theorem toNat_slotOf : (slotOf h).toNat = h.toNat / 2 ^ 22 % 2 ^ 2 := by
  rw [slotOf, BitVec.extractLsb'_toNat, Nat.shiftRight_eq_div_pow]

theorem toNat_rsvLoOf : (rsvLoOf h).toNat = h.toNat / 2 ^ 7 % 2 ^ 15 := by
  rw [rsvLoOf, BitVec.extractLsb'_toNat, Nat.shiftRight_eq_div_pow]

theorem toNat_countOf : (countOf h).toNat = h.toNat % 2 ^ 7 := by
  rw [countOf, BitVec.extractLsb'_toNat, Nat.shiftRight_zero]

end

/-- R72: the fields of an encoded header stand side by side. -/
theorem toNat_encodeHeader (op : Op) (k : SlotId) (n : BitVec 7) :
    (encodeHeader op k n).toNat = 2 ^ 24 * op.opc.toNat + (2 ^ 22 * k.field.toNat + n.toNat) := by
  have hopc := op.opc.isLt
  have hslot := k.field.isLt
  have hcount := n.isLt
  have hlow : 2 ^ 22 * k.field.toNat + n.toNat < 2 ^ 24 := by omega
  rw [Nat.two_pow_add_eq_or_of_lt hlow, Nat.two_pow_add_eq_or_of_lt (by omega), ← Nat.or_assoc]
  simp (disch := omega) only [encodeHeader, BitVec.toNat_or, BitVec.toNat_shiftLeft,
    BitVec.toNat_setWidth, Nat.shiftLeft_eq, Nat.mod_eq_of_lt, Nat.mul_comm]

/-- R72: the encoded header is the one word with these fields, and every other bit 0. -/
theorem eq_encodeHeader_iff {h : Word} {op : Op} {k : SlotId} {n : BitVec 7} :
    h = encodeHeader op k n ↔ opcOf h = op.opc ∧ rsvHiOf h = 0#32 ∧ rsvLoOf h = 0#15 ∧
      slotOf h = k.field ∧ countOf h = n := by
  have hopc := op.opc.isLt
  have hslot := k.field.isLt
  have hcount := n.isLt
  simp only [← BitVec.toNat_inj, toNat_encodeHeader, toNat_opcOf, toNat_rsvHiOf, toNat_rsvLoOf,
    toNat_slotOf, toNat_countOf, BitVec.toNat_ofNat]
  omega

/-! ### The checks of the decoder (R74, R75, R76) -/

/-- R76 read forwards and backwards. -/
theorem opOfOpc_eq_some_iff {v : BitVec 8} {op : Op} : opOfOpc v = some op ↔ v = op.opc := by
  refine ⟨opc_of_opOfOpc, ?_⟩
  rintro rfl
  cases op <;> rfl

/-- R76, R83: two commands have two opcodes. -/
theorem opc_injective {op op' : Op} (h : op.opc = op'.opc) : op = op' :=
  Option.some_injective _ <|
    (opOfOpc_eq_some_iff.mpr rfl).symm.trans (opOfOpc_eq_some_iff.mpr h)

/-- R75: the slot that SLOT names has SLOT as its field. -/
theorem slotIdOf_eq_some_iff {v : BitVec 2} {k : SlotId} : slotIdOf v = some k ↔ v = k.field := by
  revert v
  cases k <;> decide

/-- R75: SLOT names a slot unless it is 3. -/
theorem exists_eq_field_iff {v : BitVec 2} : (∃ k : SlotId, v = k.field) ↔ v ≠ 3#2 := by
  constructor
  · rintro ⟨k, rfl⟩
    cases k <;> decide
  · intro h
    match v with
    | 0#2 => exact ⟨.s0, rfl⟩
    | 1#2 => exact ⟨.s1, rfl⟩
    | 2#2 => exact ⟨.s2, rfl⟩
    | 3#2 => exact absurd rfl h

/-- R75: what SLOT may be under a command. -/
theorem slotField_eq_ok_iff {op : Op} {v : BitVec 2} {k : SlotId} :
    slotField op v = .ok k ↔ v = k.field ∧ (op.namesSlot = false → k = .s0) := by
  cases hnames : op.namesSlot with
  | true =>
    cases hk : slotIdOf v with
    | none => simp [slotField, hnames, hk, ← slotIdOf_eq_some_iff]
    | some id => simp [slotField, hnames, hk, ← slotIdOf_eq_some_iff]
  | false =>
    by_cases hv : v = 0#2
    · subst hv
      cases k <;> simp [slotField, hnames, SlotId.field]
    · simp only [slotField, hnames, hv, Bool.false_eq_true, if_false, false_iff, reduceCtorEq]
      rintro ⟨rfl, hs0⟩
      obtain rfl := hs0 trivial
      exact hv rfl

/-- R74: what N may be under a command. -/
theorem admitsCount_iff {op : Op} {n : BitVec 7} : op.admitsCount n = true ↔
    (op ∈ [Op.srcGetn, Op.cmbGetn] → n.toNat ≤ 64) ∧
      (op ∉ [Op.srcGetn, Op.cmbGetn, Op.cfgFib] → n = 0#7) := by
  cases op with
  | srcGetn | cmbGetn =>
    change decide (n.toNat ≤ 64) = true ↔ _
    simp
  | _ => simp [Op.admitsCount]

/-- R78: a header decodes exactly when it passes every check. -/
theorem decodeHeader_eq_ok_iff {h : Word} {op : Op} {k : SlotId} {n : BitVec 7} :
    decodeHeader h = .ok (op, k, n) ↔ h = encodeHeader op k n ∧
      (op.namesSlot = false → k = .s0) ∧ op.admitsCount n = true := by
  rw [eq_encodeHeader_iff]
  constructor
  · intro hd
    unfold decodeHeader at hd
    split at hd
    · cases hd
    rename_i hop
    split at hd
    · cases hd
    rename_i hrsv
    obtain ⟨hhi, hlo⟩ := not_or.mp hrsv
    split at hd
    · cases hd
    rename_i hslot
    split at hd <;> cases hd
    rename_i hcount
    obtain ⟨hfield, hs0⟩ := slotField_eq_ok_iff.mp hslot
    exact ⟨⟨opc_of_opOfOpc hop, not_not.mp hhi, not_not.mp hlo, hfield, rfl⟩, hs0, hcount⟩
  · rintro ⟨⟨hopc, hhi, hlo, hslot, rfl⟩, hs0, hcount⟩
    simp [decodeHeader, opOfOpc_eq_some_iff.mpr hopc, hhi, hlo, slotField_eq_ok_iff.mpr ⟨hslot, hs0⟩,
      hcount]

/-! ### Commands and their words (R70, R73, R81) -/

/-- R70: a list of words decodes as its header does, with the operands after it. -/
theorem decode_cons_eq_ok_iff {h : Word} {ws : List Word} {r : Instr × List Word} :
    decode (h :: ws) = .ok r ↔
      ∃ op k n, decodeHeader h = .ok (op, k, n) ∧ assembleOperands op k n ws = .ok r := by
  rw [decode]
  cases decodeHeader h with
  | error e => simp
  | ok d =>
    obtain ⟨op, k, n⟩ := d
    constructor
    · exact fun h => ⟨op, k, n, rfl, h⟩
    · rintro ⟨op', k', n', hd, h⟩
      cases hd
      exact h

/-- R72, R74, R75: the fields a command puts in its header pass the decoder's checks, and its operand
words give it back. -/
theorem encode_eq_cons {i : Instr} (h : i.wf = true) : ∃ op k n operands,
    encode i = encodeHeader op k n :: operands ∧
    (op.namesSlot = false → k = .s0) ∧ op.admitsCount n = true ∧
    ∀ rest, assembleOperands op k n (operands ++ rest) = .ok (i, rest) := by
  cases i with
  | cfgFib | cfgGal | srcNext | srcGetn => exact ⟨_, _, _, _, rfl, nofun, h, fun _ => rfl⟩
  | _ => exact ⟨_, _, _, _, rfl, fun _ => rfl, h, fun _ => rfl⟩

/-- Settles O1: the header passes the checks, and the operand words are taken as they stand. -/
theorem decodeOfEncodeIsTheInstruction : Obligations.DecodeOfEncodeIsTheInstruction := by
  intro i rest h
  obtain ⟨op, k, n, operands, hwords, hs0, hcount, hoperands⟩ := encode_eq_cons h
  rw [hwords, List.cons_append, decode_cons_eq_ok_iff]
  exact ⟨op, k, n, decodeHeader_eq_ok_iff.mpr ⟨rfl, hs0, hcount⟩, hoperands rest⟩

/-- R72, R73: the command that a checked header and its operand words make is well formed and has these
words. -/
theorem wf_and_encode_of_assembleOperands {op : Op} {k : SlotId} {n : BitVec 7} {ws rest : List Word}
    {i : Instr} (hs0 : op.namesSlot = false → k = .s0) (hcount : op.admitsCount n = true)
    (h : assembleOperands op k n ws = .ok (i, rest)) :
    i.wf = true ∧ encodeHeader op k n :: ws = encode i ++ rest := by
  have hzero := (admitsCount_iff.mp hcount).2
  cases op with
  | cfgFib =>
    match ws with
    | [] | [_] => cases h
    | _ :: _ :: _ =>
      cases h
      exact ⟨rfl, rfl⟩
  | cfgGal =>
    obtain rfl := hzero (by decide)
    match ws with
    | [] | [_] => cases h
    | _ :: _ :: _ =>
      cases h
      exact ⟨rfl, rfl⟩
  | srcNext =>
    obtain rfl := hzero (by decide)
    cases h
    exact ⟨rfl, rfl⟩
  | srcGetn =>
    cases h
    exact ⟨hcount, rfl⟩
  | cmbGetn =>
    obtain rfl := hs0 rfl
    cases h
    exact ⟨hcount, rfl⟩
  | _ =>
    obtain rfl := hs0 rfl
    obtain rfl := hzero (by decide)
    cases h
    exact ⟨rfl, rfl⟩

/-- Settles O2: a header that passes the checks is the encoder's, and so are its operand words. -/
theorem encodeOfDecodeIsTheWords : Obligations.EncodeOfDecodeIsTheWords := by
  intro ws rest i h
  cases ws with
  | nil => cases h
  | cons w ws =>
    obtain ⟨op, k, n, hheader, hoperands⟩ := decode_cons_eq_ok_iff.mp h
    obtain ⟨rfl, hs0, hcount⟩ := decodeHeader_eq_ok_iff.mp hheader
    exact wf_and_encode_of_assembleOperands hs0 hcount hoperands

/-! ### The match and mask words (R76) -/

/-- R76: the match word is the header with nothing but the opcode in it. -/
theorem matchWord_eq_encodeHeader (op : Op) : op.matchWord = encodeHeader op .s0 0#7 := by
  simp [Op.matchWord, encodeHeader, SlotId.field]

section
variable (g h : Word)

theorem opcOf_and : opcOf (g &&& h) = opcOf g &&& opcOf h := BitVec.extractLsb'_and

theorem rsvHiOf_and : rsvHiOf (g &&& h) = rsvHiOf g &&& rsvHiOf h := BitVec.extractLsb'_and

theorem rsvLoOf_and : rsvLoOf (g &&& h) = rsvLoOf g &&& rsvLoOf h := BitVec.extractLsb'_and

theorem slotOf_and : slotOf (g &&& h) = slotOf g &&& slotOf h := BitVec.extractLsb'_and

theorem countOf_and : countOf (g &&& h) = countOf g &&& countOf h := BitVec.extractLsb'_and

end

/-- R76: which fields each mask covers. SLOT is free on the slot commands, N where it is an operand. -/
theorem fields_maskWord (op : Op) :
    opcOf op.maskWord = BitVec.allOnes 8 ∧ rsvHiOf op.maskWord = BitVec.allOnes 32 ∧
      rsvLoOf op.maskWord = BitVec.allOnes 15 ∧
      slotOf op.maskWord = (if op.namesSlot = false then BitVec.allOnes 2 else 0#2) ∧
      countOf op.maskWord =
        (if op ∉ [Op.srcGetn, Op.cmbGetn, Op.cfgFib] then BitVec.allOnes 7 else 0#7) := by
  cases op <;> decide

/-- A field under a mask that covers it exactly when `p` holds. -/
theorem and_ite_allOnes_eq_zero_iff {w : Nat} {p : Prop} [Decidable p] {v : BitVec w} :
    v &&& (if p then BitVec.allOnes w else 0#w) = 0#w ↔ (p → v = 0#w) := by
  split_ifs with hp <;> simp [hp]

/-- R76: what the match and the mask ask of a header, field by field. -/
theorem and_maskWord_eq_matchWord_iff {h : Word} {op : Op} :
    h &&& op.maskWord = op.matchWord ↔ opcOf h = op.opc ∧ rsvHiOf h = 0#32 ∧ rsvLoOf h = 0#15 ∧
      (op.namesSlot = false → slotOf h = 0#2) ∧
      (op ∉ [Op.srcGetn, Op.cmbGetn, Op.cfgFib] → countOf h = 0#7) := by
  obtain ⟨hopc, hhi, hlo, hslot, hcount⟩ := fields_maskWord op
  rw [matchWord_eq_encodeHeader, eq_encodeHeader_iff, opcOf_and, rsvHiOf_and, rsvLoOf_and, slotOf_and,
    countOf_and, hopc, hhi, hlo, hslot, hcount, BitVec.and_allOnes, BitVec.and_allOnes,
    BitVec.and_allOnes, SlotId.field, and_ite_allOnes_eq_zero_iff, and_ite_allOnes_eq_zero_iff]

/-- R75, R78: the two constraints on SLOT, the one a mask expresses and the one it does not, say that
the field is a slot's, and S0's where no slot is named. -/
theorem exists_slot_iff {op : Op} {v : BitVec 2} :
    (∃ k : SlotId, v = k.field ∧ (op.namesSlot = false → k = .s0)) ↔
      (op.namesSlot = false → v = 0#2) ∧ (op.namesSlot = true → v ≠ 3#2) := by
  cases op.namesSlot with
  | true => simpa using exists_eq_field_iff
  | false => simp [SlotId.field]

/-- Settles O4: both sides are compared field by field. -/
theorem matchAndMaskSelectTheCommand : Obligations.MatchAndMaskSelectTheCommand := by
  intro h op
  rw [and_maskWord_eq_matchWord_iff]
  simp only [decodeHeader_eq_ok_iff, eq_encodeHeader_iff, admitsCount_iff]
  constructor
  · rintro ⟨k, n, ⟨hopc, hhi, hlo, hfield, rfl⟩, hs0, hle, hzero⟩
    obtain ⟨hslot0, hslot3⟩ := exists_slot_iff.mp ⟨k, hfield, hs0⟩
    exact ⟨⟨hopc, hhi, hlo, hslot0, hzero⟩, hslot3, hle⟩
  · rintro ⟨⟨hopc, hhi, hlo, hslot0, hzero⟩, hslot3, hle⟩
    obtain ⟨k, hfield, hs0⟩ := exists_slot_iff.mpr ⟨hslot0, hslot3⟩
    exact ⟨k, _, ⟨hopc, hhi, hlo, hfield, rfl⟩, hs0, hle, hzero⟩

/-- R83: the opcode of a header picks its match word. -/
theorem op_eq_of_match {h : Word} {op op' : Op} (hop : opcOf h = op.opc)
    (h' : h &&& op'.maskWord = op'.matchWord) : op' = op := by
  obtain ⟨hop', -⟩ := and_maskWord_eq_matchWord_iff.mp h'
  exact opc_injective (hop'.symm.trans hop)

/-- Settles O5: a step in IDLE, the two answers of the decoder, and the opcodes' being different. -/
theorem everyHeaderIsOneCommandOrIllegal : Obligations.EveryHeaderIsOneCommandOrIllegal := by
  refine ⟨fun s h cs hp hr hc => ?_, fun h => ?_, fun h op op' hm hm' => ?_⟩
  · refine ⟨_, ?_, step_of_idle_of_word hr hp hc⟩
    split
    · exact .inl rfl
    · exact .inr rfl
  · cases hd : decodeHeader h with
    | error e => exact .inr ⟨e, rfl⟩
    | ok d =>
      obtain ⟨op, k, n⟩ := d
      exact .inl ⟨op, k, n, rfl, fun op' => op_eq_of_match (opcOf_of_decodeHeader hd)⟩
  · exact op_eq_of_match (and_maskWord_eq_matchWord_iff.mp hm').1 hm

/-! ### Collecting the words of a command (R71) -/

/-- The state after PORT has accepted a word and become `p`, with `cs` left on the command port. -/
def State.accepted (s : State) (p : Port) (cs : List CommandAction) : State :=
  (s.setPort p).setHost ⟨cs, tickResponses s.host.responses, s.host.resets.tail, s.host.received⟩

/-- A reset input that stays low for some steps is low in the last of them. -/
theorem headD_drop_of_take {rs : List Bool} {n : Nat} (h : ∀ b ∈ rs.take (n + 1), b = false) :
    (rs.drop n).headD false = false := by
  induction n generalizing rs with
  | zero => exact headD_of_take h
  | succ n ih => simpa using ih (tail_take_of_take h)

section
variable {s : State} {w : Word} {cs : List CommandAction} {m : Nat}

theorem run_of_idle_of_word (hr : ∀ b ∈ s.host.resets.take (m + 1), b = false) (hp : s.port = .idle)
    (hc : s.host.commands = .word w :: cs) :
    core.run (m + 1) s =
      core.run m (s.accepted (if commandLength w = 3 then .collect0 w else .busy ⟨w, []⟩) cs) :=
  run_succ_of_step (step_of_idle_of_word (headD_of_take hr) hp hc) m

theorem run_of_collect0_of_word {h : Word} (hr : ∀ b ∈ s.host.resets.take (m + 1), b = false)
    (hp : s.port = .collect0 h) (hc : s.host.commands = .word w :: cs) :
    core.run (m + 1) s = core.run m (s.accepted (.collect1 h w) cs) :=
  run_succ_of_step (step_of_collect0_of_word (headD_of_take hr) hp hc) m

theorem run_of_collect1_of_word {h a : Word} (hr : ∀ b ∈ s.host.resets.take (m + 1), b = false)
    (hp : s.port = .collect1 h a) (hc : s.host.commands = .word w :: cs) :
    core.run (m + 1) s = core.run m (s.accepted (.busy ⟨h, [a, w]⟩) cs) :=
  run_succ_of_step (step_of_collect1_of_word (headD_of_take hr) hp hc) m

end

/-- The state once PORT has collected the command `c`, one word a step, with `cs` left on the command
port. -/
def State.collected (s : State) (c : Command) (cs : List CommandAction) : State :=
  (s.setPort (.busy c)).setHost ⟨cs, tickResponses^[c.operands.length + 1] s.host.responses,
    s.host.resets.drop (c.operands.length + 1), s.host.received⟩

/-- R71: PORT holds the complete command after as many steps as it has words, and the run goes on from
there. -/
theorem run_collects {s : State} {h : Word} {ws : List Word} {cs : List CommandAction} (m : Nat)
    (hp : s.port = .idle) (hlen : ws.length + 1 = commandLength h)
    (hc : s.host.commands = (h :: ws).map CommandAction.word ++ cs)
    (hr : ∀ b ∈ s.host.resets.take (m + (ws.length + 1)), b = false) :
    core.run (m + (ws.length + 1)) s = core.run m (s.collected ⟨h, ws⟩ cs) := by
  have hheader := run_of_idle_of_word (m := m + ws.length) hr hp hc
  rcases commandLength_eq h with hthree | hone
  · obtain ⟨a, b, rfl⟩ := List.length_eq_two.mp (show ws.length = 2 by omega)
    rw [if_pos hthree] at hheader
    have hr' := tail_take_of_take (n := m + 2) hr
    refine hheader.trans ((run_of_collect0_of_word hr' rfl rfl).trans
      ((run_of_collect1_of_word (tail_take_of_take hr') rfl rfl).trans ?_))
    simp only [State.accepted, setHost_host, ← List.drop_one, List.drop_drop]
    rfl
  · obtain rfl := List.length_eq_zero_iff.mp (show ws.length = 0 by omega)
    have hne : commandLength h ≠ 3 := by omega
    rw [if_neg hne, State.accepted, ← List.drop_one] at hheader
    exact hheader

/-- Settles O9: the collected state is the one named there. -/
theorem commandWordsAreCollectedByLength : Obligations.CommandWordsAreCollectedByLength := by
  intro s h ws cs hp hlen hc hr
  have hrun := run_collects 0 hp hlen hc (by rwa [Nat.zero_add])
  rw [Nat.zero_add] at hrun
  exact hrun

/-- R77, R78: a complete command whose header is ILLEGAL answers ILLEGAL_COMMAND. -/
theorem runCommand_of_illegal {h : Word} {ws : List Word} {e : DecodeError}
    (hd : decodeHeader h = .error e) (hlen : ws.length + 1 = commandLength h) (s : State) :
    runCommand ⟨h, ws⟩ s = .next (raise .illegalCommand s) := by
  simp [runCommand, Command.complete, hlen, decodeCommand, decode, hd]

/-- R77, R78: an ILLEGAL command that PORT has collected is answered in the next step. -/
theorem step_of_collected_of_illegal {s : State} {h : Word} {ws : List Word}
    {cs : List CommandAction} {e : DecodeError} (hd : decodeHeader h = .error e)
    (hlen : ws.length + 1 = commandLength h)
    (hr : ∀ b ∈ s.host.resets.take (ws.length + 2), b = false) :
    step (s.collected ⟨h, ws⟩ cs) =
      answered 1#4 0#64 (s.setHost ⟨tickCommands cs, tickResponses^[ws.length + 2] s.host.responses,
        s.host.resets.drop (ws.length + 2), s.host.received⟩) := by
  have hbusy := step_of_busy (s := s.collected ⟨h, ws⟩ cs) (headD_drop_of_take hr) rfl
  rw [hbusy, runCommand_of_illegal hd hlen, raise_eq, Function.iterate_succ_apply', ← List.tail_drop]
  rfl

/-- Settles O3: the checks of the decoder, and an ILLEGAL header's words collected before its answer. -/
theorem headerDecodeAndIllegalHeaders : Obligations.HeaderDecodeAndIllegalHeaders := by
  refine ⟨fun h op k n => ?_, fun s h ws cs e hd hp hlen hc hr => ?_⟩
  · rw [decodeHeader_eq_ok_iff, eq_encodeHeader_iff, admitsCount_iff]
    simp only [and_assoc]
  · have hcollect := run_collects 1 hp hlen hc (by rwa [Nat.add_comm 1])
    have hanswer := step_of_collected_of_illegal (cs := cs) hd hlen hr
    rw [Nat.add_comm] at hcollect
    exact hcollect.trans (run_succ_of_step hanswer 0)

/-! ### Fixed words and opcodes -/

/-- Settles O6: each of these is the encoding of a command, word for word. -/
theorem wordsOfTheTestVectorsDecode : Obligations.WordsOfTheTestVectorsDecode :=
  have h := decodeOfEncodeIsTheInstruction
  ⟨h (.cfgFib .s0 4#7 0xC#64 0x1#64) [] rfl, h (.cfgGal .s2 0x9#64 0x1#64) [] rfl,
    h (.srcNext .s1) [] rfl, h (.srcGetn .s2 4#7) [] rfl, h .bindStopgo [] rfl,
    h (.cmbGetn 64#7) [] rfl, h .geffeNextAlt [] rfl, h .release [] rfl⟩

/-- Settles O7, by evaluating the opcode map at every OPC value. -/
theorem reservedOpcodesNumber244 : Obligations.ReservedOpcodesNumber244 := by
  unfold Obligations.ReservedOpcodesNumber244
  decide +kernel

/-! ### The operands of the assembler (R81) -/

/-- R75, R81: K from 0 to 2 is a slot, whose field is K. -/
theorem asmSlot_of_le {k : Nat} (h : k ≤ 2) :
    ∃ id, asmSlot k = some id ∧ id.field.setWidth 64 = BitVec.ofNat 64 k := by
  match k, h with
  | 0, _ => exact ⟨.s0, rfl, rfl⟩
  | 1, _ => exact ⟨.s1, rfl, rfl⟩
  | 2, _ => exact ⟨.s2, rfl, rfl⟩

theorem asmSlot_of_ge {k : Nat} (h : 3 ≤ k) : asmSlot k = none := by
  obtain ⟨j, rfl⟩ := Nat.exists_eq_add_of_le' h
  rfl

theorem asmWord_of_lt {v : Nat} (h : v < 2 ^ 64) : asmWord v = some (BitVec.ofNat 64 v) := if_pos h

theorem asmWord_of_ge {v : Nat} (h : 2 ^ 64 ≤ v) : asmWord v = none := if_neg (Nat.not_lt.mpr h)

theorem asmLength_of_le {n : Nat} (h : n ≤ 127) : asmLength n = some (BitVec.ofNat 7 n) := if_pos h

theorem asmLength_of_gt {n : Nat} (h : 127 < n) : asmLength n = none := if_neg (Nat.not_le.mpr h)

theorem asmCount_of_le {n : Nat} (h : n ≤ 64) : asmCount n = some (BitVec.ofNat 7 n) := if_pos h

theorem asmCount_of_gt {n : Nat} (h : 64 < n) : asmCount n = none := if_neg (Nat.not_le.mpr h)

/-- R74, R81: a count that the assembler takes is one that the decoder admits. -/
theorem toNat_le_of_asmCount {n : Nat} {c : BitVec 7} (h : asmCount n = some c) : c.toNat ≤ 64 := by
  have hn : n ≤ 64 := by
    by_contra hn
    rw [asmCount_of_gt (Nat.not_le.mp hn)] at h
    cases h
  rw [asmCount_of_le hn] at h
  cases h
  exact (BitVec.toNat_ofNat n 7).trans_le ((Nat.mod_le _ _).trans hn)

/-- R72: the header of a command whose operands are numbers in range. -/
theorem encodeHeader_of_numbers (op : Op) {id : SlotId} {k n : Nat}
    (hk : id.field.setWidth 64 = BitVec.ofNat 64 k) (hn : n ≤ 127) :
    encodeHeader op id (BitVec.ofNat 7 n) =
      (op.opc.setWidth 64 <<< 24) ||| (BitVec.ofNat 64 k <<< 22) ||| BitVec.ofNat 64 n := by
  rw [encodeHeader, hk, BitVec.setWidth_ofNat_of_le_of_lt (by omega) (by omega)]

/-! ### Assembled lines (R81) -/

section
variable {k len n taps seed poly state : Nat}

theorem assemble_cfgFib (hk : k ≤ 2) (hlen : len ≤ 127) (htaps : taps < 2 ^ 64)
    (hseed : seed < 2 ^ 64) :
    assemble (.cfgFib k len taps seed) =
      some [(0x01#64 <<< 24) ||| (BitVec.ofNat 64 k <<< 22) ||| BitVec.ofNat 64 len,
        BitVec.ofNat 64 taps, BitVec.ofNat 64 seed] := by
  obtain ⟨id, hid, hfield⟩ := asmSlot_of_le hk
  have hheader := encodeHeader_of_numbers .cfgFib hfield hlen
  simp [assemble, asmInstr, hid, asmLength_of_le hlen, asmWord_of_lt htaps, asmWord_of_lt hseed, encode,
    hheader, Op.opc]

theorem assemble_cfgGal (hk : k ≤ 2) (hpoly : poly < 2 ^ 64) (hstate : state < 2 ^ 64) :
    assemble (.cfgGal k poly state) =
      some [(0x02#64 <<< 24) ||| (BitVec.ofNat 64 k <<< 22), BitVec.ofNat 64 poly,
        BitVec.ofNat 64 state] := by
  obtain ⟨id, hid, hfield⟩ := asmSlot_of_le hk
  have hheader := encodeHeader_of_numbers .cfgGal hfield (Nat.zero_le _)
  simp [assemble, asmInstr, hid, asmWord_of_lt hpoly, asmWord_of_lt hstate, encode, hheader, Op.opc]

theorem assemble_srcNext (hk : k ≤ 2) :
    assemble (.srcNext k) = some [(0x03#64 <<< 24) ||| (BitVec.ofNat 64 k <<< 22)] := by
  obtain ⟨id, hid, hfield⟩ := asmSlot_of_le hk
  have hheader := encodeHeader_of_numbers .srcNext hfield (Nat.zero_le _)
  simp [assemble, asmInstr, hid, encode, hheader, Op.opc]

theorem assemble_srcGetn (hk : k ≤ 2) (hn : n ≤ 64) :
    assemble (.srcGetn k n) =
      some [(0x04#64 <<< 24) ||| (BitVec.ofNat 64 k <<< 22) ||| BitVec.ofNat 64 n] := by
  obtain ⟨id, hid, hfield⟩ := asmSlot_of_le hk
  have hheader := encodeHeader_of_numbers .srcGetn hfield (n := n) (by omega)
  simp [assemble, asmInstr, hid, asmCount_of_le hn, encode, hheader, Op.opc]

theorem assemble_cmbGetn (hn : n ≤ 64) :
    assemble (.cmbGetn n) = some [(0x21#64 <<< 24) ||| BitVec.ofNat 64 n] := by
  have hheader := encodeHeader_of_numbers .cmbGetn (id := .s0) (k := 0) rfl (n := n) (by omega)
  simp [assemble, asmInstr, asmCount_of_le hn, encode, hheader, Op.opc]

theorem assemble_word {v : Nat} (h : v < 2 ^ 64) : assemble (.word v) = some [BitVec.ofNat 64 v] := by
  simp [assemble, asmWord_of_lt h]

end

/-! ### Refused lines (R81) -/

theorem assemble_cfgFib_eq_none {k len taps seed : Nat}
    (h : 3 ≤ k ∨ 128 ≤ len ∨ 2 ^ 64 ≤ taps ∨ 2 ^ 64 ≤ seed) :
    assemble (.cfgFib k len taps seed) = none := by
  rcases h with h | h | h | h
  · simp [assemble, asmInstr, asmSlot_of_ge h]
  · simp [assemble, asmInstr, asmLength_of_gt h]
  · simp [assemble, asmInstr, asmWord_of_ge h]
  · simp [assemble, asmInstr, asmWord_of_ge h]

theorem assemble_cfgGal_eq_none {k poly state : Nat}
    (h : 3 ≤ k ∨ 2 ^ 64 ≤ poly ∨ 2 ^ 64 ≤ state) : assemble (.cfgGal k poly state) = none := by
  rcases h with h | h | h
  · simp [assemble, asmInstr, asmSlot_of_ge h]
  · simp [assemble, asmInstr, asmWord_of_ge h]
  · simp [assemble, asmInstr, asmWord_of_ge h]

theorem assemble_srcNext_eq_none {k : Nat} (h : 3 ≤ k) : assemble (.srcNext k) = none := by
  simp [assemble, asmInstr, asmSlot_of_ge h]

theorem assemble_srcGetn_eq_none {k n : Nat} (h : 3 ≤ k ∨ 64 < n) :
    assemble (.srcGetn k n) = none := by
  rcases h with h | h
  · simp [assemble, asmInstr, asmSlot_of_ge h]
  · simp [assemble, asmInstr, asmCount_of_gt h]

theorem assemble_cmbGetn_eq_none {n : Nat} (h : 64 < n) : assemble (.cmbGetn n) = none := by
  simp [assemble, asmInstr, asmCount_of_gt h]

theorem assemble_word_eq_none {v : Nat} (h : 2 ^ 64 ≤ v) : assemble (.word v) = none := by
  simp [assemble, asmWord_of_ge h]

/-! ### The pseudo-command and every other line (R82) -/

section
variable {k : Nat} {seed : List Bool} {taps : List Nat}

/-- R82: the pseudo-command is the CFG_FIB with the two sums, when its taps are distinct and in range. -/
theorem asmInstr_cfgFibSequence :
    asmInstr (.cfgFibSequence k seed taps) =
      if taps.Nodup ∧ ∀ t ∈ taps, t < seed.length then
        asmInstr (.cfgFib k seed.length (taps.map (2 ^ ·)).sum (sequenceValue seed))
      else none := by
  have hvalid : (taps.all (· < seed.length) && taps.Nodup) = true ↔
      taps.Nodup ∧ ∀ t ∈ taps, t < seed.length := by
    simp only [Bool.and_eq_true, List.all_eq_true, decide_eq_true_eq]
    exact and_comm
  exact if_congr hvalid rfl rfl

theorem assemble_cfgFibSequence (hnodup : taps.Nodup) (hrange : ∀ t ∈ taps, t < seed.length) :
    assemble (.cfgFibSequence k seed taps) =
      assemble (.cfgFib k seed.length (taps.map (2 ^ ·)).sum (sequenceValue seed)) :=
  congrArg (Option.map encode) (asmInstr_cfgFibSequence.trans (if_pos ⟨hnodup, hrange⟩))

theorem assemble_cfgFibSequence_eq_none (h : ¬taps.Nodup ∨ ∃ t ∈ taps, seed.length ≤ t) :
    assemble (.cfgFibSequence k seed taps) = none := by
  refine congrArg (Option.map encode) (asmInstr_cfgFibSequence.trans (if_neg ?_))
  rintro ⟨hnodup, hrange⟩
  rcases h with h | ⟨t, ht, hlen⟩
  · exact h hnodup
  · exact Nat.not_lt.mpr hlen (hrange t ht)

end

theorem wf_of_asmInstr_cfgFib {k len taps seed : Nat} {i : Instr}
    (h : asmInstr (.cfgFib k len taps seed) = some i) : i.wf = true := by
  simp only [asmInstr, Option.bind_eq_bind, Option.bind_eq_some_iff] at h
  obtain ⟨_, -, _, -, _, -, _, -, h⟩ := h
  cases h
  rfl

/-- R81: a line stands for a command that has an encoding. -/
theorem wf_of_asmInstr {line : AsmLine} {i : Instr} (h : asmInstr line = some i) : i.wf = true := by
  cases line with
  | srcGetn =>
    simp only [asmInstr, Option.bind_eq_bind, Option.bind_eq_some_iff] at h
    obtain ⟨_, -, c, hc, h⟩ := h
    cases h
    exact decide_eq_true (toNat_le_of_asmCount hc)
  | cmbGetn =>
    simp only [asmInstr, Option.bind_eq_bind, Option.bind_eq_some_iff] at h
    obtain ⟨c, hc, h⟩ := h
    cases h
    exact decide_eq_true (toNat_le_of_asmCount hc)
  | cfgFib => exact wf_of_asmInstr_cfgFib h
  | cfgGal =>
    simp only [asmInstr, Option.bind_eq_bind, Option.bind_eq_some_iff] at h
    obtain ⟨_, -, _, -, _, -, h⟩ := h
    cases h
    rfl
  | srcNext =>
    simp only [asmInstr, Option.bind_eq_bind, Option.bind_eq_some_iff] at h
    obtain ⟨_, -, h⟩ := h
    cases h
    rfl
  | cfgFibSequence =>
    rw [asmInstr_cfgFibSequence] at h
    split at h
    · exact wf_of_asmInstr_cfgFib h
    · cases h
  | word => cases h
  | _ =>
    cases h
    rfl

/-- A line other than `.word` is the words of its command. -/
theorem assemble_eq_map {line : AsmLine} (h : ∀ v, line ≠ .word v) :
    assemble line = (asmInstr line).map encode := by
  cases line with
  | word v => exact absurd rfl (h v)
  | _ => rfl

/-- R81, R82: the words of a line are a word of `.word` or the encoding of a command. -/
theorem assemble_cases {line : AsmLine} {ws : List Word} (h : assemble line = some ws) :
    (∃ v, line = .word v ∧ v < 2 ^ 64 ∧ ws = [BitVec.ofNat 64 v]) ∨
      ∃ i, asmInstr line = some i ∧ i.wf = true ∧ ws = encode i := by
  by_cases hword : ∃ v, line = .word v
  · left
    obtain ⟨v, rfl⟩ := hword
    rcases Nat.lt_or_ge v (2 ^ 64) with hv | hv
    · rw [assemble_word hv] at h
      exact ⟨v, rfl, hv, (Option.some.inj h).symm⟩
    · rw [assemble_word_eq_none hv] at h
      cases h
  · right
    rw [assemble_eq_map (not_exists.mp hword)] at h
    obtain ⟨i, hi, rfl⟩ := Option.map_eq_some_iff.mp h
    exact ⟨i, hi, wf_of_asmInstr hi, rfl⟩

/-- Settles O8, clause by clause. -/
theorem assemblerEmitsEncodingsAndRefuses : Obligations.AssemblerEmitsEncodingsAndRefuses :=
  ⟨fun _ _ _ _ => assemble_cfgFib, fun _ _ _ => assemble_cfgGal, fun _ => assemble_srcNext,
    fun _ _ => assemble_srcGetn, rfl, rfl, rfl, rfl, rfl, fun _ => assemble_cmbGetn, rfl, rfl,
    fun _ => assemble_word, fun _ _ => assemble_cases, fun _ _ _ => assemble_cfgFibSequence,
    fun _ _ _ => assemble_cfgFibSequence_eq_none,
    fun _ _ _ _ h => assemble_cfgFib_eq_none (h.imp_right .inl),
    fun _ _ _ h => assemble_cfgGal_eq_none (.inl h),
    fun _ _ _ _ h => assemble_cfgFib_eq_none (.inr (.inr h)),
    fun _ _ _ h => assemble_cfgGal_eq_none (.inr h),
    fun _ => assemble_word_eq_none, fun _ => assemble_srcNext_eq_none,
    fun _ _ => assemble_srcGetn_eq_none, fun _ => assemble_cmbGetn_eq_none⟩

end Sys2Proof.Machine
end

section
/-! PROOFS of the family 40_fibonacci_lfsr.md: the Fibonacci step read element by element, the linear map
inside it, and what runs of equal outputs make of a register. -/

namespace Sys2Proof.Machine

/-! ### The elements of a register (R22, R23) -/

/-- A word below 2^n has no bit at or above n. -/
theorem getLsbD_of_toNat_lt {v : Word} {n i : Nat} (h : v.toNat < 2 ^ n) (hi : n ≤ i) :
    v.getLsbD i = false :=
  Nat.testBit_lt_two_pow (Nat.lt_of_lt_of_le h (Nat.pow_le_pow_right (by decide) hi))

/-- Two words below 2^n with the same n elements are equal. -/
theorem eq_of_elements_eq {v w : Word} {n : Nat} (hv : v.toNat < 2 ^ n) (hw : w.toNat < 2 ^ n)
    (h : ∀ i < n, v.getLsbD i = w.getLsbD i) : v = w := by
  refine BitVec.eq_of_getLsbD_eq fun i _ => ?_
  rcases Nat.lt_or_ge i n with hi | hi
  · exact h i hi
  · rw [getLsbD_of_toNat_lt hv hi, getLsbD_of_toNat_lt hw hi]

theorem toNat_lowMask {n : Nat} (hn : n ≤ 64) : (lowMask n).toNat = 2 ^ n - 1 := by
  have hle : 2 ^ n ≤ 2 ^ 64 := Nat.pow_le_pow_right (by decide) hn
  have hpos := Nat.two_pow_pos n
  rw [lowMask, BitVec.toNat_ofNat, Nat.mod_eq_of_lt (by omega)]

theorem toNat_lowMask_lt {n : Nat} (hn : n ≤ 64) : (lowMask n).toNat < 2 ^ n := by
  rw [toNat_lowMask hn]
  exact Nat.sub_one_lt (Nat.two_pow_pos n).ne'

/-- The parity of a word below 2^n is that of its n elements. -/
theorem parityUpTo_of_toNat_lt {v : Word} {n m : Nat} (hv : v.toNat < 2 ^ n) (hnm : n ≤ m) :
    parityUpTo m v = parityUpTo n v := by
  induction m, hnm using Nat.le_induction with
  | base => rfl
  | succ m hm ih => rw [parityUpTo, getLsbD_of_toNat_lt hv hm, ih, Bool.false_xor]

theorem parityUpTo_twoPow {n : Nat} (hn : n < 64) (m : Nat) :
    parityUpTo m (BitVec.twoPow 64 n) = decide (n < m) := by
  induction m with
  | zero => rfl
  | succ m ih =>
    rw [parityUpTo, ih, BitVec.getLsbD_twoPow]
    rcases Nat.lt_trichotomy n m with h | rfl | h
    · simp [hn, h, h.ne, Nat.lt_succ_of_lt h]
    · simp [hn]
    · simp [h.ne', Nat.not_lt_of_gt h, Nat.not_lt.mpr h]

/-- One element alone has the parity of its tap. -/
theorem parity_twoPow_and {n : Nat} (hn : n < 64) (T : Word) :
    parity (BitVec.twoPow 64 n &&& T) = T.getLsbD n := by
  rw [BitVec.twoPow_and]
  cases T.getLsbD n with
  | false => exact parity_zero
  | true => exact (parityUpTo_twoPow hn 64).trans (decide_eq_true hn)

/-- Tap sets stay below 2^n under masking. -/
theorem toNat_and_lt {T : Word} {n : Nat} (hT : T.toNat < 2 ^ n) (r : Word) :
    (r &&& T).toNat < 2 ^ n := by
  rw [BitVec.toNat_and]
  exact Nat.and_lt_two_pow _ hT

/-! ### The word form and the source's algorithm (R100, R101) -/

/-- The accumulator of R100 is the complement of the parity of the tapped elements it has read. -/
theorem fibAccumulate_eq (T r : Word) {seq : List Bool} {n : Nat}
    (h : ∀ t < n, seq.getD t false = r.getLsbD t) :
    fibAccumulate T seq n = !parityUpTo n (r &&& T) := by
  induction n with
  | zero => rfl
  | succ n ih =>
    rw [fibAccumulate, ih fun t ht => h t (Nat.lt_succ_of_lt ht), h n (Nat.lt_succ_self n), parityUpTo,
      BitVec.getLsbD_and]
    cases T.getLsbD n <;> simp [Bool.xor_comm]

/-- Rotating and overwriting the front drops the last element and puts the accumulator before the others
(R101). -/
theorem set_rotateRight {seq : List Bool} (h : seq ≠ []) (acc : Bool) :
    (rotateRight seq).set 0 acc = acc :: seq.dropLast := by
  cases seq with
  | nil => exact absurd rfl h
  | cons b bs => rfl

theorem length_elements (n : Nat) (r : Word) : (elements n r).length = n := by
  simp [elements]

theorem getElem_elements {n i : Nat} (r : Word) (h : i < (elements n r).length) :
    (elements n r)[i] = r.getLsbD i := by
  simp [elements]

theorem getD_elements {n t : Nat} (r : Word) (h : t < n) :
    (elements n r).getD t false = r.getLsbD t := by
  simp [elements, h]

/-- The elements after the step: the output, and then every element but the last. -/
theorem elements_fibStep {L : BitVec 7} (hpos : 1 ≤ L.toNat) (hmax : L.toNat ≤ 64) (T r : Word) :
    elements L.toNat (fibStep L T r).2 = (fibStep L T r).1 :: (elements L.toNat r).dropLast := by
  refine List.ext_getElem (by simp [length_elements]; omega) fun i hi _ => ?_
  rw [getElem_elements, getLsbD_fibStep]
  cases i with
  | zero => rfl
  | succ i =>
    rw [length_elements] at hi
    have h64 : i + 1 < 64 := by omega
    simp [getElem_elements, hi, h64]

/-- Settles O27: the accumulator is the complemented parity, and the rotation is the shift. -/
theorem fibStepIsTheSourceAlgorithm : Obligations.FibStepIsTheSourceAlgorithm := by
  intro L T r hpos hmax hT _
  have hacc : fibAccumulate T (elements L.toNat r) L.toNat = (fibStep L T r).1 := by
    rw [fibAccumulate_eq T r fun t => getD_elements r, fibStep_bit, parity,
      parityUpTo_of_toNat_lt (toNat_and_lt hT r) hmax]
  have hne : elements L.toNat r ≠ [] :=
    List.ne_nil_of_length_pos ((length_elements L.toNat r).symm ▸ hpos)
  refine ⟨?_, toNat_fibStep_lt hpos T r⟩
  rw [fibStepRef, length_elements, hacc, set_rotateRight hne, elements_fibStep hpos hmax]

/-! ### The linear map of the step (R102) -/

/-- R102: `A`, the linear shift-and-tap map, which is the step of the textbook register. -/
def fibLinear (L : BitVec 7) (T r : Word) : Word :=
  truncTo L.toNat (r <<< 1) ||| bitWord (parity (r &&& T))

/-- The elements after the linear map: the parity of the tapped elements enters at 0. -/
theorem getLsbD_fibLinear (L : BitVec 7) (T r : Word) (i : Nat) :
    (fibLinear L T r).getLsbD i =
      if i = 0 then parity (r &&& T)
      else (decide (i < 64) && r.getLsbD (i - 1) && decide (i < L.toNat)) := by
  rw [fibLinear, BitVec.getLsbD_or, getLsbD_truncTo, getLsbD_bitWord, BitVec.getLsbD_shiftLeft]
  rcases Nat.eq_zero_or_pos i with rfl | hi
  · simp
  · simp [hi.ne', Nat.not_lt.mpr hi]

theorem fibLinear_zero (L : BitVec 7) (T : Word) : fibLinear L T 0#64 = 0#64 := by
  simp [fibLinear, truncTo]

theorem xor_and_eq (a b T : Word) : (a ^^^ b) &&& T = (a &&& T) ^^^ (b &&& T) :=
  BitVec.eq_of_getLsbD_eq fun i _ => by simp [Bool.and_xor_distrib_right]

theorem fibLinear_xor (L : BitVec 7) (T a b : Word) :
    fibLinear L T (a ^^^ b) = fibLinear L T a ^^^ fibLinear L T b := by
  refine BitVec.eq_of_getLsbD_eq fun i _ => ?_
  rw [BitVec.getLsbD_xor, getLsbD_fibLinear, getLsbD_fibLinear, getLsbD_fibLinear, xor_and_eq,
    parity_xor, BitVec.getLsbD_xor]
  by_cases hi : i = 0
  · simp only [hi, if_true]
  · simp only [hi, if_false, Bool.and_xor_distrib_left, Bool.and_xor_distrib_right]

/-- R102: the accumulator's 1 is the constant of the affine map. -/
theorem fibStep_eq_fibLinear_xor (L : BitVec 7) (T r : Word) :
    (fibStep L T r).2 = fibLinear L T r ^^^ 1#64 := by
  refine BitVec.eq_of_getLsbD_eq fun i _ => ?_
  rw [BitVec.getLsbD_xor, getLsbD_fibLinear, getLsbD_fibStep, fibStep_bit, BitVec.getLsbD_one]
  by_cases hi : i = 0 <;> simp [hi]

/-- Settles O28 with the linear map of R102. -/
theorem fibStepIsAffine : Obligations.FibStepIsAffine := fun L T =>
  ⟨fibLinear L T, fibLinear_zero L T, fibLinear_xor L T, fun _ => rfl, fibStep_eq_fibLinear_xor L T,
    fibStep_bit L T⟩

/-! ### Bijectivity (R109) -/

/-- Two registers have the same successor exactly when the linear map sends their difference to 0. -/
theorem fibStep_eq_iff (L : BitVec 7) (T a b : Word) :
    (fibStep L T a).2 = (fibStep L T b).2 ↔ fibLinear L T (a ^^^ b) = 0#64 := by
  rw [fibStep_eq_fibLinear_xor, fibStep_eq_fibLinear_xor, BitVec.xor_left_inj, fibLinear_xor,
    BitVec.xor_eq_zero_iff]

/-- The top element alone leaves the register, and only its tap remains. -/
theorem fibLinear_topElement {L : BitVec 7} (hpos : 1 ≤ L.toNat) (hmax : L.toNat ≤ 64) (T : Word) :
    fibLinear L T (BitVec.twoPow 64 (L.toNat - 1)) = bitWord (T.getLsbD (L.toNat - 1)) := by
  refine BitVec.eq_of_getLsbD_eq fun i _ => ?_
  rw [getLsbD_fibLinear, getLsbD_bitWord, parity_twoPow_and (by omega), BitVec.getLsbD_twoPow]
  by_cases hi : i = 0
  · simp [hi]
  · simp only [hi, if_false, decide_false, Bool.false_and, ← Bool.decide_and]
    exact decide_eq_false (by omega)

/-- What the linear map sends to 0 is 0 or the top element alone. -/
theorem eq_topElement_of_fibLinear_eq_zero {L : BitVec 7} (hpos : 1 ≤ L.toNat) (hmax : L.toNat ≤ 64)
    {T d : Word} (hd : d.toNat < 2 ^ L.toNat) (h : fibLinear L T d = 0#64) :
    d = 0#64 ∨ d = BitVec.twoPow 64 (L.toNat - 1) := by
  have hlow : ∀ i < L.toNat - 1, d.getLsbD i = false := fun i hi => by
    have hbit := getLsbD_fibLinear L T d (i + 1)
    have h64 : i + 1 < 64 := by omega
    have hL : i + 1 < L.toNat := by omega
    simpa [h, h64, hL] using hbit.symm
  have hbits : ∀ i, i ≠ L.toNat - 1 → d.getLsbD i = false := fun i hi => by
    rcases Nat.lt_or_ge i L.toNat with hlt | hge
    · exact hlow i (by omega)
    · exact getLsbD_of_toNat_lt hd hge
  have htop64 : L.toNat - 1 < 64 := by omega
  cases htop : d.getLsbD (L.toNat - 1) with
  | false =>
    refine .inl (BitVec.eq_of_getLsbD_eq fun i _ => ?_)
    by_cases hi : i = L.toNat - 1
    · simp [hi, htop]
    · simp [hbits i hi]
  | true =>
    refine .inr (BitVec.eq_of_getLsbD_eq fun i _ => ?_)
    by_cases hi : i = L.toNat - 1
    · simp [hi, htop, htop64]
    · simp [hbits i hi, Ne.symm hi]

/-- R109: the step is injective on L-bit registers exactly when the top element is tapped. -/
theorem fibStep_injOn_iff {L : BitVec 7} (hpos : 1 ≤ L.toNat) (hmax : L.toNat ≤ 64) (T : Word) :
    Set.InjOn (fun r => (fibStep L T r).2) {r : Word | r.toNat < 2 ^ L.toNat} ↔
      T.getLsbD (L.toNat - 1) = true := by
  have htop := fibLinear_topElement hpos hmax T
  constructor
  · intro hinj
    by_contra hfree
    rw [Bool.not_eq_true] at hfree
    have hlt : (BitVec.twoPow 64 (L.toNat - 1)).toNat < 2 ^ L.toNat := by
      rw [BitVec.toNat_twoPow_of_lt (by omega)]
      exact Nat.pow_lt_pow_right (by decide) (by omega)
    have heq : BitVec.twoPow 64 (L.toNat - 1) = 0#64 := by
      refine hinj hlt (Nat.two_pow_pos _) ((fibStep_eq_iff L T _ _).mpr ?_)
      rw [BitVec.xor_zero, htop, hfree, bitWord_false]
    have hbit := BitVec.getLsbD_twoPow (w := 64) (L.toNat - 1) (L.toNat - 1)
    have h64 : L.toNat - 1 < 64 := by omega
    simp [heq, h64] at hbit
  · intro htap a ha b hb hab
    have hzero := (fibStep_eq_iff L T a b).mp hab
    have hlt : (a ^^^ b).toNat < 2 ^ L.toNat := by
      rw [BitVec.toNat_xor]
      exact Nat.xor_lt_two_pow ha hb
    rcases eq_topElement_of_fibLinear_eq_zero hpos hmax hlt hzero with h | h
    · exact BitVec.xor_eq_zero_iff.mp h
    · rw [h, htop, htap] at hzero
      exact absurd hzero (by decide)

/-- Settles O33: a map of the finite set of L-bit registers into itself is a bijection exactly when it is
injective. -/
theorem fibStepIsBijectiveIffTopTap : Obligations.FibStepIsBijectiveIffTopTap := by
  intro L T hpos hmax _
  have hmaps : Set.MapsTo (fun r => (fibStep L T r).2) {r : Word | r.toNat < 2 ^ L.toNat}
      {r : Word | r.toNat < 2 ^ L.toNat} := fun r _ => toNat_fibStep_lt hpos T r
  rw [← (Set.toFinite _).injOn_iff_bijOn_of_mapsTo hmaps]
  exact fibStep_injOn_iff hpos hmax T

/-! ### Registers whose elements are all equal (R107) -/

/-- The L-bit register whose elements are all b. -/
def constantRegister (L : BitVec 7) (b : Bool) : Word := if b then lowMask L.toNat else 0#64

theorem getLsbD_constantRegister {L : BitVec 7} (hmax : L.toNat ≤ 64) (b : Bool) (i : Nat) :
    (constantRegister L b).getLsbD i = (b && decide (i < L.toNat)) := by
  cases b with
  | false => exact BitVec.getLsbD_zero
  | true =>
    refine (getLsbD_lowMask L.toNat i).trans ?_
    rw [Bool.true_and, ← Bool.decide_and]
    exact decide_eq_decide.mpr ⟨And.right, fun hi => ⟨by omega, hi⟩⟩

theorem toNat_constantRegister_lt {L : BitVec 7} (hmax : L.toNat ≤ 64) (b : Bool) :
    (constantRegister L b).toNat < 2 ^ L.toNat := by
  cases b with
  | false => exact Nat.two_pow_pos _
  | true => exact toNat_lowMask_lt hmax

theorem eq_constantRegister_iff {L : BitVec 7} (hmax : L.toNat ≤ 64) {r : Word}
    (hr : r.toNat < 2 ^ L.toNat) (b : Bool) :
    r = constantRegister L b ↔ ∀ i < L.toNat, r.getLsbD i = b := by
  constructor
  · rintro rfl i hi
    simp [getLsbD_constantRegister hmax, hi]
  · intro h
    refine eq_of_elements_eq hr (toNat_constantRegister_lt hmax b) fun i hi => ?_
    rw [h i hi, getLsbD_constantRegister hmax, decide_eq_true hi, Bool.and_true]

/-- The output at a constant register: a 0 only where an odd number of 1s is tapped. -/
theorem fibStep_constantRegister_bit {L : BitVec 7} (hmax : L.toNat ≤ 64) {T : Word}
    (hT : T.toNat < 2 ^ L.toNat) (b : Bool) :
    (fibStep L T (constantRegister L b)).1 = !(b && parity T) := by
  rw [fibStep_bit]
  cases b with
  | false => simp [constantRegister]
  | true =>
    have hmask : constantRegister L true &&& T = T := by
      refine eq_of_elements_eq (toNat_and_lt hT _) hT fun i hi => ?_
      simp [getLsbD_constantRegister hmax, hi]
    rw [hmask, Bool.true_and]

/-- R107: at a fixed point every element is the one below it, and the lowest is the output. -/
theorem fibStep_eq_self_iff {L : BitVec 7} (hpos : 1 ≤ L.toNat) (hmax : L.toNat ≤ 64) {T r : Word}
    (hr : r.toNat < 2 ^ L.toNat) :
    (fibStep L T r).2 = r ↔ r = constantRegister L (fibStep L T r).1 := by
  rw [eq_constantRegister_iff hmax hr]
  constructor
  · intro hfix i hi
    induction i with
    | zero => rw [← hfix, getLsbD_fibStep, if_pos rfl, hfix]
    | succ i ih =>
      have h64 : i + 1 < 64 := by omega
      have hbit := getLsbD_fibStep L T r (i + 1)
      rw [hfix] at hbit
      rw [hbit, ← ih (by omega)]
      simp [h64, hi]
  · intro hall
    refine eq_of_elements_eq (toNat_fibStep_lt hpos T r) hr fun i hi => ?_
    rw [getLsbD_fibStep, hall i hi]
    split_ifs with h0
    · rfl
    · have h64 : i < 64 := by omega
      simp [hall (i - 1) (by omega), hi, h64]

/-- Settles O31: a fixed point is a constant register, and the one of zeros is none. -/
theorem fibonacciFixedPoints : Obligations.FibonacciFixedPoints := by
  intro L T r hpos hmax hT hr
  have hones : (fibStep L T r).2 = r → r = constantRegister L true ∧ (fibStep L T r).1 = true := by
    intro hfix
    have hconst := (fibStep_eq_self_iff hpos hmax hr).mp hfix
    have hbit := fibStep_constantRegister_bit hmax hT (fibStep L T r).1
    rw [← hconst] at hbit
    cases hout : (fibStep L T r).1 with
    | false => simp [hout] at hbit
    | true => exact ⟨hout ▸ hconst, rfl⟩
  have hnum : r.toNat = 2 ^ L.toNat - 1 ↔ r = constantRegister L true := by
    rw [← toNat_lowMask hmax]
    exact BitVec.toNat_inj
  have hparity : popcount T % 2 = 0 ↔ parity T = false := by
    rw [parity_eq_popcount, decide_eq_false_iff_not]
    omega
  have hlast := fibStep_constantRegister_bit hmax hT true
  refine ⟨?_, fun hfix => (hones hfix).2⟩
  rw [hnum, hparity]
  constructor
  · intro hfix
    obtain ⟨rfl, hout⟩ := hones hfix
    exact ⟨rfl, by simpa [hout] using hlast⟩
  · rintro ⟨rfl, heven⟩
    rw [fibStep_eq_self_iff hpos hmax hr, hlast, heven]
    rfl

/-! ### Runs of equal outputs (R104, R105, R108) -/

/-- R104: from zero the step outputs 1 and leaves zero. -/
theorem fibStep_zero (L : BitVec 7) (T : Word) : fibStep L T 0#64 = (true, 1#64) := by
  simp [fibStep, truncTo]

/-- A draw of a Fibonacci slot, as its streams see it. -/
theorem bits_fib_succ (L : BitVec 7) (T r : Word) (n : Nat) :
    (Slot.fib L T r).bits (n + 1) =
      (fibStep L T r).1 :: (Slot.fib L T (fibStep L T r).2).bits n :=
  bits_succ_of_step (step_fib L T r) n

theorem after_fib_succ (L : BitVec 7) (T r : Word) (n : Nat) :
    (Slot.fib L T r).after (n + 1) = (Slot.fib L T (fibStep L T r).2).after n :=
  after_succ_of_step (step_fib L T r) n

/-- Outputs that are all b fill the register from element 0 up: m elements that are b already become
m + n of them after n draws. -/
theorem elements_after_equal_outputs {L : BitVec 7} (hpos : 1 ≤ L.toNat) (hmax : L.toNat ≤ 64)
    (T : Word) {b : Bool} {n m : Nat} {r : Word} (hr : r.toNat < 2 ^ L.toNat)
    (hlow : ∀ i < m, i < L.toNat → r.getLsbD i = b)
    (hbits : (Slot.fib L T r).bits n = List.replicate n b) :
    ∃ x : Word, (Slot.fib L T r).after n = .fib L T x ∧ x.toNat < 2 ^ L.toNat ∧
      ∀ i < m + n, i < L.toNat → x.getLsbD i = b := by
  induction n generalizing m r with
  | zero => exact ⟨r, rfl, hr, hlow⟩
  | succ n ih =>
    rw [bits_fib_succ, List.replicate_succ] at hbits
    obtain ⟨hout, hbits⟩ := List.cons.inj hbits
    have hlow' : ∀ i < m + 1, i < L.toNat → (fibStep L T r).2.getLsbD i = b := by
      intro i hi hiL
      rw [getLsbD_fibStep]
      split_ifs with h0
      · exact hout
      · have h64 : i < 64 := by omega
        simp [hlow (i - 1) (by omega) (by omega), hiL, h64]
    obtain ⟨x, hafter, hx, hall⟩ := ih (toNat_fibStep_lt hpos T r) hlow' hbits
    exact ⟨x, (after_fib_succ L T r n).trans hafter, hx, fun i hi => hall i (by omega)⟩

/-- After L equal outputs every element is that output. -/
theorem after_equal_outputs {L : BitVec 7} (hpos : 1 ≤ L.toNat) (hmax : L.toNat ≤ 64) {T r : Word}
    {b : Bool} (hr : r.toNat < 2 ^ L.toNat)
    (hbits : (Slot.fib L T r).bits L.toNat = List.replicate L.toNat b) :
    (Slot.fib L T r).after L.toNat = .fib L T (constantRegister L b) := by
  obtain ⟨x, hafter, hx, hall⟩ :=
    elements_after_equal_outputs hpos hmax T (m := 0) hr (fun i hi => absurd hi (by omega)) hbits
  rw [hafter, (eq_constantRegister_iff hmax hx b).mpr fun i hi => hall i (by omega) hi]

/-- R105: with no taps every output is 1. -/
theorem bits_fib_noTaps (L : BitVec 7) (r : Word) (n : Nat) :
    (Slot.fib L 0#64 r).bits n = List.replicate n true := by
  induction n generalizing r with
  | zero => rfl
  | succ n ih => rw [bits_fib_succ, ih, fibStep_bit, BitVec.and_zero, parity_zero]; rfl

/-- Settles O30. -/
theorem emptyTapSetOutputsOnes : Obligations.EmptyTapSetOutputsOnes := fun L r hpos hmax hr =>
  ⟨bits_fib_noTaps L r, after_equal_outputs hpos hmax hr (bits_fib_noTaps L r L.toNat)⟩

/-- Settles O32: L draws of 0 leave the zero register, and the next draw gives 1. -/
theorem fibonacciZeroRunsAreBounded : Obligations.FibonacciZeroRunsAreBounded := by
  intro L T r hpos hmax _ hr
  rw [bits_add, List.mem_append]
  by_cases h : true ∈ (Slot.fib L T r).bits L.toNat
  · exact .inl h
  · right
    have hzeros : (Slot.fib L T r).bits L.toNat = List.replicate L.toNat false :=
      List.eq_replicate_iff.mpr ⟨length_bits (by simp) _, fun b hb =>
        Bool.eq_false_of_not_eq_true fun hbt => h (hbt ▸ hb)⟩
    rw [after_equal_outputs hpos hmax hr hzeros, bits_fib_succ]
    simp [constantRegister, fibStep_zero]

/-! ### CFG_FIB (R103) -/

section
variable {s : State} {k : SlotId} {L : BitVec 7} {taps seed : Word}

theorem exec_cfgFib (s : State) (k : SlotId) (L : BitVec 7) (taps seed : Word) :
    exec (.cfgFib k L taps seed) s = execCfgFib k L taps seed s := rfl

/-- CFG_FIB reports its first failing check and changes nothing else. -/
theorem exec_cfgFib_of_failing {st : Status}
    (h : firstFailing (checksCfgFib s k L taps seed) = some st) :
    exec (.cfgFib k L taps seed) s = answered st.code 0#64 s := by
  rw [exec_cfgFib, execCfgFib, guarded_of_some h, raise_eq, answered]

/-- CFG_FIB writes its slot when every check passes. -/
theorem exec_cfgFib_of_passing (h : firstFailing (checksCfgFib s k L taps seed) = none) :
    exec (.cfgFib k L taps seed) s = answered 0#4 0#64 (s.setSlot k (.fib L taps seed)) := by
  rw [exec_cfgFib, execCfgFib, guarded_of_none h]
  rfl

theorem checksCfgFib_owned (hown : s.owned k = true) :
    firstFailing (checksCfgFib s k L taps seed) = some .owned := by
  simp [checksCfgFib, hown]

theorem checksCfgFib_length (hfree : s.owned k = false) (hL : L.toNat = 0 ∨ 64 < L.toNat) :
    firstFailing (checksCfgFib s k L taps seed) = some .configError := by
  have hcheck : (decide (L.toNat = 0) || decide (Config.nfMax < L.toNat)) = true := by
    rwa [Bool.or_eq_true, decide_eq_true_iff, decide_eq_true_iff, Config.nfMax]
  rw [checksCfgFib, hfree, hcheck, firstFailing_false, firstFailing_true]

/-- With a free slot and a legal length, what is left are the ranges of TAPS and SEED. -/
theorem checksCfgFib_ranges (hfree : s.owned k = false) (hpos : 1 ≤ L.toNat) (hmax : L.toNat ≤ 64) :
    firstFailing (checksCfgFib s k L taps seed) =
      if taps >>> L.toNat = 0#64 ∧ seed >>> L.toNat = 0#64 then none else some .configError := by
  have hcheck : (decide (L.toNat = 0) || decide (Config.nfMax < L.toNat)) = false := by
    rw [Bool.or_eq_false_iff, decide_eq_false_iff_not, decide_eq_false_iff_not, Config.nfMax]
    omega
  rw [checksCfgFib, hfree, hcheck, firstFailing_false, firstFailing_false]
  by_cases htaps : taps >>> L.toNat = 0#64 <;> by_cases hseed : seed >>> L.toNat = 0#64 <;>
    simp [htaps, hseed]

end

/-- Settles O29. -/
theorem zeroFibonacciSeedIsNotAFixedPoint : Obligations.ZeroFibonacciSeedIsNotAFixedPoint := by
  refine ⟨fun s k L T hfree hpos hmax hT => exec_cfgFib_of_passing ?_, fibStep_zero⟩
  rw [checksCfgFib_ranges hfree hpos hmax, if_pos ⟨hT, BitVec.zero_ushiftRight⟩]

/-- Settles O34, check by check. -/
theorem cfgFibFollowsItsPseudocode : Obligations.CfgFibFollowsItsPseudocode := by
  refine fun s k L taps seed => ⟨rfl, fun hown => exec_cfgFib_of_failing (checksCfgFib_owned hown),
    fun hfree hL => exec_cfgFib_of_failing (checksCfgFib_length hfree hL),
    fun hfree hpos hmax hbad => exec_cfgFib_of_failing (st := .configError) ?_,
    fun hfree hpos hmax htaps hseed => exec_cfgFib_of_passing ?_⟩
  · rw [checksCfgFib_ranges hfree hpos hmax, if_neg (not_and_or.mpr hbad)]
  · rw [checksCfgFib_ranges hfree hpos hmax, if_pos ⟨htaps, hseed⟩]

end Sys2Proof.Machine
end

section
/-! PROOFS of the family 41_galois_lfsr.md: the Galois step bit by bit beside the source's algorithm, its
inverse and the cycles that follow from it, where a 1 of the state comes out, and CFG_GAL. -/

namespace Sys2Proof.Machine

/-! ### The retained bits and the source's algorithm (R120, R121) -/

/-- The retained state of a state integer: its low m bits. -/
theorem getLsbD_ofNat_mod {m : Nat} (hm : m ≤ 64) (X i : Nat) :
    (BitVec.ofNat 64 (X % 2 ^ m)).getLsbD i = (decide (i < m) && X.testBit i) := by
  rw [BitVec.getLsbD_ofNat, Nat.testBit_mod_two_pow]
  by_cases hi : i < m
  · simp [Nat.lt_of_lt_of_le hi hm]
  · simp [hi]

/-- R120: the overflow mask reads the bit that the shift carries out of the low m bits. -/
theorem galStepRef_bit {m : Nat} (hm : 1 ≤ m) (P X : Nat) :
    (galStepRef P (2 ^ m) X).1 = X.testBit (m - 1) := by
  rw [galStepRef, Nat.and_two_pow, Nat.testBit_shiftLeft, decide_eq_true hm, Bool.true_and]
  cases X.testBit (m - 1) <;> simp

/-- R120: the state integer after a step, bit by bit. -/
theorem testBit_galStepRef {m : Nat} (hm : 1 ≤ m) (P X i : Nat) :
    (galStepRef P (2 ^ m) X).2.testBit i =
      ((decide (1 ≤ i) && X.testBit (i - 1)) ^^ (X.testBit (m - 1) && P.testBit i)) := by
  rw [galStepRef, Nat.and_two_pow, Nat.testBit_shiftLeft, decide_eq_true hm, Bool.true_and]
  cases X.testBit (m - 1) <;> simp [Nat.testBit_xor, Nat.testBit_shiftLeft]

/-- R121: one step on the retained bits is one step of the source's algorithm. -/
theorem galStep_retained {m : BitVec 7} (hpos : 1 ≤ m.toNat) (hmax : m.toNat ≤ 64) {P : Word}
    (hP : P.toNat < 2 ^ m.toNat) (X : Nat) :
    galStep m P (BitVec.ofNat 64 (X % 2 ^ m.toNat)) =
      ((galStepRef P.toNat (2 ^ m.toNat) X).1,
        BitVec.ofNat 64 ((galStepRef P.toNat (2 ^ m.toNat) X).2 % 2 ^ m.toNat)) := by
  have hout : (galStep m P (BitVec.ofNat 64 (X % 2 ^ m.toNat))).1 = X.testBit (m.toNat - 1) := by
    rw [galStep_bit, getLsbD_ofNat_mod hmax, decide_eq_true (by omega), Bool.true_and]
  refine Prod.ext (hout.trans (galStepRef_bit hpos _ X).symm) (BitVec.eq_of_getLsbD_eq fun i hi => ?_)
  rw [getLsbD_galStep, hout, getLsbD_ofNat_mod hmax, getLsbD_ofNat_mod hmax, testBit_galStepRef hpos]
  by_cases him : i < m.toNat
  · simp [hi, him, Nat.lt_of_le_of_lt (Nat.sub_le i 1) him, BitVec.testBit_toNat, Nat.one_le_iff_ne_zero]
  · simp [him, getLsbD_of_toNat_lt hP (Nat.le_of_not_lt him)]

/-- A draw of a Galois slot, as its streams see it. -/
theorem bits_gal_succ (m : BitVec 7) (P x : Word) (n : Nat) :
    (Slot.gal m P x).bits (n + 1) =
      (galStep m P x).1 :: (Slot.gal m P (galStep m P x).2).bits n :=
  bits_succ_of_step (step_gal m P x) n

theorem after_gal_succ (m : BitVec 7) (P x : Word) (n : Nat) :
    (Slot.gal m P x).after (n + 1) = (Slot.gal m P (galStep m P x).2).after n :=
  after_succ_of_step (step_gal m P x) n

/-- Settles O35, step by step. -/
theorem galStepRefinesTheSourceAlgorithm : Obligations.GalStepRefinesTheSourceAlgorithm := by
  intro m P n X hpos hmax hP
  induction n generalizing X with
  | zero => exact ⟨rfl, rfl⟩
  | succ n ih =>
    obtain ⟨hbits, hafter⟩ := ih (galStepRef P.toNat (2 ^ m.toNat) X).2
    rw [bits_gal_succ, after_gal_succ, galStep_retained hpos hmax hP, hbits, hafter]
    exact ⟨rfl, rfl⟩

/-! ### The inverse and the cycles (R125) -/

/-- R125: the state before the step, recovered from the state x after it. -/
def galStepInverse (m : BitVec 7) (P x : Word) : Word :=
  ((x ^^^ (if x.getLsbD 0 then P else 0#64)) >>> 1) ||| (bitWord (x.getLsbD 0) <<< (m.toNat - 1))

/-- R125: an odd polynomial puts the output into bit 0. -/
theorem getLsbD_galStep_zero {P : Word} (hodd : P.getLsbD 0 = true) (m : BitVec 7) (x : Word) :
    (galStep m P x).2.getLsbD 0 = (galStep m P x).1 := by
  rw [getLsbD_galStep, hodd]
  simp

section
variable {m : BitVec 7} {P : Word}

/-- R125: the inverse recovers the state: xoring P back leaves the shifted state, and the output is the bit
that the shift dropped. -/
theorem galStepInverse_galStep (hpos : 1 ≤ m.toNat) (hmax : m.toNat ≤ 64) (hodd : P.getLsbD 0 = true)
    {x : Word} (hx : x.toNat < 2 ^ m.toNat) : galStepInverse m P (galStep m P x).2 = x := by
  have hshift : (galStep m P x).2 ^^^ (if (galStep m P x).1 then P else 0#64) =
      truncTo m.toNat (x <<< 1) := by
    rw [galStep, BitVec.xor_assoc, BitVec.xor_self, BitVec.xor_zero]
  rw [galStepInverse, getLsbD_galStep_zero hodd, hshift, galStep_bit]
  refine BitVec.eq_of_getLsbD_eq fun i hi => ?_
  rw [BitVec.getLsbD_or, BitVec.getLsbD_ushiftRight, getLsbD_truncTo, BitVec.getLsbD_shiftLeft,
    BitVec.getLsbD_shiftLeft, getLsbD_bitWord]
  rcases Nat.lt_trichotomy i (m.toNat - 1) with hlow | rfl | hhigh
  · have h64 : 1 + i < 64 := by omega
    have hm : 1 + i < m.toNat := by omega
    simp [h64, hm, hlow]
  · simp [hi, hpos]
  · have hm : ¬1 + i < m.toNat := by omega
    have hsub : i - (m.toNat - 1) ≠ 0 := by omega
    have htop : x.getLsbD i = false := getLsbD_of_toNat_lt hx (by omega)
    simp [hm, hsub, htop]

/-- R125: the step is injective on m-bit states, since it has a left inverse. -/
theorem galStep_injOn (hpos : 1 ≤ m.toNat) (hmax : m.toNat ≤ 64) (hodd : P.getLsbD 0 = true) :
    Set.InjOn (fun x => (galStep m P x).2) {x : Word | x.toNat < 2 ^ m.toNat} :=
  Set.LeftInvOn.injOn (f₁' := galStepInverse m P) fun _ => galStepInverse_galStep hpos hmax hodd

theorem galStep_mapsTo (hP : P.toNat < 2 ^ m.toNat) :
    Set.MapsTo (fun x => (galStep m P x).2) {x : Word | x.toNat < 2 ^ m.toNat}
      {x : Word | x.toNat < 2 ^ m.toNat} := fun x _ => toNat_galStep_lt hP x

end

/-- R124: zero outputs 0 and stays. -/
theorem galStep_zero (m : BitVec 7) (P : Word) : galStep m P 0#64 = (false, 0#64) := by
  simp [galStep, truncTo]

theorem after_gal (m : BitVec 7) (P x : Word) (n : Nat) :
    (Slot.gal m P x).after n = .gal m P ((fun y => (galStep m P y).2)^[n] x) := by
  induction n generalizing x with
  | zero => rfl
  | succ n ih => rw [after_gal_succ, ih, Function.iterate_succ_apply]

/-- A point of a finite set comes back under an injective map of the set into itself. -/
theorem mem_periodicPts_of_injOn {α : Type} {f : α → α} {t : Set α} (hfin : t.Finite)
    (hmaps : Set.MapsTo f t t) (hinj : Set.InjOn f t) {x : α} (hx : x ∈ t) :
    x ∈ Function.periodicPts f := by
  have hsub : Finite t := hfin.to_subtype
  obtain ⟨p, hp, hper⟩ := (hmaps.restrict_inj.mpr hinj).mem_periodicPts ⟨x, hx⟩
  refine ⟨p, hp, ?_⟩
  have hval := congrArg Subtype.val hper
  rwa [hmaps.iterate_restrict] at hval

/-- Settles O36: an injective map of the finite set of m-bit states into itself is a bijection, and its
orbits are cycles. -/
theorem galStepIsInvertible : Obligations.GalStepIsInvertible := by
  intro m P hpos hmax hP hodd
  have hmaps := galStep_mapsTo hP
  have hinj := galStep_injOn hpos hmax hodd
  refine ⟨((Set.toFinite _).injOn_iff_bijOn_of_mapsTo hmaps).mp hinj, fun x hx =>
    ⟨getLsbD_galStep_zero hodd m x, ?_, ⟨fun h => ?_, ?_⟩, ?_⟩⟩
  · rw [← getLsbD_galStep_zero hodd]
    exact (galStepInverse_galStep hpos hmax hodd hx).symm
  · exact hinj hx (Nat.two_pow_pos _) (h.trans (congrArg Prod.snd (galStep_zero m P)).symm)
  · rintro rfl
    rw [galStep_zero]
  · obtain ⟨p, hp, hper⟩ := mem_periodicPts_of_injOn (Set.toFinite _) hmaps hinj hx
    exact ⟨p, hp, by rw [after_gal, hper.eq]⟩

/-! ### Runs of zeros (R124, R126) -/

/-- R126: without an output of 1, a 1 of the state moves up one place per draw, so it comes out once there
are as many draws as places from it to the top. -/
theorem true_mem_bits_gal {m : BitVec 7} (hmax : m.toNat ≤ 64) (P : Word) {n i : Nat} {x : Word}
    (hi : i < m.toNat) (hn : m.toNat ≤ i + n) (hbit : x.getLsbD i = true) :
    true ∈ (Slot.gal m P x).bits n := by
  induction n generalizing i x with
  | zero => omega
  | succ n ih =>
    rw [bits_gal_succ, List.mem_cons]
    cases hout : (galStep m P x).1 with
    | true => exact .inl rfl
    | false =>
      have hne : i ≠ m.toNat - 1 := by
        rintro rfl
        rw [galStep_bit, hbit] at hout
        exact absurd hout (by decide)
      have hlt : i + 1 < m.toNat := by omega
      have h64 : i + 1 < 64 := by omega
      refine .inr (ih hlt (by omega) ?_)
      rw [getLsbD_galStep, hout]
      simp [h64, hbit, hlt]

/-- Settles O37: a nonzero state has a 1, and it comes out within m draws. -/
theorem galoisZeroRunsAreBounded : Obligations.GaloisZeroRunsAreBounded := by
  intro m P x _ hmax _ _ hx hne
  by_contra hzeros
  refine hne (eq_of_elements_eq hx (Nat.two_pow_pos _) fun i hi => ?_)
  rw [BitVec.getLsbD_zero]
  exact Bool.eq_false_of_not_eq_true fun hbit => hzeros (true_mem_bits_gal hmax P hi (by omega) hbit)

/-- R124: from zero every output is 0. -/
theorem bits_gal_zero (m : BitVec 7) (P : Word) (n : Nat) :
    (Slot.gal m P 0#64).bits n = List.replicate n false := by
  induction n with
  | zero => rfl
  | succ n ih => rw [bits_gal_succ, galStep_zero, ih]; rfl

theorem after_gal_zero (m : BitVec 7) (P : Word) (n : Nat) :
    (Slot.gal m P 0#64).after n = .gal m P 0#64 := by
  rw [after_gal, Function.iterate_fixed (congrArg Prod.snd (galStep_zero m P))]

/-! ### CFG_GAL (R122, R123) -/

/-- R122, R254: the first check of CFG_GAL that fails. -/
theorem firstFailing_checksCfgGal (s : State) (k : SlotId) (poly state : Word) :
    firstFailing (checksCfgGal s k poly state) =
      if s.owned k = true then some .owned
      else if poly = 0#64 ∨ state = 0#64 then some .configError else none := by
  cases hown : s.owned k with
  | true => simp [checksCfgGal, hown]
  | false =>
    by_cases hpoly : poly = 0#64
    · simp [checksCfgGal, hown, hpoly]
    · by_cases hstate : state = 0#64 <;> simp [checksCfgGal, hown, hpoly, hstate]

/-- R122: everything CFG_GAL can do. -/
theorem exec_cfgGal (s : State) (k : SlotId) (poly state : Word) :
    exec (.cfgGal k poly state) s =
      if s.owned k = true then answered 4#4 0#64 s
      else if poly = 0#64 ∨ state = 0#64 then answered 2#4 0#64 s
      else answered 0#4 0#64 (s.setSlot k (galRegister poly state)) := by
  have harm : exec (.cfgGal k poly state) s = execCfgGal k poly state s := rfl
  rw [harm, execCfgGal, guarded, firstFailing_checksCfgGal]
  split_ifs <;> rfl

theorem truncTo_eq_ofNat (n : Nat) (v : Word) : truncTo n v = BitVec.ofNat 64 (v.toNat % 2 ^ n) := by
  rw [← toNat_truncTo, BitVec.ofNat_toNat, BitVec.setWidth_eq]

/-- R122 with m = bitlen(POLY), as R7 determines it. -/
theorem galRegister_of_bitlen {poly : Word} {m : Nat} (hm : 1 ≤ m) (hlo : 2 ^ (m - 1) ≤ poly.toNat)
    (hhi : poly.toNat < 2 ^ m) (state : Word) :
    galRegister poly state =
      .gal (BitVec.ofNat 7 m) (poly ||| 1#64) (BitVec.ofNat 64 (state.toNat % 2 ^ m)) := by
  rw [galRegister, bitlen_unique poly hm hlo hhi, truncTo_eq_ofNat]

/-- A polynomial of known width is not 0. -/
theorem ne_zero_of_two_pow_le {v : Word} {n : Nat} (h : 2 ^ n ≤ v.toNat) : v ≠ 0#64 := by
  rintro rfl
  exact Nat.not_lt.mpr h (Nat.two_pow_pos n)

theorem exec_cfgGal_of_bitlen {s : State} {k : SlotId} {poly state : Word} {m : Nat}
    (hfree : s.owned k = false) (hstate : state ≠ 0#64) (hm : 1 ≤ m) (hlo : 2 ^ (m - 1) ≤ poly.toNat)
    (hhi : poly.toNat < 2 ^ m) :
    exec (.cfgGal k poly state) s = answered 0#4 0#64
      (s.setSlot k (.gal (BitVec.ofNat 7 m) (poly ||| 1#64)
        (BitVec.ofNat 64 (state.toNat % 2 ^ m)))) := by
  simp [exec_cfgGal, hfree, hstate, ne_zero_of_two_pow_le hlo, galRegister_of_bitlen hm hlo hhi]

/-- Settles O38: the retained state is STATE mod 2^m, and zero is a fixed point of the step. -/
theorem zeroRetainedStateOutputsZeros : Obligations.ZeroRetainedStateOutputsZeros := by
  refine ⟨fun s k poly state m hfree hm hlo hhi hstate hlow => ?_,
    fun m P n => ⟨bits_gal_zero m P n, after_gal_zero m P n⟩⟩
  rw [exec_cfgGal_of_bitlen hfree hstate hm hlo hhi, hlow]

/-- Settles O39, check by check. -/
theorem cfgGalFollowsItsPseudocode : Obligations.CfgGalFollowsItsPseudocode := by
  refine fun s k poly state => ⟨?_, fun hown => ?_, fun hfree hbad => ?_,
    fun hfree hstate m hm hlo hhi => exec_cfgGal_of_bitlen hfree hstate hm hlo hhi⟩
  · cases k <;> rfl
  · rw [exec_cfgGal, if_pos hown]
  · simp [exec_cfgGal, hfree, hbad]

theorem or_one_ne_zero (v : Word) : v ||| 1#64 ≠ 0#64 := fun h => by
  have hbit := congrArg (BitVec.getLsbD · 0) h
  simp at hbit

/-- R123: forcing bit 0 does not change the width. -/
theorem bitlen_or_one {poly : Word} (h : poly ≠ 0#64) : bitlen (poly ||| 1#64) = bitlen poly := by
  obtain ⟨hpos, hlo⟩ := two_pow_bitlen_le poly h
  refine bitlen_unique _ hpos ?_ ?_ <;> rw [BitVec.toNat_or]
  · exact hlo.trans Nat.left_le_or
  · exact Nat.or_lt_two_pow (toNat_lt_two_pow_bitlen poly) (toNat_bitWord_lt hpos true)

/-- R123: the polynomial is forced odd, so the odd one makes the same register. -/
theorem galRegister_or_one {poly : Word} (h : poly ≠ 0#64) (state : Word) :
    galRegister (poly ||| 1#64) state = galRegister poly state := by
  rw [galRegister, galRegister, bitlen_or_one h, BitVec.or_assoc, BitVec.or_self]

/-- Settles O40: CFG_GAL reads POLY for its zero check and for the register, and neither sees bit 0. -/
theorem evenPolynomialMakesTheOddRegister : Obligations.EvenPolynomialMakesTheOddRegister := by
  refine ⟨fun s k poly state hpoly => ?_, fun s k poly state hfree hpoly hstate _ =>
    ⟨galRegister poly state, ?_, by simp [galRegister]⟩⟩
  · simp only [exec_cfgGal, galRegister_or_one hpoly, hpoly, or_one_ne_zero]
  · simp [exec_cfgGal, hfree, hpoly, hstate]

end Sys2Proof.Machine
end

section
/-! PROOFS of the family 42_geffe_combiner.md: a draw of a slot whose next bit is known, the three draws
of a Geffe unit and n units of them as streams, the bits that PACK puts into DATA, and the binds that
draw nothing. -/

namespace Sys2Proof.Machine

/-! ### The next bit of a slot (R220) -/

section
variable {v : Slot} {b : Bool}

theorem step_of_next? (h : v.next? = some b) : v.step = some (b, v.after 1) := by
  obtain ⟨⟨c, v'⟩, hstep, rfl⟩ := Option.map_eq_some_iff.mp h
  rw [hstep, after_succ_of_step hstep, after_zero]

theorem exists_next? (hv : v ≠ .empty) : ∃ b, v.next? = some b := by
  cases v with
  | empty => exact absurd rfl hv
  | fib L T r => exact ⟨_, rfl⟩
  | gal m P x => exact ⟨_, rfl⟩

theorem bits_succ_of_next? (h : v.next? = some b) (n : Nat) :
    v.bits (n + 1) = b :: (v.after 1).bits n :=
  bits_succ_of_step (step_of_next? h) n

theorem after_one_ne_empty (hv : v ≠ .empty) : v.after 1 ≠ .empty := by
  obtain ⟨b, hb⟩ := exists_next? hv
  exact ne_empty_of_step (step_of_next? hb)

end

/-! ### Slots drawn a number of times -/

@[simp] theorem advance_s0 (s : State) (a b c : Nat) : (s.advance a b c).s0 = s.s0.after a := rfl

@[simp] theorem advance_s1 (s : State) (a b c : Nat) : (s.advance a b c).s1 = s.s1.after b := rfl

@[simp] theorem advance_s2 (s : State) (a b c : Nat) : (s.advance a b c).s2 = s.s2.after c := rfl

@[simp] theorem advance_cmb (s : State) (a b c : Nat) : (s.advance a b c).cmb = s.cmb := rfl

/-- Draws add up, slot by slot. -/
theorem advance_advance (s : State) (a b c a' b' c' : Nat) :
    (s.advance a b c).advance a' b' c' = s.advance (a + a') (b + b') (c + c') := by
  simp only [State.advance, after_add]

section
variable {s : State} {b : Bool}

theorem draw_s0_of_next? (h : s.s0.next? = some b) : draw .s0 s = .done b (s.advance 1 0 0) :=
  draw_of_step (k := .s0) (step_of_next? h)

theorem draw_s1_of_next? (h : s.s1.next? = some b) : draw .s1 s = .done b (s.advance 0 1 0) :=
  draw_of_step (k := .s1) (step_of_next? h)

theorem draw_s2_of_next? (h : s.s2.next? = some b) : draw .s2 s = .done b (s.advance 0 0 1) :=
  draw_of_step (k := .s2) (step_of_next? h)

end

/-! ### The Geffe function (R141, R144) -/

/-- R141: b2 selects. -/
theorem geffe_eq_ite (b1 b2 b3 : Bool) : geffe b1 b2 b3 = if b2 then b1 else b3 := by
  cases b2 <;> simp [geffe]

/-- In the textbook form b1 selects. -/
theorem geffeAlt_textbook_eq_ite (b1 b2 b3 : Bool) :
    geffeAlt .textbook b1 b2 b3 = if b1 then b2 else b3 := by
  cases b1 <;> simp [geffeAlt]

theorem geffeAlt_reference (b1 b2 b3 : Bool) : geffeAlt .reference b1 b2 b3 = geffe b1 b2 b3 := rfl

/-- R144: the two selections differ where b1 and b2 do and the bits selected do. -/
theorem geffeAlt_forms_differ_iff (b1 b2 b3 : Bool) :
    geffeAlt .textbook b1 b2 b3 ≠ geffeAlt .reference b1 b2 b3 ↔
      (b1, b2, b3) = (false, true, true) ∨ (b1, b2, b3) = (true, false, true) := by
  rw [geffeAlt_reference, geffe_eq_ite, geffeAlt_textbook_eq_ite]
  cases b1 <;> cases b2 <;> simp

/-- Settles O41, row by row. -/
theorem geffeFormulas : Obligations.GeffeFormulas :=
  ⟨rfl, rfl, rfl, rfl, rfl, rfl, rfl, rfl, rfl, geffeAlt_reference, fun _ _ _ => rfl,
    geffeAlt_forms_differ_iff⟩

/-! ### One unit (R142, R143) -/

section
variable {s : State} {b1 b2 b3 : Bool}

/-- R142, R143: a unit draws one bit from each source. -/
theorem drawThree_of_next? (f : Bool → Bool → Bool → Bool) (h0 : s.s0.next? = some b1)
    (h1 : s.s1.next? = some b2) (h2 : s.s2.next? = some b3) :
    drawThree f s = .done (bitWord (f b1 b2 b3)) (s.advance 1 1 1) := by
  rw [drawThree, draw_s0_of_next? h0, bind_done, draw_s1_of_next? (s := s.advance 1 0 0) h1, bind_done,
    advance_advance, draw_s2_of_next? (s := s.advance 1 1 0) h2, bind_done, advance_advance]

theorem combinerUnit_of_geffe (cap : Option ℕ+) (hc : s.cmb = .geffe) :
    combinerUnit cap s = drawThree geffe s := by
  rw [combinerUnit, hc]
  rfl

/-- R224: CMB_NEXT under GEFFE is one unit, whatever the cap. -/
theorem cmbNextUnder_of_geffe (cap : Option ℕ+) (hc : s.cmb = .geffe) :
    cmbNextUnder cap s = finish .cmbNext s id (drawThree geffe s) := by
  rw [cmbNextUnder, guarded_of_none (by rw [checksCmbNext, hc]; rfl), combinerUnit_of_geffe cap hc]

theorem geffeNextAltUnder_of_geffe (form : GeffeAltForm) (hc : s.cmb = .geffe) :
    geffeNextAltUnder form s = finish .geffeNextAlt s id (drawThree (geffeAlt form) s) := by
  rw [geffeNextAltUnder, guarded_of_none (by rw [checksGeffeNextAlt, hc]; rfl)]

/-- R143: the second entry point is refused under every other combiner. -/
theorem geffeNextAltUnder_of_not_geffe (form : GeffeAltForm) (hc : s.cmb ≠ .geffe) :
    geffeNextAltUnder form s = answered 3#4 0#64 s := by
  have hcheck : s.cmb.isGeffe = false := by rwa [Bool.eq_false_iff, ne_eq, Cmb.isGeffe_iff]
  rw [geffeNextAltUnder, guarded_of_some (st := .notReady) (by rw [checksGeffeNextAlt, hcheck]; rfl)]
  rfl

/-- A unit's answer once the bits it draws are known. -/
theorem finish_drawThree (i : Instr) (f : Bool → Bool → Bool → Bool) (h0 : s.s0.next? = some b1)
    (h1 : s.s1.next? = some b2) (h2 : s.s2.next? = some b3) :
    finish i s id (drawThree f s) = answered 0#4 (bitWord (f b1 b2 b3)) (s.advance 1 1 1) := by
  rw [drawThree_of_next? f h0 h1 h2]
  rfl

end

theorem exec_cmbNext (s : State) : exec .cmbNext s = cmbNextUnder Config.retryCap s := rfl

/-- R144: REFERENCE is the form of this hardware. -/
theorem exec_geffeNextAlt (s : State) : exec .geffeNextAlt s = geffeNextAltUnder .reference s := rfl

/-- Settles O43: each entry point is one unit of three draws under its own formula. -/
theorem geffeEntryPointsDrawOneTriple : Obligations.GeffeEntryPointsDrawOneTriple := by
  refine ⟨rfl, fun s hc => geffeNextAltUnder_of_not_geffe _ hc,
    fun s b1 b2 b3 hc h0 h1 h2 => ⟨?_, ?_, ?_⟩⟩
  · rw [exec_cmbNext, cmbNextUnder_of_geffe _ hc, finish_drawThree _ geffe h0 h1 h2, geffe]
  · rw [exec_geffeNextAlt, geffeNextAltUnder_of_geffe _ hc, finish_drawThree _ _ h0 h1 h2, geffeAlt]
  · rw [geffeNextAltUnder_of_geffe _ hc, finish_drawThree _ _ h0 h1 h2, geffeAlt]

/-! ### Units of one bit in DATA (R221, R228) -/

/-- R221: of 1-bit units the last one is bit 0 of DATA. -/
theorem getLsbD_pack_bitWord (bs : List Bool) {i : Nat} (hi : i < 64) :
    (pack 1 (bs.map bitWord)).getLsbD i = bs.reverse.getD i false := by
  induction bs using List.reverseRecOn generalizing i with
  | nil => simp
  | append_singleton bs b ih =>
    rw [List.map_append, List.map_singleton, pack_append_singleton, BitVec.getLsbD_or,
      BitVec.getLsbD_shiftLeft, getLsbD_bitWord, List.reverse_append]
    cases i with
    | zero => simp
    | succ i => simp [hi, ih (Nat.lt_of_succ_lt hi)]

/-- R228: the host reads the bits in the order they were produced. -/
theorem stringView_pack_bitWord {bs : List Bool} (h : bs.length ≤ 64) :
    stringView bs.length (pack 1 (bs.map bitWord)) = bs := by
  refine List.ext_getElem (length_stringView _ _) fun j hj hj' => ?_
  have hi : bs.length - 1 - j < bs.length := by omega
  have hj2 : bs.length - 1 - (bs.length - 1 - j) = j := by omega
  simp [stringView, getLsbD_pack_bitWord bs (Nat.lt_of_lt_of_le hi h), hi, hj2]

/-! ### n units under GEFFE (R145, R225) -/

/-- R145: the three streams combined bit by bit, n bits of them. -/
def geffeStream (n : Nat) (s : State) : List Bool :=
  List.zipWith (fun b b3 => geffe b.1 b.2 b3) ((s.s0.bits n).zip (s.s1.bits n)) (s.s2.bits n)

section
variable {s : State} (h0 : s.s0 ≠ .empty) (h1 : s.s1 ≠ .empty) (h2 : s.s2 ≠ .empty)
include h0 h1 h2

theorem length_geffeStream (n : Nat) : (geffeStream n s).length = n := by
  simp [geffeStream, length_bits h0, length_bits h1, length_bits h2]

/-- R142, R145: n units produce the n bits of the combined stream and draw n times from each source. -/
theorem repeatUnit_of_geffe (cap : Option ℕ+) (hc : s.cmb = .geffe) (n : Nat) :
    repeatUnit (combinerUnit cap) n s =
      .done ((geffeStream n s).map bitWord) (s.advance n n n) := by
  induction n generalizing s with
  | zero => rfl
  | succ n ih =>
    obtain ⟨b1, hb1⟩ := exists_next? h0
    obtain ⟨b2, hb2⟩ := exists_next? h1
    obtain ⟨b3, hb3⟩ := exists_next? h2
    have hstream : geffeStream (n + 1) s = geffe b1 b2 b3 :: geffeStream n (s.advance 1 1 1) := by
      simp [geffeStream, bits_succ_of_next? hb1, bits_succ_of_next? hb2, bits_succ_of_next? hb3]
    rw [repeatUnit_succ, combinerUnit_of_geffe cap hc, drawThree_of_next? geffe hb1 hb2 hb3, bind_done,
      ih (s := s.advance 1 1 1) (after_one_ne_empty h0) (after_one_ne_empty h1) (after_one_ne_empty h2) hc,
      bind_done, hstream, advance_advance, Nat.add_comm 1 n, List.map_cons]

/-- R225: CMB_GETN under GEFFE, whatever the cap. -/
theorem cmbGetnUnder_of_geffe (cap : Option ℕ+) (hc : s.cmb = .geffe) (n : BitVec 7) :
    cmbGetnUnder cap n s = answered 0#4 (pack 1 ((geffeStream n.toNat s).map bitWord))
      (s.advance n.toNat n.toNat n.toNat) := by
  have hchecks : firstFailing (checksCmbGetn s n) = none := by
    simp [checksCmbGetn, hc, Cmb.isNone, Cmb.unitWidth, Nat.mod_one]
  rw [cmbGetnUnder, guarded_of_none hchecks, hc, Cmb.unitWidth, Nat.div_one,
    repeatUnit_of_geffe h0 h1 h2 cap hc]
  rfl

end

theorem exec_cmbGetn (n : BitVec 7) (s : State) :
    exec (.cmbGetn n) s = cmbGetnUnder Config.retryCap n s := rfl

/-- Settles O44: the units are the bits of the combined stream, and DATA shows them in that order. -/
theorem geffeGetnCombinesThreeStreams : Obligations.GeffeGetnCombinesThreeStreams := by
  intro s n hc h0 h1 h2 hn
  refine ⟨_, (exec_cmbGetn n s).trans (cmbGetnUnder_of_geffe h0 h1 h2 _ hc n), ?_⟩
  have hlen := length_geffeStream h0 h1 h2 n.toNat
  have hview := stringView_pack_bitWord (hlen.trans_le hn)
  rwa [hlen] at hview

/-! ### The binds that draw nothing (R140, R180, R200) -/

/-- R254: a row reports its first check if that fails, and else the first failing one after it. -/
theorem firstFailing_cons (c : Bool) (st : Status) (cs : List (Bool × Status)) :
    firstFailing ((c, st) :: cs) = if c then some st else firstFailing cs := by
  cases c <;> rfl

theorem isNone_eq_false_iff (c : Cmb) : c.isNone = false ↔ c ≠ .none := by
  rw [Bool.eq_false_iff, ne_eq, Cmb.isNone_iff]

theorem ne_empty_of_isGal {v : Slot} (h : v.isGal = true) : v ≠ .empty := by
  rintro rfl
  exact absurd h Bool.false_ne_true

/-- R140, R160, R254: the first check of BIND_GEFFE or BIND_STOPGO that fails. -/
theorem firstFailing_checksBind3 (s : State) :
    firstFailing (checksBind3 s) =
      if s.cmb ≠ .none then some .owned
      else if s.s0 = .empty ∨ s.s1 = .empty ∨ s.s2 = .empty then some .notReady else none := by
  simp [checksBind3, firstFailing_cons, isNone_eq_false_iff, or_assoc]

/-- R180, R254. -/
theorem firstFailing_checksBindShrink (s : State) :
    firstFailing (checksBindShrink s) =
      if s.cmb ≠ .none then some .owned
      else if s.s0 = .empty ∨ s.s1 = .empty then some .notReady else none := by
  simp [checksBindShrink, firstFailing_cons, isNone_eq_false_iff]

/-- R200, R254. -/
theorem firstFailing_checksBindSshrink (s : State) :
    firstFailing (checksBindSshrink s) =
      if s.cmb ≠ .none then some .owned
      else if s.s0 = .empty ∨ s.s1 = .empty then some .notReady
      else if s.s0.isGal = false ∨ s.s1.isGal = false then some .configError else none := by
  simp [checksBindSshrink, firstFailing_cons, isNone_eq_false_iff]

/-- A command that only writes answers with its first failing check, or makes its write. -/
theorem guarded_respond_eq (cs : List (Bool × Status)) (s : State) (f : State → State) :
    guarded cs s (fun s => .next (respond .ok 0#64 (f s))) =
      (firstFailing cs).elim (answered 0#4 0#64 (f s)) fun st => answered st.code 0#64 s := by
  rw [guarded]
  cases firstFailing cs <;> rfl

/-- R140: everything BIND_GEFFE can do. -/
theorem exec_bindGeffe (s : State) :
    exec .bindGeffe s =
      if s.cmb ≠ .none then answered 4#4 0#64 s
      else if s.s0 = .empty ∨ s.s1 = .empty ∨ s.s2 = .empty then answered 3#4 0#64 s
      else answered 0#4 0#64 (s.setCmb .geffe) := by
  have harm : exec .bindGeffe s = execBindGeffe s := rfl
  rw [harm, execBindGeffe, guarded_respond_eq, firstFailing_checksBind3]
  split_ifs <;> rfl

/-- R180: everything BIND_SHRINK can do. -/
theorem exec_bindShrink (s : State) :
    exec .bindShrink s =
      if s.cmb ≠ .none then answered 4#4 0#64 s
      else if s.s0 = .empty ∨ s.s1 = .empty then answered 3#4 0#64 s
      else answered 0#4 0#64 (s.setCmb .shrink) := by
  have harm : exec .bindShrink s = execBindShrink s := rfl
  rw [harm, execBindShrink, guarded_respond_eq, firstFailing_checksBindShrink]
  split_ifs <;> rfl

/-- R200: everything BIND_SSHRINK can do. -/
theorem exec_bindSshrink (s : State) :
    exec .bindSshrink s =
      if s.cmb ≠ .none then answered 4#4 0#64 s
      else if s.s0 = .empty ∨ s.s1 = .empty then answered 3#4 0#64 s
      else if s.s0.isGal = false ∨ s.s1.isGal = false then answered 2#4 0#64 s
      else answered 0#4 0#64 (s.setCmb .sshrink) := by
  have harm : exec .bindSshrink s = execBindSshrink s := rfl
  rw [harm, execBindSshrink, guarded_respond_eq, firstFailing_checksBindSshrink]
  split_ifs <;> rfl

/-- Settles O42, check by check. -/
theorem bindsFollowTheirPseudocode : Obligations.BindsFollowTheirPseudocode := by
  refine ⟨rfl, rfl, rfl, fun s => ⟨fun hbound => ⟨?_, ?_, ?_⟩, fun hfree hempty => ?_,
    fun hfree h0 h1 h2 => ?_, fun hfree hempty => ⟨?_, ?_⟩, fun hfree h0 h1 => ?_,
    fun hfree h0 h1 hfib => ?_, fun hfree hgal0 hgal1 => ?_⟩⟩
  · rw [exec_bindGeffe, if_pos hbound]
  · rw [exec_bindShrink, if_pos hbound]
  · rw [exec_bindSshrink, if_pos hbound]
  · simp [exec_bindGeffe, hfree, hempty]
  · simp [exec_bindGeffe, hfree, h0, h1, h2]
  · simp [exec_bindShrink, hfree, hempty]
  · simp [exec_bindSshrink, hfree, hempty]
  · simp [exec_bindShrink, hfree, h0, h1]
  · simp [exec_bindSshrink, hfree, h0, h1, hfib]
  · simp [exec_bindSshrink, hfree, ne_empty_of_isGal hgal0, ne_empty_of_isGal hgal1, hgal0, hgal1]

end Sys2Proof.Machine
end

section
/-! PROOFS of the family 43_stop_and_go_combiner.md: the draws and checks of BIND_STOPGO, one unit for
each value of the control bit, and the state and outputs of n units, one unit at a time. -/

namespace Sys2Proof.Machine

/-! ### Slots after some draws (R220) -/

theorem ne_empty_of_next? {v : Slot} {b : Bool} (h : v.next? = some b) : v ≠ .empty := by
  rintro rfl
  cases h

theorem after_ne_empty {v : Slot} (hv : v ≠ .empty) (n : Nat) : v.after n ≠ .empty := by
  induction n with
  | zero => exact hv
  | succ n ih =>
    rw [after_add]
    exact after_one_ne_empty ih

/-- The bits of one more draw end in the bit that it gives. -/
theorem bits_succ_eq_append {v : Slot} {n : Nat} {b : Bool} (h : (v.after n).next? = some b) :
    v.bits (n + 1) = v.bits n ++ [b] := by
  rw [bits_add, bits_succ_of_next? h, bits_zero]

/-- Draws do not touch CMB, so only its last write is seen. -/
theorem setCmb_advance_setCmb (s : State) (a b c a' b' c' : Nat) (x y : Cmb) :
    (((s.advance a b c).setCmb x).advance a' b' c').setCmb y =
      (s.advance (a + a') (b + b') (c + c')).setCmb y := by
  rw [← advance_advance]
  rfl

theorem setCmb_self {s : State} {c : Cmb} (h : s.cmb = c) : s.setCmb c = s := by
  subst h
  rfl

/-! ### BIND_STOPGO (R160) -/

/-- R160, R254: a failing check comes before the draws, so the slots are as they were. -/
theorem exec_bindStopgo_of_failing {s : State} {st : Status}
    (h : firstFailing (checksBind3 s) = some st) : exec .bindStopgo s = answered st.code 0#64 s := by
  have harm : exec .bindStopgo s = execBindStopgo s := rfl
  rw [harm, execBindStopgo, guarded_of_some h]
  rfl

/-- R160: one bit from each source is drawn and latched. -/
theorem exec_bindStopgo_of_next? {s : State} {b1 b2 b3 : Bool} (hfree : s.cmb = .none)
    (h0 : s.s0.next? = some b1) (h1 : s.s1.next? = some b2) (h2 : s.s2.next? = some b3) :
    exec .bindStopgo s = answered 0#4 0#64 ((s.advance 1 1 1).setCmb (.stopgo b1 b2 b3)) := by
  have hchecks : firstFailing (checksBind3 s) = none := by
    simp [firstFailing_checksBind3, hfree, ne_empty_of_next? h0, ne_empty_of_next? h1,
      ne_empty_of_next? h2]
  have harm : exec .bindStopgo s = execBindStopgo s := rfl
  rw [harm, execBindStopgo, guarded_of_none hchecks, draw_s0_of_next? h0, bind_done,
    draw_s1_of_next? (s := s.advance 1 0 0) h1, bind_done, advance_advance,
    draw_s2_of_next? (s := s.advance 1 1 0) h2, bind_done, advance_advance]
  rfl

/-- Settles O45, check by check and then the draws. -/
theorem bindStopgoLatchesThreeBits : Obligations.BindStopgoLatchesThreeBits := by
  refine ⟨rfl, fun s => ⟨fun hbound => ?_, fun hfree hempty => ?_,
    fun b1 b2 b3 hfree h0 h1 h2 => exec_bindStopgo_of_next? hfree h0 h1 h2⟩⟩
  · exact exec_bindStopgo_of_failing (st := .owned) (by rw [firstFailing_checksBind3, if_pos hbound])
  · exact exec_bindStopgo_of_failing (st := .notReady)
      (by rw [firstFailing_checksBind3, if_neg (not_not_intro hfree), if_pos hempty])

/-! ### One unit (R161) -/

section
variable {s : State} {b1 b2 b3 b : Bool}

/-- R161: on a control bit of 1 a fresh bit comes from S1, and that of S2 stays latched. -/
theorem stopGoUnit_of_control_true (b2 b3 : Bool) (h0 : s.s0.next? = some true)
    (h1 : s.s1.next? = some b) :
    stopGoUnit b2 b3 s = .done (bitWord (b ^^ b3)) ((s.advance 1 1 0).setCmb (.stopgo true b b3)) := by
  rw [stopGoUnit, draw_s0_of_next? h0, bind_done, if_pos rfl,
    draw_s1_of_next? (s := s.advance 1 0 0) h1, bind_done, advance_advance]

/-- R161: on a control bit of 0 a fresh bit comes from S2, and that of S1 stays latched. -/
theorem stopGoUnit_of_control_false (b2 b3 : Bool) (h0 : s.s0.next? = some false)
    (h2 : s.s2.next? = some b) :
    stopGoUnit b2 b3 s =
      .done (bitWord (b2 ^^ b)) ((s.advance 1 0 1).setCmb (.stopgo false b2 b)) := by
  rw [stopGoUnit, draw_s0_of_next? h0, bind_done, if_neg Bool.false_ne_true,
    draw_s2_of_next? (s := s.advance 1 0 0) h2, bind_done, advance_advance]

theorem combinerUnit_of_stopgo (cap : Option ℕ+) (hc : s.cmb = .stopgo b1 b2 b3) :
    combinerUnit cap s = stopGoUnit b2 b3 s := by
  rw [combinerUnit, hc]

/-- R224: CMB_NEXT under STOPGO is one unit, whatever the cap. -/
theorem cmbNextUnder_of_stopgo (cap : Option ℕ+) (hc : s.cmb = .stopgo b1 b2 b3) :
    cmbNextUnder cap s = finish .cmbNext s id (stopGoUnit b2 b3 s) := by
  rw [cmbNextUnder, guarded_of_none (by rw [checksCmbNext, hc]; rfl), combinerUnit_of_stopgo cap hc]

end

/-- Settles O46, by the control bit. -/
theorem stopGoUnitClocksOneSource : Obligations.StopGoUnitClocksOneSource := by
  refine fun s b1 b2 b3 b hc => ⟨fun h0 h1 => ?_, fun h0 h2 => ?_⟩
  · rw [exec_cmbNext, cmbNextUnder_of_stopgo _ hc, stopGoUnit_of_control_true b2 b3 h0 h1]
    rfl
  · rw [exec_cmbNext, cmbNextUnder_of_stopgo _ hc, stopGoUnit_of_control_false b2 b3 h0 h2]
    rfl

/-! ### n units (R162, R163, R225) -/

/-- R162: how many of n units have the control bit c: the draws of S1 for 1, and of S2 for 0. -/
def State.clocks (s : State) (c : Bool) (n : Nat) : Nat := (s.s0.bits n).count c

/-- R163: the bit latched after n draws of a slot: its last bit, or before any draw the bit b. -/
def Slot.latched (v : Slot) (n : Nat) (b : Bool) : Bool := (v.bits n).getLastD b

/-- The output of the n-th of a sequence of units that begins with b2 and b3 latched. -/
def stopGoOutput (s : State) (b2 b3 : Bool) (n : Nat) : Bool :=
  s.s1.latched (s.clocks true n) b2 ^^ s.s2.latched (s.clocks false n) b3

/-- The outputs of n units, the first one first. -/
def stopGoStream (s : State) (b2 b3 : Bool) (n : Nat) : List Bool :=
  (List.range n).map fun j => stopGoOutput s b2 b3 (j + 1)

/-- R162: the state after n units. -/
def State.afterStopGo (s : State) (b1 b2 b3 : Bool) (n : Nat) : State :=
  (s.advance n (s.clocks true n) (s.clocks false n)).setCmb
    (.stopgo (s.s0.latched n b1) (s.s1.latched (s.clocks true n) b2)
      (s.s2.latched (s.clocks false n) b3))

/-- A draw latches the bit that it gives. -/
theorem latched_succ {v : Slot} {n : Nat} {b' : Bool} (h : (v.after n).next? = some b') (b : Bool) :
    v.latched (n + 1) b = b' := by
  rw [Slot.latched, bits_succ_eq_append h, List.getLastD_concat]

section
variable {s : State} {n : Nat} {b : Bool}

/-- R162: the slot that the control bit names is clocked once more. -/
theorem clocks_succ_same (h : (s.s0.after n).next? = some b) :
    s.clocks b (n + 1) = s.clocks b n + 1 := by
  rw [State.clocks, bits_succ_eq_append h, List.count_append, List.count_singleton_self, State.clocks]

/-- R162: the other slot is not clocked. -/
theorem clocks_succ_other {c : Bool} (h : (s.s0.after n).next? = some b) (hc : b ≠ c) :
    s.clocks c (n + 1) = s.clocks c n := by
  rw [State.clocks, bits_succ_eq_append h, List.count_append, List.count_singleton, State.clocks]
  simp [hc]

end

theorem length_stopGoStream (s : State) (b2 b3 : Bool) (n : Nat) :
    (stopGoStream s b2 b3 n).length = n := by
  rw [stopGoStream, List.length_map, List.length_range]

theorem stopGoStream_succ (s : State) (b2 b3 : Bool) (n : Nat) :
    stopGoStream s b2 b3 (n + 1) = stopGoStream s b2 b3 n ++ [stopGoOutput s b2 b3 (n + 1)] := by
  rw [stopGoStream, List.range_succ, List.map_append, List.map_singleton, stopGoStream]

theorem afterStopGo_zero {s : State} {b1 b2 b3 : Bool} (hc : s.cmb = .stopgo b1 b2 b3) :
    s.afterStopGo b1 b2 b3 0 = s :=
  setCmb_self hc

/-- A run of units grows at its end: n units and then one more. -/
theorem repeatUnit_succ_of_done {unit : State → Run Word} {n : Nat} {s t t' : State}
    {us : List Word} {u : Word} (h : repeatUnit unit n s = .done us t) (hu : unit t = .done u t') :
    repeatUnit unit (n + 1) s = .done (us ++ [u]) t' := by
  induction n generalizing s us with
  | zero =>
    cases h
    rw [repeatUnit_succ, hu]
    rfl
  | succ n ih =>
    rw [repeatUnit_succ, bind_eq_done] at h
    obtain ⟨w, s1, hw, h⟩ := h
    obtain ⟨ws, s2, hws, h⟩ := bind_eq_done.mp h
    cases h
    rw [repeatUnit_succ, hw, bind_done, ih hws]
    rfl

section
variable {s : State} (h0 : s.s0 ≠ .empty) (h1 : s.s1 ≠ .empty) (h2 : s.s2 ≠ .empty)
include h0 h1 h2

/-- R161, R162: one unit more, for each value of its control bit. -/
theorem combinerUnit_afterStopGo (cap : Option ℕ+) (b1 b2 b3 : Bool) (n : Nat) :
    combinerUnit cap (s.afterStopGo b1 b2 b3 n) =
      .done (bitWord (stopGoOutput s b2 b3 (n + 1))) (s.afterStopGo b1 b2 b3 (n + 1)) := by
  obtain ⟨c, hc⟩ := exists_next? (after_ne_empty h0 n)
  rw [combinerUnit_of_stopgo cap rfl]
  cases c with
  | true =>
    obtain ⟨d, hd⟩ := exists_next? (after_ne_empty h1 (s.clocks true n))
    rw [stopGoUnit_of_control_true (s := s.afterStopGo b1 b2 b3 n) _ _ hc hd, stopGoOutput,
      State.afterStopGo, State.afterStopGo, clocks_succ_same hc, clocks_succ_other hc (by decide),
      latched_succ hc, latched_succ hd, setCmb_advance_setCmb]
    rfl
  | false =>
    obtain ⟨d, hd⟩ := exists_next? (after_ne_empty h2 (s.clocks false n))
    rw [stopGoUnit_of_control_false (s := s.afterStopGo b1 b2 b3 n) _ _ hc hd, stopGoOutput,
      State.afterStopGo, State.afterStopGo, clocks_succ_same hc, clocks_succ_other hc (by decide),
      latched_succ hc, latched_succ hd, setCmb_advance_setCmb]
    rfl

/-- R162, R163: the outputs of n units, and the state they leave. -/
theorem repeatUnit_of_stopgo (cap : Option ℕ+) {b1 b2 b3 : Bool} (hc : s.cmb = .stopgo b1 b2 b3)
    (n : Nat) :
    repeatUnit (combinerUnit cap) n s =
      .done ((stopGoStream s b2 b3 n).map bitWord) (s.afterStopGo b1 b2 b3 n) := by
  induction n with
  | zero => rw [afterStopGo_zero hc]; rfl
  | succ n ih =>
    rw [repeatUnit_succ_of_done ih (combinerUnit_afterStopGo h0 h1 h2 cap b1 b2 b3 n),
      stopGoStream_succ, List.map_append, List.map_singleton]

/-- R225: CMB_GETN under STOPGO, whatever the cap. -/
theorem cmbGetnUnder_of_stopgo (cap : Option ℕ+) {b1 b2 b3 : Bool} (hc : s.cmb = .stopgo b1 b2 b3)
    (n : BitVec 7) :
    cmbGetnUnder cap n s = answered 0#4 (pack 1 ((stopGoStream s b2 b3 n.toNat).map bitWord))
      (s.afterStopGo b1 b2 b3 n.toNat) := by
  have hchecks : firstFailing (checksCmbGetn s n) = none := by
    simp [checksCmbGetn, hc, Cmb.isNone, Cmb.unitWidth, Nat.mod_one]
  rw [cmbGetnUnder, guarded_of_none hchecks, repeatUnit_of_stopgo h0 h1 h2 cap hc, hc, Cmb.unitWidth,
    Nat.div_one]
  rfl

end

/-- Settles O47: the state after n units gives the counts and the latched bits, and DATA shows the
outputs in their order. -/
theorem stopGoClockingPattern : Obligations.StopGoClockingPattern := by
  intro s b1 b2 b3 n hc h0 h1 h2 hn
  refine ⟨_, (exec_cmbGetn n s).trans (cmbGetnUnder_of_stopgo h0 h1 h2 _ hc n), ?_⟩
  have hlen := length_stopGoStream s b2 b3 n.toNat
  have hview := stringView_pack_bitWord (hlen.trans_le hn)
  rwa [hlen] at hview

end Sys2Proof.Machine
end

section
/-! PROOFS of the family 44_shrinking_combiner.md: where the first 1 of a control is, one shrinking unit
pair by pair, the pairs and kept bits of a unit that ends, and the units of CMB_GETN under SHRINK and
SSHRINK together. -/

namespace Sys2Proof.Machine

/-! ### Bits one at a time -/

section
variable {v : Slot} {b : Bool} {n : Nat}

theorem ne_empty_of_bits_ne_nil (h : v.bits n ≠ []) : v ≠ .empty := by
  rintro rfl
  exact h (bits_empty n)

/-- The first bit of a stream is the next one, and the others come after one draw. -/
theorem next?_of_bits_succ_eq_cons {bs : List Bool} (h : v.bits (n + 1) = b :: bs) :
    v.next? = some b ∧ (v.after 1).bits n = bs := by
  obtain ⟨c, hc⟩ := exists_next? (ne_empty_of_bits_ne_nil (h ▸ List.cons_ne_nil b bs))
  rw [bits_succ_of_next? hc] at h
  obtain ⟨rfl, hbs⟩ := List.cons.inj h
  exact ⟨hc, hbs⟩

/-- The last of n + 1 bits is the one drawn after n draws. -/
theorem next?_of_bits_succ_eq_append {bs : List Bool} (h : v.bits (n + 1) = bs ++ [b]) :
    v.bits n = bs ∧ (v.after n).next? = some b := by
  have hv : v ≠ .empty := ne_empty_of_bits_ne_nil (n := n + 1) (by simp [h])
  obtain ⟨c, hc⟩ := exists_next? (after_ne_empty hv n)
  rw [bits_succ_eq_append hc] at h
  obtain ⟨hbs, rfl⟩ := List.append_singleton_inj.mp h
  exact ⟨hbs, hc⟩

theorem next?_of_getLast?_bits (h : (v.bits (n + 1)).getLast? = some b) :
    (v.after n).next? = some b := by
  obtain ⟨bs, hbs⟩ := List.getLast?_eq_some_iff.mp h
  exact (next?_of_bits_succ_eq_append hbs).2

/-- A bit that comes within m draws comes within any larger number. -/
theorem mem_bits_of_le {m : Nat} (hmn : m ≤ n) (h : b ∈ v.bits m) : b ∈ v.bits n := by
  rw [← Nat.add_sub_cancel' hmn, bits_add]
  exact List.mem_append_left _ h

/-- A stream with a 1 has a first 1, with zeros before it. -/
theorem exists_first_one (h : true ∈ v.bits n) :
    ∃ j < n, v.bits (j + 1) = List.replicate j false ++ [true] := by
  induction n generalizing v with
  | zero => simp at h
  | succ n ih =>
    obtain ⟨c, hc⟩ := exists_next? (ne_empty_of_bits_ne_nil (List.ne_nil_of_mem h))
    cases c with
    | true => exact ⟨0, by omega, by rw [bits_succ_of_next? hc, bits_zero]; rfl⟩
    | false =>
      rw [bits_succ_of_next? hc, List.mem_cons] at h
      obtain ⟨j, hj, hbits⟩ := ih (h.resolve_left (by decide))
      exact ⟨j + 1, by omega, by rw [bits_succ_of_next? hc, hbits]; rfl⟩

end

/-! ### Runs of zeros, whatever the fields of a register hold -/

/-- R108: zeros fill a Fibonacci register from element 0 up, and from the zero register a 1 comes. -/
theorem true_mem_bits_fib (L : BitVec 7) (T : Word) {n m : Nat} {r : Word}
    (hlow : ∀ i < m, r.getLsbD i = false) (hn : 64 ≤ m + n) :
    true ∈ (Slot.fib L T r).bits (n + 1) := by
  induction n generalizing m r with
  | zero =>
    have hr : r = 0#64 := BitVec.eq_of_getLsbD_eq fun i hi => by
      rw [hlow i (by omega), BitVec.getLsbD_zero]
    rw [bits_fib_succ, hr, fibStep_zero]
    exact List.mem_cons_self
  | succ n ih =>
    rw [bits_fib_succ, List.mem_cons]
    cases hout : (fibStep L T r).1 with
    | true => exact .inl rfl
    | false =>
      refine .inr (ih (m := m + 1) (fun i hi => ?_) (by omega))
      rw [getLsbD_fibStep, hout]
      split_ifs with h0
      · rfl
      · simp [hlow (i - 1) (by omega)]

/-- R121: a Galois register wider than a word has no top bit, so every output is 0. -/
theorem bits_gal_wide {m : BitVec 7} (hm : 64 < m.toNat) (P x : Word) (n : Nat) :
    (Slot.gal m P x).bits n = List.replicate n false := by
  induction n generalizing x with
  | zero => rfl
  | succ n ih =>
    rw [bits_gal_succ, ih, galStep_bit, BitVec.getLsbD_of_ge _ _ (by omega), List.replicate_succ]

/-- R126: a Galois register that gives 64 zeros gives no 1 at all, since no bit below its width is set. -/
theorem bits_gal_of_zeros {m : BitVec 7} {P x : Word} (h : true ∉ (Slot.gal m P x).bits 64) (n : Nat) :
    (Slot.gal m P x).bits n = List.replicate n false := by
  rcases Nat.lt_or_ge 64 m.toNat with hwide | hmax
  · exact bits_gal_wide hwide P x n
  · have hlow : ∀ i < m.toNat, x.getLsbD i = false := fun i hi =>
      Bool.eq_false_of_not_eq_true fun hbit => h (true_mem_bits_gal hmax P hi (by omega) hbit)
    have hout : (galStep m P x).1 = false :=
      Bool.eq_false_of_not_eq_true fun hbit => h (by rw [bits_gal_succ, hbit]; exact List.mem_cons_self)
    have hnext : (galStep m P x).2 = 0#64 := BitVec.eq_of_getLsbD_eq fun i hi => by
      rw [getLsbD_galStep, hout]
      by_cases him : i < m.toNat
      · simp [hlow (i - 1) (by omega)]
      · simp [him]
    cases n with
    | zero => rfl
    | succ n => rw [bits_gal_succ, hout, hnext, bits_gal_zero, List.replicate_succ]

/-- Whatever the fields of a slot hold, its first 1 is among its first 65 bits if it gives one. -/
theorem first_one_lt {v : Slot} {j : Nat} (h : v.bits (j + 1) = List.replicate j false ++ [true]) :
    j < 65 := by
  obtain ⟨hzeros, -⟩ := next?_of_bits_succ_eq_append h
  have hone : true ∈ v.bits (j + 1) := h ▸ List.mem_append_right _ (List.mem_singleton_self true)
  by_contra hj
  have hnone : ∀ n ≤ j, true ∉ v.bits n := fun n hn hmem => by
    simpa [hzeros] using mem_bits_of_le hn hmem
  cases v with
  | empty => simp at hone
  | fib L T r =>
    exact hnone 65 (by omega)
      (true_mem_bits_fib L T (m := 0) (fun i hi => absurd hi (Nat.not_lt_zero i)) (by omega))
  | gal m P x =>
    rw [bits_gal_of_zeros (hnone 64 (by omega))] at hone
    simp at hone

/-! ### Registers that go on giving 1s (R108, R126) -/

/-- A register that is well-formed and not a zero Galois register: it gives a 1 within 65 draws. -/
theorem true_mem_bits_of_ne_zero_galois {v : Slot} (hwf : v.wf = true) (hne : v ≠ .empty)
    (hnz : ∀ m P, v ≠ .gal m P 0#64) : true ∈ v.bits 65 := by
  cases v with
  | empty => exact absurd rfl hne
  | fib L T r =>
    obtain ⟨hpos, hmax, hT, hr⟩ := wf_fib_iff.mp hwf
    exact mem_bits_of_le (Nat.succ_le_succ hmax) (fibonacciZeroRunsAreBounded L T r hpos hmax hT hr)
  | gal m P x =>
    obtain ⟨⟨hpos, hmax, hP, hx⟩, hodd, -⟩ := wf_gal_iff.mp hwf
    exact mem_bits_of_le (Nat.le_succ_of_le hmax)
      (galoisZeroRunsAreBounded m P x hpos hmax hP hodd hx fun h => hnz m P (by rw [h]))

/-- R125: a draw does not make a zero Galois register. -/
theorem ne_zero_galois_of_step {v v' : Slot} {b : Bool} (hwf : v.wf = true)
    (hnz : ∀ m P, v ≠ .gal m P 0#64) (h : v.step = some (b, v')) : ∀ m P, v' ≠ .gal m P 0#64 := by
  cases v with
  | empty => cases h
  | fib L T r => cases h; exact nofun
  | gal m P x =>
    cases h
    obtain ⟨⟨hpos, hmax, hP, hx⟩, hodd, -⟩ := wf_gal_iff.mp hwf
    obtain ⟨-, -, hzero, -⟩ := (galStepIsInvertible m P hpos hmax hP hodd).2 x hx
    intro m' P' heq
    obtain ⟨-, -, hx'⟩ := Slot.gal.inj heq
    exact hnz m P (by rw [hzero.mp hx'])

theorem ne_zero_galois_after {v : Slot} (hwf : v.wf = true) (hnz : ∀ m P, v ≠ .gal m P 0#64)
    (n : Nat) : ∀ m P, v.after n ≠ .gal m P 0#64 := by
  induction n generalizing v with
  | zero => exact hnz
  | succ n ih =>
    cases h : v.step with
    | none => rw [(step_eq_none_iff v).mp h, after_empty]; exact nofun
    | some p =>
      rw [after_succ_of_step h]
      exact ih (wf_of_step hwf h) (ne_zero_galois_of_step hwf hnz h)

/-- From every place of the slot's stream on, a 1 comes within 65 draws. -/
def Slot.Recurs (v : Slot) : Prop := ∀ n, true ∈ (v.after n).bits 65

theorem recurs_of_ne_zero_galois {v : Slot} (hwf : v.wf = true) (hne : v ≠ .empty)
    (hnz : ∀ m P, v ≠ .gal m P 0#64) : v.Recurs := fun n =>
  true_mem_bits_of_ne_zero_galois (wf_after hwf n) (after_ne_empty hne n)
    (ne_zero_galois_after hwf hnz n)

theorem Slot.Recurs.after {v : Slot} (h : v.Recurs) (n : Nat) : (v.after n).Recurs := fun k => by
  rw [← after_add]
  exact h (n + k)

/-- k runs of 65 draws give k ones at least. -/
theorem Slot.Recurs.le_count {v : Slot} (h : v.Recurs) (k : Nat) :
    k ≤ (v.bits (65 * k)).count true := by
  induction k with
  | zero => exact Nat.zero_le _
  | succ k ih =>
    rw [Nat.mul_succ, bits_add, List.count_append]
    exact Nat.add_le_add ih (List.count_pos_iff.mpr (h (65 * k)))

/-! ### One pair -/

/-- R181, R201: one pair, a bit of S0 and then one of S1, and what is done with it. -/
def drawPair {α : Type} (f : Bool → Bool → State → Run α) (s : State) : Run α :=
  (draw .s0 s).bind fun b0 t0 => (draw .s1 t0).bind fun b1 t1 => f b0 b1 t1

section
variable {α : Type} {s t : State} {b0 b1 : Bool}

theorem drawPair_of_next? (f : Bool → Bool → State → Run α) (h0 : s.s0.next? = some b0)
    (h1 : s.s1.next? = some b1) : drawPair f s = f b0 b1 (s.advance 1 1 0) := by
  rw [drawPair, draw_s0_of_next? h0, bind_done, draw_s1_of_next? (s := s.advance 1 0 0) h1, bind_done,
    advance_advance]

/-- A run that begins with a pair and ends with a value found a bit in each slot. -/
theorem drawPair_eq_done {f : Bool → Bool → State → Run α} {a : α} (h : drawPair f s = .done a t) :
    ∃ b0 b1, s.s0.next? = some b0 ∧ s.s1.next? = some b1 ∧ f b0 b1 (s.advance 1 1 0) = .done a t := by
  obtain ⟨b0, t0, hdraw0, h'⟩ := bind_eq_done.mp h
  obtain ⟨b1, t1, hdraw1, -⟩ := bind_eq_done.mp h'
  obtain ⟨v0, hv0, rfl⟩ := draw_eq_done.mp hdraw0
  obtain ⟨v1, hv1, -⟩ := draw_eq_done.mp hdraw1
  have h0 : s.s0.next? = some b0 := congrArg (Option.map Prod.fst) hv0
  have h1 : s.s1.next? = some b1 := congrArg (Option.map Prod.fst) hv1
  exact ⟨b0, b1, h0, h1, (drawPair_of_next? f h0 h1).symm.trans h⟩

end

theorem shrinkLoop_eq_drawPair (cap : Option ℕ+) (fuel z : Nat) (s : State) :
    shrinkLoop cap (fuel + 1) z s = drawPair (fun c d t =>
      if c then .done (bitWord d) t
      else if capReached cap (z + 1) then .exhausted t
      else shrinkLoop cap fuel (z + 1) t) s := rfl

theorem selfShrinkLoop_eq_drawPair (cap : Option ℕ+) (fuel pos z : Nat) (acc : Word) (s : State) :
    selfShrinkLoop cap (fuel + 1) (pos + 1) z acc s = drawPair (fun d c t =>
      if c then selfShrinkLoop cap fuel pos z (acc ||| (bitWord d <<< pos)) t
      else if capReached cap (z + 1) then .exhausted t
      else selfShrinkLoop cap fuel (pos + 1) (z + 1) acc t) s := rfl

/-! ### One shrinking unit (R181) -/

theorem pairBound_none (ones : Nat) : pairBound none ones = 65 * ones := Nat.zero_add _

theorem pairBound_some (K : ℕ+) (ones : Nat) : pairBound (some K) ones = K + 65 * ones := rfl

theorem capReached_of_lt {cap : Option ℕ+} {z : Nat} (h : ∀ K : ℕ+, cap = some K → z < (K : Nat)) :
    capReached cap z = false := by
  cases cap with
  | none => rfl
  | some K => exact decide_eq_false (h K rfl).ne

section
variable {s : State} {cap : Option ℕ+} {fuel z j : Nat} {b : Bool}

/-- R181: on a control bit of 1 the data bit is kept. -/
theorem shrinkLoop_of_control_true (h0 : s.s0.next? = some true) (h1 : s.s1.next? = some b) :
    shrinkLoop cap (fuel + 1) z s = .done (bitWord b) (s.advance 1 1 0) := by
  rw [shrinkLoop_eq_drawPair, drawPair_of_next? _ h0 h1, if_pos rfl]

/-- R181: on a control bit of 0 the pair is discarded, and the cap is looked at. -/
theorem shrinkLoop_of_control_false (h0 : s.s0.next? = some false) (h1 : s.s1 ≠ .empty) :
    shrinkLoop cap (fuel + 1) z s =
      if capReached cap (z + 1) then .exhausted (s.advance 1 1 0)
      else shrinkLoop cap fuel (z + 1) (s.advance 1 1 0) := by
  obtain ⟨d, hd⟩ := exists_next? h1
  rw [shrinkLoop_eq_drawPair, drawPair_of_next? _ h0 hd, if_neg Bool.false_ne_true]

/-- R181: pairs with control bit 0 are discarded as long as the cap is not reached. -/
theorem shrinkLoop_zeros (h1 : s.s1 ≠ .empty) (hzeros : s.s0.bits j = List.replicate j false)
    (hcap : ∀ i < j, capReached cap (z + i + 1) = false) :
    shrinkLoop cap (fuel + j) z s = shrinkLoop cap fuel (z + j) (s.advance j j 0) := by
  induction j generalizing s z with
  | zero => rfl
  | succ j ih =>
    obtain ⟨h0, hzeros'⟩ := next?_of_bits_succ_eq_cons hzeros
    have hcap' : ∀ i < j, capReached cap (z + 1 + i + 1) = false := fun i hi => by
      rw [Nat.add_right_comm z 1 i]
      exact hcap (i + 1) (by omega)
    rw [← Nat.add_assoc, shrinkLoop_of_control_false h0 h1, hcap 0 (by omega),
      if_neg Bool.false_ne_true, ih (s := s.advance 1 1 0) (after_one_ne_empty h1) hzeros' hcap',
      advance_advance, Nat.add_comm 1 j, Nat.add_assoc z 1 j, Nat.add_comm 1 j]

/-- R181: the unit ends at the first control bit 1 with the data bit of that pair. -/
theorem shrinkLoop_of_first_one (hone : s.s0.bits (j + 1) = List.replicate j false ++ [true])
    (hdata : (s.s1.after j).next? = some b) (hfuel : j < fuel)
    (hcap : ∀ i < j, capReached cap (z + i + 1) = false) :
    shrinkLoop cap fuel z s = .done (bitWord b) (s.advance (j + 1) (j + 1) 0) := by
  obtain ⟨hzeros, h0⟩ := next?_of_bits_succ_eq_append hone
  have h1 : s.s1 ≠ .empty := fun he => ne_empty_of_next? hdata (by rw [he, after_empty])
  obtain ⟨k, rfl⟩ := Nat.exists_eq_add_of_lt hfuel
  rw [Nat.add_assoc, Nat.add_comm, shrinkLoop_zeros h1 hzeros hcap,
    shrinkLoop_of_control_true (s := s.advance j j 0) h0 hdata, advance_advance]

/-- R184: under a cap of K the unit is exhausted by K control bits 0. -/
theorem shrinkLoop_exhausted {K : ℕ+} (h1 : s.s1 ≠ .empty)
    (hzeros : s.s0.bits (K : Nat) = List.replicate (K : Nat) false) (hfuel : (K : Nat) ≤ fuel) :
    shrinkLoop (some K) fuel 0 s = .exhausted (s.advance K K 0) := by
  obtain ⟨j, hj⟩ := Nat.exists_eq_succ_of_ne_zero K.ne_zero
  obtain ⟨k, rfl⟩ := Nat.exists_eq_add_of_le hfuel
  rw [hj, Nat.succ_eq_add_one, List.replicate_succ'] at hzeros
  obtain ⟨hzeros, h0⟩ := next?_of_bits_succ_eq_append hzeros
  have hcap : ∀ i < j, capReached (some K) (0 + i + 1) = false := fun i hi =>
    capReached_of_lt fun _ hK => by cases hK; omega
  rw [hj, Nat.succ_eq_add_one, show j + 1 + k = k + 1 + j by omega, shrinkLoop_zeros h1 hzeros hcap,
    shrinkLoop_of_control_false (s := s.advance j j 0) h0 (after_ne_empty h1 j),
    if_pos ((capReached_some K _).mpr (by omega)), advance_advance]

/-- R182: zeros alone never end a unit that has no cap. -/
theorem shrinkLoop_endless (h1 : s.s1 ≠ .empty)
    (hzeros : s.s0.bits fuel = List.replicate fuel false) : shrinkLoop none fuel z s = .endless := by
  have h := shrinkLoop_zeros (cap := none) (fuel := 0) (z := z) h1 hzeros fun _ _ => rfl
  rwa [Nat.zero_add] at h

end

/-! ### CMB_NEXT under SHRINK (R181, R182, R184) -/

section
variable {s : State} {cap : Option ℕ+} {j : Nat} {b : Bool} (hc : s.cmb = .shrink)
include hc

theorem combinerUnit_of_shrink (cap : Option ℕ+) : combinerUnit cap s = shrinkUnit cap s := by
  rw [combinerUnit, hc]

theorem cmbNextUnder_of_shrink (cap : Option ℕ+) :
    cmbNextUnder cap s = finish .cmbNext s id (shrinkUnit cap s) := by
  rw [cmbNextUnder, guarded_of_none (by rw [checksCmbNext, hc]; rfl), combinerUnit_of_shrink hc]

/-- R181: the number of pairs that the model looks at reaches every first control bit 1 that comes
before the cap. -/
theorem cmbNextUnder_of_first_one (hone : s.s0.bits (j + 1) = List.replicate j false ++ [true])
    (hdata : (s.s1.after j).next? = some b) (hcap : ∀ K : ℕ+, cap = some K → j < (K : Nat)) :
    cmbNextUnder cap s = answered 0#4 (bitWord b) (s.advance (j + 1) (j + 1) 0) := by
  have hj := first_one_lt hone
  rw [cmbNextUnder_of_shrink hc, shrinkUnit, shrinkLoop_of_first_one hone hdata]
  · rfl
  · cases cap with
    | none => rwa [pairBound_none]
    | some K => rw [pairBound_some]; omega
  · exact fun i hi => capReached_of_lt fun K hK => by
      have := hcap K hK
      omega

/-- R184. -/
theorem cmbNextUnder_exhausted {K : ℕ+} (h1 : s.s1 ≠ .empty)
    (hzeros : s.s0.bits (K : Nat) = List.replicate (K : Nat) false) :
    cmbNextUnder (some K) s = answered 5#4 0#64 (s.advance K K 0) := by
  rw [cmbNextUnder_of_shrink hc, shrinkUnit,
    shrinkLoop_exhausted h1 hzeros (by rw [pairBound_some]; omega)]
  rfl

/-- R182: a control that gives a 1 within n draws ends the unit within n pairs. -/
theorem cmbNextUnder_none_of_mem_bits {n : Nat} (h1 : s.s1 ≠ .empty) (hone : true ∈ s.s0.bits n) :
    ∃ j d, 1 ≤ j ∧ j ≤ n ∧ cmbNextUnder none s = answered 0#4 d (s.advance j j 0) := by
  obtain ⟨j, hj, hfirst⟩ := exists_first_one hone
  obtain ⟨b, hb⟩ := exists_next? (after_ne_empty h1 j)
  exact ⟨j + 1, bitWord b, by omega, hj, cmbNextUnder_of_first_one hc hfirst hb nofun⟩

end

/-- Settles O48: zeros up to the first 1, or up to the cap. -/
theorem shrinkUnitReturnsTheFirstKeptBit : Obligations.ShrinkUnitReturnsTheFirstKeptBit :=
  ⟨exec_cmbNext,
    fun s _ _ hc hone hdata hcap => (exec_cmbNext s).trans
      (cmbNextUnder_of_first_one hc hone (next?_of_getLast?_bits hdata) hcap),
    fun _ _ hc h1 hzeros => cmbNextUnder_exhausted hc h1 hzeros⟩

theorem answered_ne_stillBusy (st : BitVec 4) (d : Word) (i : Instr) (s t : State) :
    answered st d t ≠ stillBusy i s := by
  intro h
  have hport := congrArg State.port (Host.Outcome.next.inj h)
  cases hport

/-- The sources of SHRINK are there (R180, R220). -/
theorem sources_ne_empty_of_shrink {s : State} (hs : s.Inv) (hc : s.cmb = .shrink) :
    s.s0 ≠ .empty ∧ s.s1 ≠ .empty := by
  obtain ⟨-, -, -, hready, -⟩ := hs
  simpa [State.sourcesReady, hc, ← Bool.not_eq_true] using hready

/-- R182: from a zero Galois control there are only zeros. -/
theorem cmbNextUnder_of_zero_galois {s : State} (hc : s.cmb = .shrink) (h1 : s.s1 ≠ .empty)
    {m : BitVec 7} {P : Word} (h0 : s.s0 = .gal m P 0#64) :
    cmbNextUnder none s = stillBusy .cmbNext s := by
  rw [cmbNextUnder_of_shrink hc, shrinkUnit, shrinkLoop_endless h1 (by rw [h0, bits_gal_zero])]
  rfl

/-- Settles O49: a Fibonacci control or a nonzero Galois control gives a 1 in time, and a zero Galois
control never does. -/
theorem shrinkHangsExactlyOnAZeroGaloisControl :
    Obligations.ShrinkHangsExactlyOnAZeroGaloisControl := by
  intro s hs hc
  obtain ⟨hne0, h1⟩ := sources_ne_empty_of_shrink hs hc
  obtain ⟨hwf, -⟩ := hs
  have hzero : cmbNextUnder none s = stillBusy .cmbNext s → ∃ m P, s.s0 = .gal m P 0#64 := by
    intro hbusy
    by_contra hnz
    have hone := true_mem_bits_of_ne_zero_galois hwf hne0 fun m P h => hnz ⟨m, P, h⟩
    obtain ⟨j, d, -, -, hans⟩ := cmbNextUnder_none_of_mem_bits hc h1 hone
    exact answered_ne_stillBusy _ _ _ _ _ (hans.symm.trans hbusy)
  refine ⟨fun L T r h0 => ?_, fun m P x h0 hx => ?_,
    ⟨hzero, fun ⟨m, P, h0⟩ => cmbNextUnder_of_zero_galois hc h1 h0⟩,
    ⟨fun hloop => hzero ?_,
      fun ⟨m, P, h0⟩ fuel => shrinkLoop_endless h1 (by rw [h0, bits_gal_zero])⟩,
    fun m P h0 K => cmbNextUnder_exhausted hc h1 (by rw [h0, bits_gal_zero])⟩
  · obtain ⟨hpos, hmax, hT, hr⟩ := wf_fib_iff.mp (h0 ▸ hwf)
    exact cmbNextUnder_none_of_mem_bits hc h1
      (h0 ▸ fibonacciZeroRunsAreBounded L T r hpos hmax hT hr)
  · obtain ⟨⟨hpos, hmax, hP, hlt⟩, hodd, -⟩ := wf_gal_iff.mp (h0 ▸ hwf)
    exact cmbNextUnder_none_of_mem_bits hc h1
      (h0 ▸ galoisZeroRunsAreBounded m P x hpos hmax hP hodd hlt hx)
  · rw [cmbNextUnder_of_shrink hc, shrinkUnit, hloop]
    rfl

/-! ### The pairs that are drawn and the bits that are kept (R183, R202) -/

/-- p pairs drawn from a control v and a data slot w, of which the bits `bs` are kept: after the last pair
that is kept no further pair is drawn. -/
inductive KeptBits : Slot → Slot → Nat → List Bool → Prop where
  | none (v w : Slot) : KeptBits v w 0 []
  | discard {v w : Slot} {d : Bool} {p : Nat} {bs : List Bool} (hcontrol : v.next? = some false)
      (hdata : w.next? = some d) (hbs : bs ≠ []) (h : KeptBits (v.after 1) (w.after 1) p bs) :
      KeptBits v w (p + 1) bs
  | keep {v w : Slot} {d : Bool} {p : Nat} {bs : List Bool} (hcontrol : v.next? = some true)
      (hdata : w.next? = some d) (h : KeptBits (v.after 1) (w.after 1) p bs) :
      KeptBits v w (p + 1) (d :: bs)

section
variable {v w : Slot} {p : Nat} {bs : List Bool}

/-- R183: the kept bits are the decimated data stream. -/
theorem KeptBits.decimate_eq (h : KeptBits v w p bs) : decimate (v.bits p) (w.bits p) = bs := by
  induction h with
  | none v w => rfl
  | discard hcontrol hdata _ _ ih =>
    rwa [bits_succ_of_next? hcontrol, bits_succ_of_next? hdata]
  | keep hcontrol hdata _ ih =>
    rw [bits_succ_of_next? hcontrol, bits_succ_of_next? hdata]
    exact congrArg (List.cons _) ih

theorem KeptBits.count_control (h : KeptBits v w p bs) : (v.bits p).count true = bs.length := by
  induction h with
  | none v w => rfl
  | discard hcontrol _ _ _ ih => rwa [bits_succ_of_next? hcontrol, List.count_cons_of_ne (by decide)]
  | keep hcontrol _ _ ih =>
    rw [bits_succ_of_next? hcontrol, List.count_cons_self, ih, List.length_cons]

theorem KeptBits.eq_zero_of_nil (h : KeptBits v w p []) : p = 0 := by
  cases h with
  | none => rfl
  | discard _ _ hbs _ => exact absurd rfl hbs

/-- The last pair is one that is kept. -/
theorem KeptBits.getLast?_control (h : KeptBits v w p bs) (hbs : bs ≠ []) :
    (v.bits p).getLast? = some true := by
  induction h with
  | none v w => exact absurd rfl hbs
  | discard hcontrol _ _ _ ih => rw [bits_succ_of_next? hcontrol, List.getLast?_cons, ih hbs]; rfl
  | @keep v w d p bs hcontrol _ h ih =>
    rw [bits_succ_of_next? hcontrol]
    by_cases hnil : bs = []
    · subst hnil
      rw [h.eq_zero_of_nil]
      rfl
    · rw [List.getLast?_cons, ih hnil]; rfl

/-- Pairs are drawn one run after another. -/
theorem KeptBits.append {q : Nat} {cs : List Bool} (h : KeptBits v w p bs)
    (h' : KeptBits (v.after p) (w.after p) q cs) : KeptBits v w (p + q) (bs ++ cs) := by
  induction h with
  | none v w => rwa [Nat.zero_add]
  | discard hcontrol hdata hbs _ ih =>
    rw [Nat.add_comm, after_add, after_add] at h'
    rw [Nat.add_right_comm]
    exact .discard hcontrol hdata (List.append_ne_nil_of_left_ne_nil hbs _) (ih h')
  | keep hcontrol hdata _ ih =>
    rw [Nat.add_comm, after_add, after_add] at h'
    rw [Nat.add_right_comm]
    exact .keep hcontrol hdata (ih h')

end

/-! ### Units of several bits in DATA (R221) -/

/-- Packed units of one width, and then more of them. -/
theorem pack_append (w : Nat) (us vs : List Word) :
    pack w (us ++ vs) = (pack w us <<< (w * vs.length)) ||| pack w vs := by
  induction vs using List.reverseRecOn with
  | nil => simp
  | append_singleton vs v ih =>
    rw [← List.append_assoc, pack_append_singleton, ih, pack_append_singleton,
      BitVec.shiftLeft_or_distrib, ← BitVec.shiftLeft_add, List.length_append, List.length_singleton, Nat.mul_succ, BitVec.or_assoc]

/-- The bits of DATA, the last one in bit 0. -/
def packBits (bs : List Bool) : Word := pack 1 (bs.map bitWord)

theorem packBits_append (bs cs : List Bool) :
    packBits (bs ++ cs) = (packBits bs <<< cs.length) ||| packBits cs := by
  rw [packBits, List.map_append, pack_append, List.length_map, Nat.one_mul, packBits, packBits]

theorem packBits_singleton (b : Bool) : packBits [b] = bitWord b := by
  simp [packBits, pack]

/-- A unit before other units of its width. -/
theorem pack_cons (w : Nat) (u : Word) (us : List Word) :
    pack w (u :: us) = (u <<< (w * us.length)) ||| pack w us := by
  rw [← List.singleton_append, pack_append]
  simp [pack]

/-! ### A shrinking or self-shrinking unit that ends (R181, R201) -/

section
variable {s t : State} {cap : Option ℕ+} {fuel z left : Nat} {acc u : Word}

theorem shrinkLoop_done (h : shrinkLoop cap fuel z s = .done u t) :
    ∃ p b, u = bitWord b ∧ t = s.advance p p 0 ∧ KeptBits s.s0 s.s1 p [b] := by
  induction fuel generalizing s z with
  | zero => cases h
  | succ fuel ih =>
    rw [shrinkLoop_eq_drawPair] at h
    obtain ⟨c, d, hc, hd, h⟩ := drawPair_eq_done h
    cases c with
    | true =>
      rw [if_pos rfl] at h
      cases h
      exact ⟨1, d, rfl, rfl, .keep hc hd (.none _ _)⟩
    | false =>
      rw [if_neg Bool.false_ne_true] at h
      split_ifs at h
      obtain ⟨p, b, hu, ht, hkept⟩ := ih h
      rw [advance_advance, Nat.add_comm 1 p] at ht
      exact ⟨p + 1, b, hu, ht, .discard hc hd (List.cons_ne_nil b []) hkept⟩

theorem selfShrinkLoop_done (h : selfShrinkLoop cap fuel left z acc s = .done u t) :
    ∃ p bs, bs.length = left ∧ u = acc ||| packBits bs ∧ t = s.advance p p 0 ∧
      KeptBits s.s1 s.s0 p bs := by
  induction fuel generalizing s z left acc with
  | zero =>
    cases left with
    | zero => cases h; exact ⟨0, [], rfl, BitVec.or_zero.symm, rfl, .none _ _⟩
    | succ pos => cases h
  | succ fuel ih =>
    cases left with
    | zero => cases h; exact ⟨0, [], rfl, BitVec.or_zero.symm, rfl, .none _ _⟩
    | succ pos =>
      rw [selfShrinkLoop_eq_drawPair] at h
      obtain ⟨d, c, hd, hc, h⟩ := drawPair_eq_done h
      cases c with
      | true =>
        rw [if_pos rfl] at h
        obtain ⟨p, bs, hlen, hu, ht, hkept⟩ := ih h
        rw [advance_advance, Nat.add_comm 1 p] at ht
        refine ⟨p + 1, d :: bs, congrArg Nat.succ hlen, ?_, ht, .keep hc hd hkept⟩
        rw [hu, ← List.singleton_append, packBits_append, packBits_singleton, hlen, BitVec.or_assoc]
      | false =>
        rw [if_neg Bool.false_ne_true] at h
        split_ifs at h
        obtain ⟨p, bs, hlen, hu, ht, hkept⟩ := ih h
        rw [advance_advance, Nat.add_comm 1 p] at ht
        exact ⟨p + 1, bs, hlen, hu, ht,
          .discard hc hd (List.ne_nil_of_length_eq_add_one hlen) hkept⟩

end

/-! ### SHRINK and SSHRINK together -/

/-- The control source: S1 under SSHRINK (R200), S0 under SHRINK (R180). -/
def State.control (s : State) : Slot := if s.cmb = .sshrink then s.s1 else s.s0

/-- The data source, the other one of the two. -/
def State.data (s : State) : Slot := if s.cmb = .sshrink then s.s0 else s.s1

/-- One of the two combiners that discard pairs is bound. -/
def State.Shrinking (s : State) : Prop := s.cmb = .shrink ∨ s.cmb = .sshrink

theorem control_of_shrink {s : State} (hc : s.cmb = .shrink) : s.control = s.s0 := by
  simp [State.control, hc]

theorem data_of_shrink {s : State} (hc : s.cmb = .shrink) : s.data = s.s1 := by
  simp [State.data, hc]

theorem control_of_sshrink {s : State} (hc : s.cmb = .sshrink) : s.control = s.s1 := if_pos hc

theorem data_of_sshrink {s : State} (hc : s.cmb = .sshrink) : s.data = s.s0 := if_pos hc

@[simp] theorem control_advance (s : State) (p : Nat) :
    (s.advance p p 0).control = s.control.after p := by
  rw [State.control, State.control, advance_cmb]
  split_ifs <;> rfl

@[simp] theorem data_advance (s : State) (p : Nat) :
    (s.advance p p 0).data = s.data.after p := by
  rw [State.data, State.data, advance_cmb]
  split_ifs <;> rfl

/-- The value `u` is k kept bits, and t is s after the pairs drawn for them. -/
def State.Yields (s : State) (k : Nat) (u : Word) (t : State) : Prop :=
  ∃ p bs, bs.length = k ∧ u = packBits bs ∧ t = s.advance p p 0 ∧ KeptBits s.control s.data p bs

theorem combinerUnit_of_sshrink {s : State} (hc : s.cmb = .sshrink) (cap : Option ℕ+) :
    combinerUnit cap s = selfShrinkUnit cap s := by
  rw [combinerUnit, hc]

section
variable {s t : State} {cap : Option ℕ+}

/-- R181, R201: what a unit that ends has drawn and kept. -/
theorem combinerUnit_yields {u : Word} (hs : s.Shrinking) (h : combinerUnit cap s = .done u t) :
    s.Yields s.cmb.unitWidth u t := by
  rcases hs with hc | hc
  · rw [combinerUnit_of_shrink hc] at h
    obtain ⟨p, b, hu, ht, hkept⟩ := shrinkLoop_done h
    refine ⟨p, [b], by rw [hc]; rfl, by rw [hu, packBits_singleton], ht, ?_⟩
    rwa [control_of_shrink hc, data_of_shrink hc]
  · rw [combinerUnit_of_sshrink hc] at h
    obtain ⟨p, bs, hlen, hu, ht, hkept⟩ := selfShrinkLoop_done h
    refine ⟨p, bs, by rw [hc, hlen]; rfl, by rw [hu, BitVec.zero_or], ht, ?_⟩
    rwa [control_of_sshrink hc, data_of_sshrink hc]

/-- R225: so it is for a sequence of units. -/
theorem repeatUnit_yields {us : List Word} {k : Nat} (hs : s.Shrinking)
    (h : repeatUnit (combinerUnit cap) k s = .done us t) :
    s.Yields (k * s.cmb.unitWidth) (pack s.cmb.unitWidth us) t := by
  induction k generalizing s us with
  | zero =>
    cases h
    exact ⟨0, [], (Nat.zero_mul _).symm, rfl, rfl, .none _ _⟩
  | succ k ih =>
    rw [repeatUnit_succ] at h
    obtain ⟨u, s1, hunit, h⟩ := bind_eq_done.mp h
    obtain ⟨us', s2, hrest, h⟩ := bind_eq_done.mp h
    cases h
    obtain ⟨p, bs, hlen, hu, rfl, hkept⟩ := combinerUnit_yields hs hunit
    obtain ⟨q, cs, hlen', hus, ht, hkept'⟩ := ih (s := s.advance p p 0) hs hrest
    rw [control_advance, data_advance] at hkept'
    rw [advance_advance] at ht
    rw [advance_cmb] at hlen' hus
    refine ⟨p + q, bs ++ cs, ?_, ?_, ht, hkept.append hkept'⟩
    · rw [List.length_append, hlen, hlen', Nat.succ_mul, Nat.add_comm]
    · rw [pack_cons, packBits_append, hus, hu, hlen', length_of_repeatUnit hrest, Nat.mul_comm]

end

/-! ### CMB_GETN (R225) -/

/-- An OK response is the value of a run that ends with one. -/
theorem finish_eq_next_ok {α : Type} {i : Instr} {s t : State} {data : α → Word} {r : Run α} {d : Word}
    (h : finish i s data r = .next t) (hport : t.port = .resp ⟨0#4, d⟩) :
    ∃ a u, r = .done a u ∧ d = data a ∧ t = u.setPort (.resp ⟨0#4, d⟩) := by
  cases r with
  | done a u =>
    cases h
    cases hport
    exact ⟨a, u, rfl, rfl, rfl⟩
  | exhausted u => cases h; cases hport
  | endless => cases h; cases hport
  | noSource => cases h

section
variable {s : State} (cap : Option ℕ+) {n : BitVec 7} (hs : s.Shrinking)
include hs

/-- R225, R254: n has to be a multiple of the unit width. -/
theorem firstFailing_checksCmbGetn (n : BitVec 7) : firstFailing (checksCmbGetn s n) =
    if n.toNat % s.cmb.unitWidth = 0 then none else some .illegalCommand := by
  have hbound : s.cmb.isNone = false := by rcases hs with hc | hc <;> rw [hc] <;> rfl
  simp [checksCmbGetn, firstFailing_cons, hbound]

theorem cmbGetnUnder_of_multiple (h : n.toNat % s.cmb.unitWidth = 0) :
    cmbGetnUnder cap n s = finish (.cmbGetn n) s (pack s.cmb.unitWidth)
      (repeatUnit (combinerUnit cap) (n.toNat / s.cmb.unitWidth) s) := by
  rw [cmbGetnUnder, guarded_of_none (by rw [firstFailing_checksCmbGetn hs, if_pos h])]

theorem cmbGetnUnder_of_not_multiple (h : n.toNat % s.cmb.unitWidth ≠ 0) :
    cmbGetnUnder cap n s = answered 1#4 0#64 s := by
  rw [cmbGetnUnder, guarded_of_some (by rw [firstFailing_checksCmbGetn hs, if_neg h])]
  rfl

end

/-- R225: an OK response carries n kept bits. -/
theorem cmbGetnUnder_yields {s t : State} {cap : Option ℕ+} {n : BitVec 7} {d : Word}
    (hs : s.Shrinking) (h : cmbGetnUnder cap n s = .next t) (hport : t.port = .resp ⟨0#4, d⟩) :
    ∃ u, s.Yields n.toNat d u ∧ t = u.setPort (.resp ⟨0#4, d⟩) := by
  by_cases hn : n.toNat % s.cmb.unitWidth = 0
  · rw [cmbGetnUnder_of_multiple cap hs hn] at h
    obtain ⟨us, u, hrun, hd, ht⟩ := finish_eq_next_ok h hport
    have hyields := repeatUnit_yields hs hrun
    rw [Nat.div_mul_cancel (Nat.dvd_of_mod_eq_zero hn), ← hd] at hyields
    exact ⟨u, hyields, ht⟩
  · rw [cmbGetnUnder_of_not_multiple cap hs hn] at h
    cases h
    cases hport

/-- R183, R202, R228: the kept bits, read off the streams of the control and the data. -/
theorem cmbGetnUnder_decimates {s t : State} {cap : Option ℕ+} {n : BitVec 7} {d : Word}
    (hs : s.Shrinking) (hn : n.toNat ≤ 64) (h : cmbGetnUnder cap n s = .next t) (hport : t.port = .resp ⟨0#4, d⟩) :
    ∃ p, t = (s.advance p p 0).setPort (.resp ⟨0#4, d⟩) ∧
      (s.control.bits p).count true = n.toNat ∧
      (0 < n.toNat → (s.control.bits p).getLast? = some true) ∧ (n.toNat = 0 → p = 0) ∧
      stringView n.toNat d = decimate (s.control.bits p) (s.data.bits p) := by
  obtain ⟨u, ⟨p, bs, hlen, hd, rfl, hkept⟩, ht⟩ := cmbGetnUnder_yields hs h hport
  refine ⟨p, ht, hkept.count_control.trans hlen, fun hpos => ?_, fun hzero => ?_, ?_⟩
  · exact hkept.getLast?_control (List.ne_nil_of_length_pos (hlen ▸ hpos))
  · obtain rfl := List.eq_nil_of_length_eq_zero (hlen.trans hzero)
    exact hkept.eq_zero_of_nil
  · rw [hkept.decimate_eq, hd, ← hlen]
    exact stringView_pack_bitWord (hlen.trans_le hn)

/-- Settles O53, for the control and data of each of the two combiners. -/
theorem shrinkingGetnIsDecimation : Obligations.ShrinkingGetnIsDecimation := by
  intro cap s t n d hn h hport
  refine ⟨fun hc => ?_, fun hc => ?_⟩
  · rw [← control_of_shrink hc, ← data_of_shrink hc]
    exact cmbGetnUnder_decimates (.inl hc) hn h hport
  · rw [← control_of_sshrink hc, ← data_of_sshrink hc]
    exact cmbGetnUnder_decimates (.inr hc) hn h hport

/-! ### CMB_GETN without a cap (R182, R203) -/

/-- R203: the unit ends once its control has given as many ones as the unit has places left. -/
theorem selfShrinkLoop_none_ends {fuel left z : Nat} {acc : Word} {s : State} (h0 : s.s0 ≠ .empty)
    (hones : left ≤ (s.s1.bits fuel).count true) :
    ∃ u t, selfShrinkLoop none fuel left z acc s = .done u t := by
  induction fuel generalizing s left z acc with
  | zero =>
    obtain rfl := Nat.le_zero.mp hones
    exact ⟨acc, s, rfl⟩
  | succ fuel ih =>
    cases left with
    | zero => exact ⟨acc, s, rfl⟩
    | succ pos =>
      have hmem : true ∈ s.s1.bits (fuel + 1) :=
        List.count_pos_iff.mp (Nat.lt_of_lt_of_le (Nat.succ_pos pos) hones)
      obtain ⟨d, hd⟩ := exists_next? h0
      obtain ⟨c, hc⟩ := exists_next? (ne_empty_of_bits_ne_nil (List.ne_nil_of_mem hmem))
      rw [bits_succ_of_next? hc] at hones
      rw [selfShrinkLoop_eq_drawPair, drawPair_of_next? _ hd hc]
      cases c with
      | true =>
        rw [List.count_cons_self] at hones
        exact ih (s := s.advance 1 1 0) (after_one_ne_empty h0) (Nat.le_of_succ_le_succ hones)
      | false =>
        rw [List.count_cons_of_ne (by decide)] at hones
        exact ih (s := s.advance 1 1 0) (after_one_ne_empty h0) hones

section
variable {s : State} (hs : s.Shrinking) (hcontrol : s.control.Recurs) (hdata : s.data ≠ .empty)
include hs hcontrol hdata

/-- R182, R203: a control that goes on giving ones ends every unit. -/
theorem combinerUnit_none_ends : ∃ u t, combinerUnit none s = .done u t := by
  rcases hs with hc | hc
  · rw [control_of_shrink hc] at hcontrol
    rw [data_of_shrink hc] at hdata
    obtain ⟨j, hj, hfirst⟩ := exists_first_one (hcontrol 0)
    obtain ⟨b, hb⟩ := exists_next? (after_ne_empty hdata j)
    rw [combinerUnit_of_shrink hc, shrinkUnit, pairBound_none]
    exact ⟨_, _, shrinkLoop_of_first_one hfirst hb hj fun _ _ => rfl⟩
  · rw [control_of_sshrink hc] at hcontrol
    rw [data_of_sshrink hc] at hdata
    rw [combinerUnit_of_sshrink hc, selfShrinkUnit, pairBound_none]
    exact selfShrinkLoop_none_ends hdata (hcontrol.le_count 2)

theorem repeatUnit_none_ends (k : Nat) :
    ∃ us t, repeatUnit (combinerUnit none) k s = .done us t := by
  induction k generalizing s with
  | zero => exact ⟨[], s, rfl⟩
  | succ k ih =>
    obtain ⟨u, t, hunit⟩ := combinerUnit_none_ends hs hcontrol hdata
    obtain ⟨p, -, -, -, rfl, -⟩ := combinerUnit_yields hs hunit
    obtain ⟨us, t, hrest⟩ := ih (s := s.advance p p 0) hs
      (by rw [control_advance]; exact hcontrol.after p)
      (by rw [data_advance]; exact after_ne_empty hdata p)
    exact ⟨u :: us, t, by rw [repeatUnit_succ, hunit, bind_done, hrest, bind_done]⟩

theorem cmbGetnUnder_none_answers {n : BitVec 7} (hn : n.toNat % s.cmb.unitWidth = 0) :
    ∃ d p, cmbGetnUnder none n s = answered 0#4 d (s.advance p p 0) := by
  obtain ⟨us, t, hrun⟩ := repeatUnit_none_ends hs hcontrol hdata (n.toNat / s.cmb.unitWidth)
  obtain ⟨p, -, -, -, rfl, -⟩ := repeatUnit_yields hs hrun
  exact ⟨pack s.cmb.unitWidth us, p, by rw [cmbGetnUnder_of_multiple none hs hn, hrun]; rfl⟩

end

/-- The sources of SSHRINK are there (R200). -/
theorem sources_ne_empty_of_sshrink {s : State} (hs : s.Inv) (hc : s.cmb = .sshrink) :
    s.s0 ≠ .empty ∧ s.s1 ≠ .empty := by
  obtain ⟨-, -, -, hready, -⟩ := hs
  obtain ⟨h0, h1⟩ : s.s0.isGal = true ∧ s.s1.isGal = true := by
    simpa [State.sourcesReady, hc] using hready
  exact ⟨ne_empty_of_isGal h0, ne_empty_of_isGal h1⟩

/-- Settles O52: the invariant and a control that is not zero end every unit. -/
theorem uncappedGetnAnswersUnlessControlIsZero :
    Obligations.UncappedGetnAnswersUnlessControlIsZero := by
  refine ⟨fun s n => exec_cmbGetn n s, fun s n hs _ => ⟨fun hc hnz => ?_, fun hc hnz heven => ?_⟩⟩
  · obtain ⟨h0, h1⟩ := sources_ne_empty_of_shrink hs hc
    obtain ⟨hwf0, -⟩ := hs
    refine cmbGetnUnder_none_answers (.inl hc) ?_ ?_ ?_
    · rw [control_of_shrink hc]
      exact recurs_of_ne_zero_galois hwf0 h0 hnz
    · rwa [data_of_shrink hc]
    · rw [hc]
      exact Nat.mod_one _
  · obtain ⟨h0, h1⟩ := sources_ne_empty_of_sshrink hs hc
    obtain ⟨-, hwf1, -⟩ := hs
    refine cmbGetnUnder_none_answers (.inr hc) ?_ ?_ ?_
    · rw [control_of_sshrink hc]
      exact recurs_of_ne_zero_galois hwf1 h1 hnz
    · rwa [data_of_sshrink hc]
    · rwa [hc]

end Sys2Proof.Machine
end

section
/-! PROOFS of the family 45_self_shrinking_combiner.md: kept bits read off the two streams, how many pairs
they take, and the self-shrinking unit pair by pair up to its second kept bit, to the cap, or for ever. -/

namespace Sys2Proof.Machine

/-! ### How far apart the ones of a slot are (R108, R126) -/

/-- After any number of draws, if a 1 comes at all, fewer than M zeros come before it. -/
def Slot.OnesWithin (v : Slot) (M : Nat) : Prop :=
  ∀ n j, (v.after n).bits (j + 1) = List.replicate j false ++ [true] → j < M

theorem onesWithin_65 (v : Slot) : v.OnesWithin 65 := fun _ _ => first_one_lt

theorem Slot.OnesWithin.after {v : Slot} {M : Nat} (h : v.OnesWithin M) (n : Nat) :
    (v.after n).OnesWithin M := fun k j hone => by
  rw [← after_add] at hone
  exact h (n + k) j hone

theorem gal_ne_zero_galois {x : Word} (hx : x ≠ 0#64) (m : BitVec 7) (P : Word)
    (m' : BitVec 7) (P' : Word) :
    Slot.gal m P x ≠ .gal m' P' 0#64 := by
  rintro ⟨⟩
  exact hx rfl

/-- R126: between two ones of a nonzero Galois register there are fewer than m zeros. -/
theorem onesWithin_gal {m : BitVec 7} {P x : Word} (hwf : (Slot.gal m P x).wf = true) (hx : x ≠ 0#64) :
    (Slot.gal m P x).OnesWithin m.toNat := by
  intro n j hone
  have hwf' := wf_after hwf n
  have hnz := ne_zero_galois_after hwf (gal_ne_zero_galois hx m P) n
  rw [after_gal] at hone hwf' hnz
  obtain ⟨⟨hpos, hmax, hP, hlt⟩, hodd, -⟩ := wf_gal_iff.mp hwf'
  have hmem := galoisZeroRunsAreBounded m P _ hpos hmax hP hodd hlt fun h => hnz m P (by rw [h])
  obtain ⟨hzeros, -⟩ := next?_of_bits_succ_eq_append hone
  by_contra hj
  simpa [hzeros] using mem_bits_of_le (Nat.le_of_not_lt hj) hmem

/-! ### Kept bits, read off the streams and bounded (R202, R203) -/

@[simp] theorem decimate_cons_true (d : Bool) (cs ds : List Bool) :
    decimate (true :: cs) (d :: ds) = d :: decimate cs ds := rfl

@[simp] theorem decimate_cons_false (d : Bool) (cs ds : List Bool) :
    decimate (false :: cs) (d :: ds) = decimate cs ds := rfl

section
variable {v w : Slot} {p : Nat} {bs : List Bool}

theorem ne_empty_of_getLast?_bits {b : Bool} (h : (v.bits p).getLast? = some b) : v ≠ .empty :=
  ne_empty_of_bits_ne_nil (n := p) fun hnil => by simp [hnil] at h

/-- The decimated bits are kept if the last pair is. -/
theorem keptBits_decimate (hv : v ≠ .empty) (hw : w ≠ .empty)
    (hlast : (v.bits p).getLast? ≠ some false) :
    KeptBits v w p (decimate (v.bits p) (w.bits p)) := by
  induction p generalizing v w with
  | zero => exact .none v w
  | succ p ih =>
    obtain ⟨c, hc⟩ := exists_next? hv
    obtain ⟨d, hd⟩ := exists_next? hw
    rw [bits_succ_of_next? hc] at hlast
    have hrest := ih (after_one_ne_empty hv) (after_one_ne_empty hw) fun h =>
      hlast (by rw [List.getLast?_cons, h]; rfl)
    rw [bits_succ_of_next? hc, bits_succ_of_next? hd]
    cases c with
    | true => rw [decimate_cons_true]; exact .keep hc hd hrest
    | false =>
      rw [decimate_cons_false]
      refine .discard hc hd (fun hnil => hlast ?_) hrest
      rw [hnil] at hrest
      rw [hrest.eq_zero_of_nil]
      rfl

/-- The first kept bit is at the first 1 of the control, and the others are kept after it. -/
theorem KeptBits.split_first (h : KeptBits v w p bs) (hbs : bs ≠ []) :
    ∃ j q, p = j + 1 + q ∧ v.bits (j + 1) = List.replicate j false ++ [true] ∧
      KeptBits (v.after (j + 1)) (w.after (j + 1)) q bs.tail := by
  induction h with
  | none v w => exact absurd rfl hbs
  | discard hcontrol _ _ _ ih =>
    obtain ⟨j, q, rfl, hone, hrest⟩ := ih hbs
    rw [← after_add, ← after_add, Nat.add_comm 1] at hrest
    exact ⟨j + 1, q, by omega, by rw [bits_succ_of_next? hcontrol, hone]; rfl, hrest⟩
  | keep hcontrol _ h =>
    exact ⟨0, _, Nat.add_comm _ 1, by rw [bits_succ_of_next? hcontrol]; rfl, h⟩

theorem KeptBits.le_mul {M : Nat} (h : KeptBits v w p bs) (hM : v.OnesWithin M) :
    p ≤ M * bs.length := by
  induction bs generalizing v w p with
  | nil => exact h.eq_zero_of_nil.le
  | cons b bs ih =>
    obtain ⟨j, q, rfl, hone, hrest⟩ := h.split_first (List.cons_ne_nil b bs)
    have hj := hM 0 j hone
    have hq := ih hrest (hM.after (j + 1))
    rw [List.length_cons, Nat.mul_succ]
    omega

/-- Every pair has control bit 1 and is kept, or has control bit 0. -/
theorem KeptBits.length_add_count_false (h : KeptBits v w p bs) :
    bs.length + (v.bits p).count false = p := by
  induction h with
  | none v w => rfl
  | discard hcontrol _ _ _ ih => rw [bits_succ_of_next? hcontrol, List.count_cons_self]; omega
  | keep hcontrol _ _ ih =>
    rw [bits_succ_of_next? hcontrol, List.count_cons_of_ne (by decide), List.length_cons]
    omega

/-- The number of pairs that the model looks at is enough for bits that are kept before the cap. -/
theorem KeptBits.le_pairBound {cap : Option ℕ+} (h : KeptBits v w p bs)
    (hcap : ∀ K : ℕ+, cap = some K → (v.bits p).count false < (K : Nat)) :
    p ≤ pairBound cap bs.length := by
  cases cap with
  | none => rw [pairBound_none]; exact h.le_mul (onesWithin_65 v)
  | some K =>
    have hp := h.length_add_count_false
    have hK := hcap K rfl
    rw [pairBound_some]
    omega

end

/-- R202: the first of two kept bits is in bit 1. -/
theorem packBits_pair (d1 d2 : Bool) : packBits [d1, d2] = (bitWord d1 <<< 1) ||| bitWord d2 := by
  rw [← List.singleton_append, packBits_append, packBits_singleton, packBits_singleton]
  rfl

/-! ### One self-shrinking unit (R201) -/

section
variable {s : State} {cap : Option ℕ+} {fuel pos left z p : Nat} {acc : Word} {d : Bool} {bs : List Bool}

/-- R201: on a control bit of 1 the data bit is placed. -/
theorem selfShrinkLoop_of_control_true (h0 : s.s0.next? = some d) (h1 : s.s1.next? = some true) :
    selfShrinkLoop cap (fuel + 1) (pos + 1) z acc s =
      selfShrinkLoop cap fuel pos z (acc ||| (bitWord d <<< pos)) (s.advance 1 1 0) := by
  rw [selfShrinkLoop_eq_drawPair, drawPair_of_next? _ h0 h1, if_pos rfl]

/-- R201: on a control bit of 0 the pair is discarded, and the cap is looked at. -/
theorem selfShrinkLoop_of_control_false (h0 : s.s0.next? = some d) (h1 : s.s1.next? = some false) :
    selfShrinkLoop cap (fuel + 1) (pos + 1) z acc s =
      if capReached cap (z + 1) then .exhausted (s.advance 1 1 0)
      else selfShrinkLoop cap fuel (pos + 1) (z + 1) acc (s.advance 1 1 0) := by
  rw [selfShrinkLoop_eq_drawPair, drawPair_of_next? _ h0 h1, if_neg Bool.false_ne_true]

/-- R201: the unit is filled with the kept bits if their pairs come before the cap; the converse of
`selfShrinkLoop_done`. -/
theorem selfShrinkLoop_of_keptBits (h : KeptBits s.s1 s.s0 p bs) (hfuel : p ≤ fuel)
    (hcap : ∀ K : ℕ+, cap = some K → z + (s.s1.bits p).count false < (K : Nat)) :
    selfShrinkLoop cap fuel bs.length z acc s = .done (acc ||| packBits bs) (s.advance p p 0) := by
  induction p generalizing s fuel z acc bs with
  | zero =>
    cases h
    exact (selfShrinkLoop_filled cap fuel z acc s).trans (congrArg (Run.done · s) BitVec.or_zero.symm)
  | succ p ih =>
    obtain ⟨fuel, rfl⟩ := Nat.exists_eq_add_of_le' (Nat.le_of_add_left_le hfuel)
    have hfuel := Nat.le_of_succ_le_succ hfuel
    cases h with
    | discard hcontrol hdata hbs hrest =>
      obtain ⟨b, bs, rfl⟩ := List.exists_cons_of_ne_nil hbs
      rw [bits_succ_of_next? hcontrol, List.count_cons_self, ← Nat.add_assoc, Nat.add_right_comm] at hcap
      have hnot : capReached cap (z + 1) = false := capReached_of_lt fun K hK =>
        (Nat.le_add_right _ _).trans_lt (hcap K hK)
      have hrun := ih (s := s.advance 1 1 0) (acc := acc) hrest hfuel hcap
      rw [advance_advance, Nat.add_comm 1 p] at hrun
      rw [List.length_cons, selfShrinkLoop_of_control_false hdata hcontrol, hnot, if_neg Bool.false_ne_true]
      exact hrun
    | keep hcontrol hdata hrest =>
      rw [bits_succ_of_next? hcontrol, List.count_cons_of_ne (by decide)] at hcap
      rw [List.length_cons, selfShrinkLoop_of_control_true hdata hcontrol,
        ih (s := s.advance 1 1 0) hrest hfuel hcap, advance_advance, Nat.add_comm 1 p,
        ← List.singleton_append, packBits_append, packBits_singleton, BitVec.or_assoc]

/-- R201, R184: as long as the cap is not reached, q pairs fill as many places as they have control
bits 1, and each other pair adds 1 to z. -/
theorem selfShrinkLoop_pairs {q : Nat} (fuel pos z : Nat) (acc : Word) (h0 : s.s0 ≠ .empty)
    (h1 : s.s1 ≠ .empty)
    (hcap : ∀ K : ℕ+, cap = some K → z + (s.s1.bits q).count false < (K : Nat)) :
    ∃ acc', selfShrinkLoop cap (fuel + q) (pos + 1 + (s.s1.bits q).count true) z acc s =
      selfShrinkLoop cap fuel (pos + 1) (z + (s.s1.bits q).count false) acc' (s.advance q q 0) := by
  induction q generalizing s z acc with
  | zero => exact ⟨acc, rfl⟩
  | succ q ih =>
    obtain ⟨d, hd⟩ := exists_next? h0
    obtain ⟨c, hc⟩ := exists_next? h1
    have hrest := fun z acc =>
      ih (s := s.advance 1 1 0) z acc (after_one_ne_empty h0) (after_one_ne_empty h1)
    simp only [advance_advance, Nat.add_comm 1 q, advance_s1] at hrest
    rw [bits_succ_of_next? hc] at hcap ⊢
    cases c with
    | true =>
      rw [List.count_cons_of_ne (by decide)] at hcap
      rw [List.count_cons_self, List.count_cons_of_ne (by decide), ← Nat.add_assoc, ← Nat.add_assoc,
        selfShrinkLoop_of_control_true hd hc]
      exact hrest z _ hcap
    | false =>
      rw [List.count_cons_self, ← Nat.add_assoc, Nat.add_right_comm] at hcap
      have hnot : capReached cap (z + 1) = false := capReached_of_lt fun K hK =>
        (Nat.le_add_right _ _).trans_lt (hcap K hK)
      rw [List.count_cons_of_ne (by decide), List.count_cons_self, ← Nat.add_assoc, ← Nat.add_assoc z,
        Nat.add_right_comm pos 1, Nat.add_right_comm z, selfShrinkLoop_of_control_false hd hc, hnot,
        if_neg Bool.false_ne_true, Nat.add_right_comm pos _ 1]
      exact hrest (z + 1) acc hcap

/-- R201, R184: the unit is exhausted by the control bit 0 that brings the count to K, if it has a place
left then. -/
theorem selfShrinkLoop_exhausted {K : ℕ+} (h0 : s.s0 ≠ .empty) (hones : (s.s1.bits p).count true < left)
    (hzeros : z + (s.s1.bits p).count false = (K : Nat)) (hlast : (s.s1.bits p).getLast? = some false)
    (hfuel : p ≤ fuel) :
    selfShrinkLoop (some K) fuel left z acc s = .exhausted (s.advance p p 0) := by
  have h1 := ne_empty_of_getLast?_bits hlast
  cases p with
  | zero => cases hlast
  | succ q =>
    have hc := next?_of_getLast?_bits hlast
    obtain ⟨d, hd⟩ := exists_next? (after_ne_empty h0 q)
    rw [bits_succ_eq_append hc, List.count_append, List.count_singleton_self, ← Nat.add_assoc] at hzeros
    rw [bits_succ_eq_append hc, List.count_append, List.count_singleton, if_neg (by decide),
      Nat.add_zero] at hones
    obtain ⟨k, rfl⟩ : ∃ k, fuel = k + 1 + q := ⟨fuel - q - 1, by omega⟩
    obtain ⟨pos, rfl⟩ : ∃ pos, left = pos + 1 + (s.s1.bits q).count true :=
      ⟨left - (s.s1.bits q).count true - 1, by omega⟩
    obtain ⟨acc', hpairs⟩ := selfShrinkLoop_pairs (cap := some K) (q := q) (k + 1) pos z acc h0 h1
      fun _ hK => by cases hK; omega
    rw [hpairs, selfShrinkLoop_of_control_false (s := s.advance q q 0) hd hc,
      if_pos ((capReached_some K _).mpr hzeros), advance_advance]

/-- R203: zeros alone never fill a unit that has no cap. -/
theorem selfShrinkLoop_endless (h0 : s.s0 ≠ .empty) (h1 : s.s1 ≠ .empty)
    (hzeros : true ∉ s.s1.bits fuel) : selfShrinkLoop none fuel (pos + 1) z acc s = .endless := by
  obtain ⟨acc', hpairs⟩ := selfShrinkLoop_pairs (cap := none) (q := fuel) 0 pos z acc h0 h1 nofun
  rwa [List.count_eq_zero_of_not_mem hzeros, Nat.zero_add] at hpairs

end

/-! ### CMB_NEXT under SSHRINK (R202, R203) -/

section
variable {s : State} {cap : Option ℕ+} {p : Nat} {bs : List Bool} (hc : s.cmb = .sshrink)
include hc

theorem cmbNextUnder_of_sshrink (cap : Option ℕ+) :
    cmbNextUnder cap s = finish .cmbNext s id (selfShrinkUnit cap s) := by
  rw [cmbNextUnder, guarded_of_none (by rw [checksCmbNext, hc]; rfl), combinerUnit_of_sshrink hc]

theorem cmbNextUnder_of_keptBits (h : KeptBits s.s1 s.s0 p bs) (hlen : bs.length = 2)
    (hcap : ∀ K : ℕ+, cap = some K → (s.s1.bits p).count false < (K : Nat)) :
    cmbNextUnder cap s = answered 0#4 (packBits bs) (s.advance p p 0) := by
  have hp := h.le_pairBound hcap
  have hloop := selfShrinkLoop_of_keptBits (z := 0) (acc := 0#64) h hp
    fun K hK => (Nat.zero_add _).trans_lt (hcap K hK)
  rw [hlen, BitVec.zero_or] at hloop
  rw [cmbNextUnder_of_sshrink hc, selfShrinkUnit, hloop]
  rfl

/-- R184: the number of pairs that the model looks at reaches the cap. -/
theorem cmbNextUnder_sshrink_exhausted {K : ℕ+} (h0 : s.s0 ≠ .empty)
    (hones : (s.s1.bits p).count true < 2) (hzeros : (s.s1.bits p).count false = (K : Nat))
    (hlast : (s.s1.bits p).getLast? = some false) :
    cmbNextUnder (some K) s = answered 5#4 0#64 (s.advance p p 0) := by
  have hlen := length_bits (ne_empty_of_getLast?_bits hlast) p
  have hp : p ≤ pairBound (some K) 2 := by
    rw [← List.count_true_add_count_false] at hlen
    rw [pairBound_some]
    omega
  rw [cmbNextUnder_of_sshrink hc, selfShrinkUnit,
    selfShrinkLoop_exhausted h0 hones ((Nat.zero_add _).trans hzeros) hlast hp]
  rfl

/-- R203: a control that goes on giving ones ends the unit with two kept bits. -/
theorem cmbNextUnder_none_keeps_two (h0 : s.s0 ≠ .empty) (h1 : s.s1.Recurs) :
    ∃ p bs, bs.length = 2 ∧ KeptBits s.s1 s.s0 p bs ∧
      cmbNextUnder none s = answered 0#4 (packBits bs) (s.advance p p 0) := by
  obtain ⟨u, t, hloop⟩ := selfShrinkLoop_none_ends (z := 0) (acc := 0#64) h0 (h1.le_count 2)
  obtain ⟨p, bs, hlen, -, -, hkept⟩ := selfShrinkLoop_done hloop
  exact ⟨p, bs, hlen, hkept, cmbNextUnder_of_keptBits hc hkept hlen nofun⟩

end

/-- Settles O50: two kept bits before the cap, or the cap before them. -/
theorem selfShrinkUnitKeepsTwoBits : Obligations.SelfShrinkUnitKeepsTwoBits := by
  refine ⟨fun s p d1 d2 hc h0 hdec hlast hcap => ?_, fun s p K hc h0 hones hzeros hlast => ?_⟩
  · have h1 := ne_empty_of_getLast?_bits hlast
    have hkept := keptBits_decimate (p := p) h1 h0 (by rw [hlast]; decide)
    rw [hdec] at hkept
    rw [exec_cmbNext, cmbNextUnder_of_keptBits hc hkept rfl hcap, packBits_pair]
  · exact cmbNextUnder_sshrink_exhausted hc h0 hones hzeros hlast

/-- Settles O51: a nonzero control gives two ones within 2m draws, and a zero control gives none. -/
theorem selfShrinkHangsExactlyOnAZeroControl : Obligations.SelfShrinkHangsExactlyOnAZeroControl := by
  intro s hs hc
  obtain ⟨h0, hne1⟩ := sources_ne_empty_of_sshrink hs hc
  obtain ⟨-, hwf, -⟩ := hs
  have hkeeps := fun hnz => cmbNextUnder_none_keeps_two hc h0 (recurs_of_ne_zero_galois hwf hne1 hnz)
  have hhangs : (∀ fuel, selfShrinkLoop none fuel 2 0 0#64 s = .endless) →
      cmbNextUnder none s = stillBusy .cmbNext s := fun hloop => by
    rw [cmbNextUnder_of_sshrink hc, selfShrinkUnit, hloop]
    rfl
  have hendless : (∃ m P, s.s1 = .gal m P 0#64) →
      ∀ fuel, selfShrinkLoop none fuel 2 0 0#64 s = .endless := fun ⟨m, P, h1⟩ fuel =>
    selfShrinkLoop_endless h0 hne1 (by simp [h1, bits_gal_zero])
  have hzero : cmbNextUnder none s = stillBusy .cmbNext s → ∃ m P, s.s1 = .gal m P 0#64 := by
    intro hbusy
    by_contra hnz
    obtain ⟨p, bs, -, -, hans⟩ := hkeeps fun m P h => hnz ⟨m, P, h⟩
    exact answered_ne_stillBusy _ _ _ _ _ (hans.symm.trans hbusy)
  refine ⟨fun m P x h1 hx => ?_, ⟨hzero, hhangs ∘ hendless⟩, ⟨hzero ∘ hhangs, hendless⟩⟩
  obtain ⟨p, bs, hlen, hkept, hans⟩ := hkeeps (h1 ▸ gal_ne_zero_galois hx m P)
  have hmin := hkept.length_add_count_false
  rw [h1] at hwf hkept
  have hmax := hkept.le_mul (onesWithin_gal hwf hx)
  rw [hlen, Nat.mul_comm] at hmax
  exact ⟨p, packBits bs, by omega, hmax, hans⟩

end Sys2Proof.Machine
end

section
/-! PROOFS of the family 46_prbs_output_pipeline.md: a run whose sources hold registers always finds the
bit it draws, so no command and no step stops; then the n bits of one source, RELEASE, and the checks of
the combiner commands. -/

namespace Sys2Proof.Machine

/-! ### Draws that find a register (R220) -/

/-- Each of these slots holds a register. -/
def State.Drawable (ks : List SlotId) (s : State) : Prop := ∀ k ∈ ks, s.slot k ≠ .empty

/-- Draws leave every register a register. -/
theorem Drawn.drawable {ks ks' : List SlotId} {R : Cmb → Cmb → Prop} {s t : State}
    (h : Drawn ks R s t) (hs : s.Drawable ks') : t.Drawable ks' := by
  intro k hk
  obtain ⟨j, hj⟩ := h.after k
  rw [hj]
  exact after_ne_empty (hs k hk) j

/-- A composed run finds its sources when its first part does, and its second part does in every state
that the first can end in. -/
theorem bind_ne_noSource {α β : Type} {r : Run α} {f : α → State → Run β} {Q : State → Prop}
    (hr : r ≠ .noSource) (hends : r.Ends Q) (hf : ∀ a t, Q t → f a t ≠ .noSource) :
    r.bind f ≠ .noSource := by
  cases r with
  | done a t => exact hf a t hends
  | exhausted t => nofun
  | endless => nofun
  | noSource => exact absurd rfl hr

theorem ends_of_forall {α : Type} {r : Run α} {Q : State → Prop} (hQ : ∀ t, Q t) : r.Ends Q := by
  cases r with
  | done a t => exact hQ t
  | exhausted t => exact hQ t
  | endless => trivial
  | noSource => trivial

/-- Units that find their sources in every state with `P`, and keep `P`, find them any number of
times. -/
theorem repeatUnit_ne_noSource {unit : State → Run Word} {P : State → Prop}
    (hunit : ∀ s, P s → unit s ≠ .noSource) (hkeep : ∀ s, P s → (unit s).Ends P) (j : Nat) {s : State}
    (hs : P s) : repeatUnit unit j s ≠ .noSource := by
  induction j generalizing s with
  | zero => nofun
  | succ j ih =>
    rw [repeatUnit_succ]
    refine bind_ne_noSource (hunit s hs) (hkeep s hs) fun u t ht => ?_
    exact bind_ne_noSource (Q := fun _ => True) (ih ht) (ends_of_forall fun _ => trivial) fun _ _ _ => nofun

section
variable {ks : List SlotId} {s : State}

/-- A draw from a register, and what follows it. -/
theorem draw_bind_ne_noSource {α : Type} {k : SlotId} {f : Bool → State → Run α} (hk : k ∈ ks)
    (hs : s.Drawable ks) (hf : ∀ b t, t.Drawable ks → f b t ≠ .noSource) :
    (draw k s).bind f ≠ .noSource := by
  cases h : draw k s with
  | done b t =>
    obtain ⟨v, hv, rfl⟩ := draw_eq_done.mp h
    exact hf b _ ((drawn_setSlot hk hv).drawable hs)
  | exhausted t => nofun
  | endless => nofun
  | noSource => exact absurd (draw_eq_noSource.mp h) (hs k hk)

theorem drawUnit_ne_noSource {k : SlotId} (hk : s.slot k ≠ .empty) : drawUnit k s ≠ .noSource :=
  draw_bind_ne_noSource (List.mem_singleton_self k) (by simpa [State.Drawable] using hk)
    fun _ _ _ => nofun

theorem drawThree_ne_noSource (f : Bool → Bool → Bool → Bool) (hs : s.Drawable [.s0, .s1, .s2]) :
    drawThree f s ≠ .noSource :=
  draw_bind_ne_noSource (by decide) hs fun _ _ ht1 => draw_bind_ne_noSource (by decide) ht1
    fun _ _ ht2 => draw_bind_ne_noSource (by decide) ht2 fun _ _ _ => nofun

/-- The draws of BIND_STOPGO (R160). -/
theorem bindStopgo_draws_ne_noSource (hs : s.Drawable [.s0, .s1, .s2]) :
    ((draw .s0 s).bind fun b1 t1 => (draw .s1 t1).bind fun b2 t2 =>
      (draw .s2 t2).bind fun b3 t3 => .done () (t3.setCmb (.stopgo b1 b2 b3))) ≠ .noSource :=
  draw_bind_ne_noSource (by decide) hs fun _ _ ht1 => draw_bind_ne_noSource (by decide) ht1
    fun _ _ ht2 => draw_bind_ne_noSource (by decide) ht2 fun _ _ _ => nofun

theorem stopGoUnit_ne_noSource (b2 b3 : Bool) (hs : s.Drawable [.s0, .s1, .s2]) :
    stopGoUnit b2 b3 s ≠ .noSource := by
  refine draw_bind_ne_noSource (by decide) hs fun b1 t1 ht1 => ?_
  cases b1 with
  | true => exact draw_bind_ne_noSource (by decide) ht1 fun _ _ _ => nofun
  | false => exact draw_bind_ne_noSource (by decide) ht1 fun _ _ _ => nofun

theorem shrinkLoop_ne_noSource (cap : Option ℕ+) (fuel z : Nat) (hs : s.Drawable [.s0, .s1]) :
    shrinkLoop cap fuel z s ≠ .noSource := by
  induction fuel generalizing z s with
  | zero => nofun
  | succ fuel ih =>
    rw [shrinkLoop_succ]
    refine draw_bind_ne_noSource (by decide) hs fun b1 t1 ht1 =>
      draw_bind_ne_noSource (by decide) ht1 fun b2 t2 ht2 => ?_
    split_ifs with hkept hcap
    · nofun
    · nofun
    · exact ih (z + 1) ht2

theorem selfShrinkLoop_ne_noSource (cap : Option ℕ+) (fuel left z : Nat) (acc : Word)
    (hs : s.Drawable [.s0, .s1]) : selfShrinkLoop cap fuel left z acc s ≠ .noSource := by
  induction fuel generalizing left z acc s with
  | zero =>
    cases left with
    | zero => nofun
    | succ pos => nofun
  | succ fuel ih =>
    cases left with
    | zero => nofun
    | succ pos =>
      rw [selfShrinkLoop_succ]
      refine draw_bind_ne_noSource (by decide) hs fun d t1 ht1 =>
        draw_bind_ne_noSource (by decide) ht1 fun c t2 ht2 => ?_
      split_ifs with hkept hcap
      · exact ih pos z _ ht2
      · nofun
      · exact ih (pos + 1) (z + 1) acc ht2

end

/-- Draws do not unbind a combiner (R26). -/
theorem SameKind.ne_none {c d : Cmb} (h : SameKind c d) (hc : c ≠ .none) : d ≠ .none := by
  rintro rfl
  obtain ⟨hk, heq⟩ := h
  exact hc (heq (by rw [← hk]; decide)).symm

/-- R220: a combiner is bound, and the slots it owns hold registers. -/
structure State.UnitReady (s : State) : Prop where
  bound : s.cmb ≠ .none
  drawable : s.Drawable s.cmb.ownedSlots

/-- R227: a unit of a combiner that is ready finds its sources. -/
theorem combinerUnit_ne_noSource (cap : Option ℕ+) (s : State) (hs : s.UnitReady) :
    combinerUnit cap s ≠ .noSource := by
  have hdraw {c : Cmb} (hc : s.cmb = c) : s.Drawable c.ownedSlots := hc ▸ hs.drawable
  unfold combinerUnit
  cases hc : s.cmb with
  | none => exact absurd hc hs.bound
  | geffe => exact drawThree_ne_noSource geffe (hdraw hc)
  | stopgo b1 b2 b3 => exact stopGoUnit_ne_noSource b2 b3 (hdraw hc)
  | shrink => exact shrinkLoop_ne_noSource cap _ 0 (hdraw hc)
  | sshrink => exact selfShrinkLoop_ne_noSource cap _ 2 0 _ (hdraw hc)

/-- A combiner that is ready is ready after its unit. -/
theorem combinerUnit_ends_unitReady (cap : Option ℕ+) (s : State) (hs : s.UnitReady) :
    (combinerUnit cap s).Ends State.UnitReady := by
  refine (combinerUnit_ends cap s).mono fun t ht => ⟨ht.cmb.ne_none hs.bound, ?_⟩
  rw [ht.cmb.ownedSlots_eq]
  exact ht.drawable hs.drawable

theorem repeat_combinerUnit_ne_noSource (cap : Option ℕ+) (j : Nat) {s : State} (hs : s.UnitReady) :
    repeatUnit (combinerUnit cap) j s ≠ .noSource :=
  repeatUnit_ne_noSource (combinerUnit_ne_noSource cap) (combinerUnit_ends_unitReady cap) j hs

theorem repeat_drawUnit_ne_noSource {k : SlotId} (j : Nat) {s : State} (hk : s.slot k ≠ .empty) :
    repeatUnit (drawUnit k) j s ≠ .noSource := by
  refine repeatUnit_ne_noSource (P := fun t => t.Drawable [k]) (fun t ht => ?_) (fun t ht => ?_) j ?_
  · exact drawUnit_ne_noSource (ht k (List.mem_singleton_self k))
  · exact (drawUnit_ends k t).mono fun u hu => hu.drawable ht
  · simpa [State.Drawable] using hk

/-! ### Commands and steps that answer (R220, R250) -/

section
variable {s : State}

theorem finish_answers {α : Type} (i : Instr) (s : State) (data : α → Word) {r : Run α}
    (hr : r ≠ .noSource) : Answers (finish i s data r) := by
  cases r with
  | done a t => exact ⟨_, rfl⟩
  | exhausted t => exact ⟨_, rfl⟩
  | endless => exact ⟨_, rfl⟩
  | noSource => exact absurd rfl hr

/-- A command answers with its failing check, and its body has only to answer when none fails. -/
theorem guarded_answers {cs : List (Bool × Status)} {body : State → Answer}
    (h : firstFailing cs = none → Answers (body s)) : Answers (guarded cs s body) := by
  rcases guarded_cases cs s body with ⟨st, -, hraise⟩ | ⟨hnone, hrun⟩
  · exact ⟨_, hraise⟩
  · rw [hrun]
    exact h hnone

/-- R220: under the invariant a combiner that is bound is ready. -/
theorem State.SourcesInv.unitReady (hs : s.SourcesInv) (hbound : s.cmb ≠ .none) : s.UnitReady where
  bound := hbound
  drawable k hk hempty := by simpa [hempty, Slot.isEmpty] using hs.ready k (owned_iff.mpr hk)

/-- R222, R223, R254: the first check of SRC_NEXT or SRC_GETN that fails. -/
theorem firstFailing_checksSource (s : State) (k : SlotId) :
    firstFailing (checksSource s k) =
      if s.owned k = true then some .owned
      else if s.slot k = .empty then some .notReady else none := by
  simp [checksSource, firstFailing_cons]

theorem ne_empty_of_checksSource {k : SlotId} (h : firstFailing (checksSource s k) = none) :
    s.slot k ≠ .empty := by
  rw [firstFailing_checksSource] at h
  split_ifs at h with howned hempty
  exact hempty

theorem drawable_of_checksBind3 (h : firstFailing (checksBind3 s) = none) (ks : List SlotId) :
    s.Drawable ks := by
  intro k _ hempty
  simpa [hempty, Slot.isEmpty] using ready_of_checksBind3 h k

theorem cmbNextUnder_answers (cap : Option ℕ+) (hs : s.SourcesInv) : Answers (cmbNextUnder cap s) := by
  refine guarded_answers fun hchecks => finish_answers _ _ _ (combinerUnit_ne_noSource cap s ?_)
  exact hs.unitReady (by simpa [checksCmbNext, firstFailing_cons] using hchecks)

theorem cmbGetnUnder_answers (cap : Option ℕ+) (n : BitVec 7) (hs : s.SourcesInv) :
    Answers (cmbGetnUnder cap n s) := by
  refine guarded_answers fun hchecks =>
    finish_answers _ _ _ (repeat_combinerUnit_ne_noSource cap _ (hs.unitReady ?_))
  intro hnone
  simp [checksCmbGetn, firstFailing_cons, hnone, Cmb.isNone] at hchecks

theorem geffeNextAltUnder_answers (form : GeffeAltForm) (hs : s.SourcesInv) :
    Answers (geffeNextAltUnder form s) := by
  refine guarded_answers fun hchecks => finish_answers _ _ _ (drawThree_ne_noSource _ ?_)
  have hgeffe : s.cmb = .geffe := by simpa [checksGeffeNextAlt, firstFailing_cons] using hchecks
  have hready := hs.unitReady (by rw [hgeffe]; decide)
  simpa [hgeffe, Cmb.ownedSlots] using hready.drawable

/-- R220: no command stops where the invariant of the sources holds: a command that only writes always
answers, and one that draws finds its sources. -/
theorem exec_answers (i : Instr) (hs : s.SourcesInv) : Answers (exec i s) := by
  unfold exec
  cases i with
  | cfgFib k len taps seed => exact guarded_answers fun _ => ⟨_, rfl⟩
  | cfgGal k poly state => exact guarded_answers fun _ => ⟨_, rfl⟩
  | srcNext k =>
    exact guarded_answers fun hchecks =>
      finish_answers _ _ _ (drawUnit_ne_noSource (ne_empty_of_checksSource hchecks))
  | srcGetn k n =>
    exact guarded_answers fun hchecks =>
      finish_answers _ _ _ (repeat_drawUnit_ne_noSource _ (ne_empty_of_checksSource hchecks))
  | bindGeffe => exact guarded_answers fun _ => ⟨_, rfl⟩
  | bindStopgo =>
    exact guarded_answers fun hchecks =>
      finish_answers _ _ _ (bindStopgo_draws_ne_noSource (drawable_of_checksBind3 hchecks _))
  | bindShrink => exact guarded_answers fun _ => ⟨_, rfl⟩
  | bindSshrink => exact guarded_answers fun _ => ⟨_, rfl⟩
  | cmbNext => exact cmbNextUnder_answers Config.retryCap hs
  | cmbGetn n => exact cmbGetnUnder_answers Config.retryCap n hs
  | geffeNextAlt => exact geffeNextAltUnder_answers Config.geffeAltForm hs
  | release => exact guarded_answers fun _ => ⟨_, rfl⟩

/-- The block answers a complete command, decoded or ILLEGAL (R77). -/
theorem runCommand_answers {c : Command} (hs : s.SourcesInv) (hc : c.complete = true) :
    Answers (runCommand c s) := by
  rw [runCommand, if_pos hc]
  cases decodeCommand c with
  | ok i => exact exec_answers i hs
  | error e => exact ⟨_, rfl⟩

/-- PORT holds a complete command or a defined status (R32, R250), so its step does not stop either. -/
theorem step_answers (hinv : s.Inv) : Answers (step s) := by
  obtain ⟨hs, hp⟩ := (inv_iff s).mp hinv
  rcases step_cases s with ⟨-, hstep⟩ | ⟨-, c, hport, hstep⟩ | ⟨-, w, -, hword⟩ |
    ⟨-, r, hport, -, hstep⟩ | ⟨-, -, hstep⟩
  · exact ⟨_, hstep⟩
  · rw [hstep]
    rw [hport] at hp
    exact runCommand_answers (hs.setHost _) hp
  · rcases hword with ⟨-, hstep⟩ | ⟨h, -, hstep⟩ | ⟨h, a, -, hstep⟩
    · exact ⟨_, hstep⟩
    · exact ⟨_, hstep⟩
    · exact ⟨_, hstep⟩
  · obtain ⟨hdefined, -⟩ : reservedCode r.status = false ∧ _ := by
      simpa only [hport, Port.wf, Bool.and_eq_true, Bool.not_eq_true'] using hp
    rw [hstep, hdefined]
    exact ⟨_, rfl⟩
  · exact ⟨_, hstep⟩

end

/-- Settles O25: a step that runs a command finds the sources it draws from, and every other step changes
PORT and the host's side alone. -/
theorem invariantStatesNeverStop : Obligations.InvariantStatesNeverStop :=
  ⟨fun _ hinv => step_answers hinv, fun s i hinv => exec_answers i ((inv_iff s).mp hinv).1⟩

/-- Every state with the invariant is safe: a step from it does not stop and keeps the invariant. -/
theorem safe_of_inv {s : State} (hinv : s.Inv) : s.Safe := by
  intro n
  induction n generalizing s with
  | zero => exact ⟨s, rfl⟩
  | succ n ih =>
    obtain ⟨t, hstep⟩ := step_answers hinv
    rw [run_succ_of_step hstep]
    exact ih (stepKeepsTheInvariant s t hinv hstep)

/-- Settles O26: reset meets the invariant whatever the host is going to do. -/
theorem everyRunFromResetIsSafe : Obligations.EveryRunFromResetIsSafe :=
  fun h => safe_of_inv (invariantHoldsAtReset h)

/-! ### n bits of one source (R221, R222, R223) -/

section
variable {s : State} {k : SlotId}

theorem drawUnit_of_next? {b : Bool} (h : (s.slot k).next? = some b) :
    drawUnit k s = .done (bitWord b) (s.setSlot k ((s.slot k).after 1)) := by
  rw [drawUnit, draw_of_step (step_of_next? h), bind_done]

/-- R223: n draws produce the next n bits of the source, and change its slot alone. -/
theorem repeatUnit_of_drawUnit (hk : s.slot k ≠ .empty) (n : Nat) :
    repeatUnit (drawUnit k) n s =
      .done (((s.slot k).bits n).map bitWord) (s.setSlot k ((s.slot k).after n)) := by
  induction n generalizing s with
  | zero => rw [after_zero, setSlot_slot]; rfl
  | succ n ih =>
    obtain ⟨b, hb⟩ := exists_next? hk
    have hrest := ih (s := s.setSlot k ((s.slot k).after 1))
      (by rw [slot_setSlot_same]; exact after_one_ne_empty hk)
    rw [slot_setSlot_same, setSlot_setSlot, ← after_add, Nat.add_comm] at hrest
    rw [repeatUnit_succ, drawUnit_of_next? hb, bind_done, hrest, bind_done, bits_succ_of_next? hb,
      List.map_cons]

/-- R223: everything SRC_GETN can do. -/
theorem exec_srcGetn (s : State) (k : SlotId) (n : BitVec 7) :
    exec (.srcGetn k n) s =
      if s.owned k = true then answered 4#4 0#64 s
      else if s.slot k = .empty then answered 3#4 0#64 s
      else answered 0#4 (packBits ((s.slot k).bits n.toNat)) (s.setSlot k ((s.slot k).after n.toNat)) := by
  have harm : exec (.srcGetn k n) s = execSrcGetn k n s := rfl
  rw [harm, execSrcGetn, guarded, firstFailing_checksSource]
  split_ifs with howned hempty
  · rfl
  · rfl
  · rw [repeatUnit_of_drawUnit hempty]
    rfl

/-- R222: SRC_NEXT is one draw, and so is SRC_GETN for n = 1. -/
theorem exec_srcNext_eq_srcGetn (s : State) (k : SlotId) :
    exec (.srcNext k) s = exec (.srcGetn k 1#7) s := by
  have harm : exec (.srcNext k) s = execSrcNext k s := rfl
  rw [exec_srcGetn, harm, execSrcNext, guarded, firstFailing_checksSource]
  split_ifs with howned hempty
  · rfl
  · rfl
  · obtain ⟨b, hb⟩ := exists_next? hempty
    have hbits : (s.slot k).bits (1#7).toNat = [b] := bits_succ_of_next? hb 0
    rw [drawUnit_of_next? hb, hbits, packBits_singleton]
    rfl

end

/-- R223: n packed bits leave every bit from n up 0. -/
theorem toNat_packBits_lt (bs : List Bool) : (packBits bs).toNat < 2 ^ bs.length := by
  refine Nat.lt_pow_two_of_testBit _ fun i hi => ?_
  by_cases h : i < 64
  · have hbit : (packBits bs).getLsbD i = bs.reverse.getD i false := getLsbD_pack_bitWord bs h
    rw [← BitVec.getLsbD, hbit, List.getD_eq_default _ _ (by simpa using hi)]
  · exact BitVec.getLsbD_of_ge _ _ (Nat.le_of_not_lt h)

/-- Settles O58, check by check and then the bits of DATA. -/
theorem srcGetnReturnsTheStream : Obligations.SrcGetnReturnsTheStream := by
  intro s k n hn
  rw [exec_srcGetn]
  refine ⟨rfl, fun howned => ?_, fun hfree hempty => ?_, fun hfree hk =>
    ⟨packBits ((s.slot k).bits n.toNat), ?_, ?_, ?_⟩⟩
  · rw [if_pos howned]
  · rw [hfree, if_neg Bool.false_ne_true, if_pos hempty]
  · rw [hfree, if_neg Bool.false_ne_true, if_neg hk]
  · have hlen := length_bits hk n.toNat
    have hview := stringView_pack_bitWord (hlen.trans_le hn)
    rwa [hlen] at hview
  · have hlt := toNat_packBits_lt ((s.slot k).bits n.toNat)
    rwa [length_bits hk] at hlt

/-- Settles O57: its checks and its draw are those of SRC_GETN for n = 1, whose one bit is DATA. -/
theorem srcNextFollowsItsPseudocode : Obligations.SrcNextFollowsItsPseudocode := by
  intro s k
  have hword : encode (.srcNext k) = [(0x03#64 <<< 24) ||| (k.field.setWidth 64 <<< 22)] := by
    cases k <;> rfl
  obtain ⟨-, howned, hempty, -⟩ := srcGetnReturnsTheStream s k 1#7 (by decide)
  rw [exec_srcNext_eq_srcGetn]
  refine ⟨hword, howned, hempty, fun b hfree hb => ?_, rfl⟩
  have hbits : (s.slot k).bits (1#7).toNat = [b] := bits_succ_of_next? hb 0
  rw [exec_srcGetn, hfree, if_neg Bool.false_ne_true, if_neg (ne_empty_of_next? hb), hbits,
    packBits_singleton]
  rfl

/-! ### RELEASE (R226) -/

/-- R226: the owned slots are emptied and the combiner is dropped, for every kind of combiner. -/
theorem releaseOwned_eq (s : State) : releaseOwned s =
    { s with
      s0 := if s.owned .s0 then .empty else s.s0
      s1 := if s.owned .s1 then .empty else s.s1
      s2 := if s.owned .s2 then .empty else s.s2
      cmb := .none } := by
  obtain ⟨s0, s1, s2, cmb, port, host⟩ := s
  cases cmb <;> rfl

theorem releaseOwned_of_none {s : State} (hnone : s.cmb = .none) : releaseOwned s = s := by
  rw [releaseOwned, hnone]
  exact setCmb_self hnone

theorem exec_release (s : State) : exec .release s = answered 0#4 0#64 (releaseOwned s) := rfl

/-- Settles O59: RELEASE answers OK in the state with the owned slots emptied, the same state if nothing
is bound. -/
theorem releaseEmptiesTheOwnedSlots : Obligations.ReleaseEmptiesTheOwnedSlots := by
  refine ⟨rfl, fun s => ?_, fun s hnone => ?_⟩
  · rw [exec_release, releaseOwned_eq]
  · rw [exec_release, releaseOwned_of_none hnone]

/-! ### The checks of the combiner commands (R224, R225) -/

section
variable {s : State}

theorem cmbNextUnder_of_none (cap : Option ℕ+) (hnone : s.cmb = .none) :
    cmbNextUnder cap s = answered 3#4 0#64 s := by
  rw [cmbNextUnder, guarded_of_some (st := .notReady) (by rw [checksCmbNext, hnone]; rfl)]
  rfl

theorem cmbGetnUnder_of_none (cap : Option ℕ+) (n : BitVec 7) (hnone : s.cmb = .none) :
    cmbGetnUnder cap n s = answered 3#4 0#64 s := by
  rw [cmbGetnUnder, guarded_of_some (st := .notReady) (by rw [checksCmbGetn, hnone]; rfl)]
  rfl

/-- R225: no unit is needed for n = 0. -/
theorem cmbGetnUnder_of_zero (cap : Option ℕ+) {n : BitVec 7} (hbound : s.cmb ≠ .none)
    (hn : n.toNat = 0) : cmbGetnUnder cap n s = answered 0#4 0#64 s := by
  have hchecks : firstFailing (checksCmbGetn s n) = none := by
    simp [checksCmbGetn, hn, (isNone_eq_false_iff s.cmb).mpr hbound]
  rw [cmbGetnUnder, guarded_of_none hchecks, hn, Nat.zero_div]
  rfl

end

/-- Settles O60, command by command and check by check. -/
theorem cmbCommandsHaveTheirWordsAndChecks : Obligations.CmbCommandsHaveTheirWordsAndChecks := by
  refine ⟨rfl, fun s => ⟨fun hnone => ?_, fun n _ => ⟨rfl, fun hnone => ?_, fun hc hodd => ?_,
    fun hbound hn => ?_⟩⟩⟩
  · rw [exec_cmbNext, cmbNextUnder_of_none _ hnone]
  · rw [exec_cmbGetn, cmbGetnUnder_of_none _ n hnone]
  · rw [exec_cmbGetn, cmbGetnUnder_of_not_multiple _ (.inr hc)]
    rw [hc, Cmb.unitWidth, hodd]
    exact one_ne_zero
  · rw [exec_cmbGetn, cmbGetnUnder_of_zero _ hbound hn]

end Sys2Proof.Machine
end

section
/-! PROOFS of the family 60_exceptions.md: the row of checks of each command, everything a command can
complete with, and how the control stream decides whether a unit of a shrinking combiner is completed,
reaches the retry cap or never ends. -/

namespace Sys2Proof.Machine

/-! ### The row of checks of a command (R254) -/

/-- R254: the checks of a command in the order of its row, after Decode. -/
def rowChecks (i : Instr) (s : State) : List (Bool × Status) :=
  match i with
  | .cfgFib k len taps seed => checksCfgFib s k len taps seed
  | .cfgGal k poly state => checksCfgGal s k poly state
  | .srcNext k => checksSource s k
  | .srcGetn k _ => checksSource s k
  | .bindGeffe => checksBind3 s
  | .bindStopgo => checksBind3 s
  | .bindShrink => checksBindShrink s
  | .bindSshrink => checksBindSshrink s
  | .cmbNext => checksCmbNext s
  | .cmbGetn n => checksCmbGetn s n
  | .geffeNextAlt => checksGeffeNextAlt s
  | .release => checksRelease

/-- Every command runs behind its row. -/
theorem exec_eq_guarded (i : Instr) (s : State) : ∃ body, exec i s = guarded (rowChecks i s) s body := by
  unfold exec rowChecks execCmbNext execCmbGetn execGeffeNextAlt
  cases i <;> exact ⟨_, rfl⟩

/-- A failing check answers before the command writes or draws (R251). -/
theorem exec_of_failing {i : Instr} {s : State} {st : Status}
    (h : firstFailing (rowChecks i s) = some st) : exec i s = answered st.code 0#64 s := by
  obtain ⟨body, hexec⟩ := exec_eq_guarded i s
  rw [hexec, guarded_of_some h]
  rfl

theorem mem_of_firstFailing {cs : List (Bool × Status)} {st : Status} (h : firstFailing cs = some st) :
    (true, st) ∈ cs := by
  induction cs with
  | nil => cases h
  | cons c cs ih =>
    obtain ⟨_ | _, st'⟩ := c
    · exact List.mem_cons_of_mem _ (ih h)
    · obtain rfl := Option.some.inj h
      exact List.mem_cons_self

/-- R103, R254: the first check of CFG_FIB that fails. -/
theorem firstFailing_checksCfgFib (s : State) (k : SlotId) (len : BitVec 7) (taps seed : Word) :
    firstFailing (checksCfgFib s k len taps seed) =
      if s.owned k = true then some .owned
      else if len.toNat = 0 ∨ 64 < len.toNat then some .configError
      else if taps >>> len.toNat ≠ 0#64 then some .configError
      else if seed >>> len.toNat ≠ 0#64 then some .configError else none := by
  simp only [checksCfgFib, firstFailing_cons, firstFailing_nil, Bool.or_eq_true, decide_eq_true_iff]
  rfl

/-- Only under SSHRINK is the unit wider than one bit, so that n can fail to be a multiple (R225). -/
theorem mod_unitWidth_ne_zero_iff {c : Cmb} (hc : c ≠ .none) (n : Nat) :
    n % c.unitWidth ≠ 0 ↔ c = .sshrink ∧ n % 2 = 1 := by
  cases c with
  | none => exact absurd rfl hc
  | sshrink => simp [Cmb.unitWidth]
  | _ => simp [Cmb.unitWidth, Nat.mod_one]

/-- The first failing check of a row has the code that R254 gives. -/
theorem map_code_firstFailing_rowChecks (i : Instr) (s : State) :
    (firstFailing (rowChecks i s)).map Status.code = expectedError i s := by
  cases i with
  | cfgFib k len taps seed =>
    rw [rowChecks, firstFailing_checksCfgFib, expectedError]
    split_ifs <;> rfl
  | cfgGal k poly state =>
    rw [rowChecks, firstFailing_checksCfgGal, ite_or, expectedError]
    split_ifs <;> rfl
  | srcNext | srcGetn =>
    rw [rowChecks, firstFailing_checksSource, expectedError]
    split_ifs <;> rfl
  | bindGeffe | bindStopgo =>
    rw [rowChecks, firstFailing_checksBind3, expectedError]
    split_ifs <;> rfl
  | bindShrink =>
    rw [rowChecks, firstFailing_checksBindShrink, expectedError]
    split_ifs <;> rfl
  | bindSshrink =>
    rw [rowChecks, firstFailing_checksBindSshrink, expectedError]
    simp only [not_and_or, Bool.not_eq_true]
    split_ifs <;> rfl
  | cmbNext =>
    simp only [rowChecks, checksCmbNext, firstFailing_cons, Cmb.isNone_iff, expectedError]
    split_ifs <;> rfl
  | cmbGetn n =>
    simp only [rowChecks, checksCmbGetn, firstFailing_cons, Cmb.isNone_iff, expectedError,
      decide_eq_true_iff]
    by_cases hnone : s.cmb = .none
    · simp [hnone, Status.code]
    · simp only [if_neg hnone, mod_unitWidth_ne_zero_iff hnone]
      split_ifs <;> rfl
  | geffeNextAlt =>
    simp only [rowChecks, checksGeffeNextAlt, firstFailing_cons, Bool.not_eq_true',
      Bool.eq_false_iff, ne_eq, Cmb.isGeffe_iff, expectedError]
    split_ifs <;> rfl
  | release => rfl


/-! ### The bits of DATA (R253) -/

/-- The word is n bits packed, so every bit of it from n up is 0. -/
def Packed (n : Nat) (d : Word) : Prop := ∃ bs : List Bool, bs.length = n ∧ d = packBits bs

theorem Packed.toNat_lt {n : Nat} {d : Word} (h : Packed n d) : d.toNat < 2 ^ n := by
  obtain ⟨bs, rfl, rfl⟩ := h
  exact toNat_packBits_lt bs

theorem packed_zero : Packed 0 0#64 := ⟨[], rfl, rfl⟩

theorem packed_bitWord (b : Bool) : Packed 1 (bitWord b) := ⟨[b], rfl, (packBits_singleton b).symm⟩

/-- R221: a unit packed before k more of its width. -/
theorem Packed.cons {w k : Nat} {u : Word} {us : List Word} (hu : Packed w u)
    (hus : Packed (k * w) (pack w us)) (hlen : us.length = k) :
    Packed ((k + 1) * w) (pack w (u :: us)) := by
  obtain ⟨bs, hbs, rfl⟩ := hu
  obtain ⟨cs, hcs, hpack⟩ := hus
  refine ⟨bs ++ cs, ?_, ?_⟩
  · rw [List.length_append, hbs, hcs, Nat.succ_mul, Nat.add_comm]
  · rw [pack_cons, packBits_append, hpack, hcs, hlen, Nat.mul_comm]

theorem State.Yields.packed {s t : State} {k : Nat} {u : Word} (h : s.Yields k u t) : Packed k u := by
  obtain ⟨p, bs, hlen, hu, -, -⟩ := h
  exact ⟨bs, hlen, hu⟩

/-! ### Runs that end with a value or not at all -/

/-- Apart from a draw of an EMPTY slot, the run ends with a value, and `Q` holds of it. -/
def Run.Gives {α : Type} (r : Run α) (Q : α → Prop) : Prop :=
  match r with
  | .done a _ => Q a
  | .exhausted _ => False
  | .endless => False
  | .noSource => True

/-- A composed run ends with a value when both its parts do. -/
theorem Run.Gives.bind {α β : Type} {r : Run α} {f : α → State → Run β} {P : α → Prop} {Q : β → Prop}
    (hr : r.Gives P) (hf : ∀ a t, r = .done a t → P a → (f a t).Gives Q) : (r.bind f).Gives Q := by
  cases r with
  | done a t => exact hf a t rfl hr
  | exhausted t => exact hr
  | endless => exact hr
  | noSource => trivial

theorem draw_gives (k : SlotId) (s : State) : (draw k s).Gives fun _ => True := by
  cases h : draw k s with
  | done b t => trivial
  | exhausted t => exact absurd h (draw_ne_exhausted k s t)
  | endless => exact absurd h (draw_ne_endless k s)
  | noSource => trivial

/-- A draw always gives a bit, so what follows it decides. -/
theorem draw_bind_gives {α : Type} {k : SlotId} {s : State} {f : Bool → State → Run α} {Q : α → Prop}
    (hf : ∀ b t, (f b t).Gives Q) : ((draw k s).bind f).Gives Q :=
  (draw_gives k s).bind fun b t _ _ => hf b t

theorem drawUnit_gives (k : SlotId) (s : State) : (drawUnit k s).Gives (Packed 1) :=
  draw_bind_gives fun b _ => packed_bitWord b

theorem drawThree_gives (f : Bool → Bool → Bool → Bool) (s : State) :
    (drawThree f s).Gives (Packed 1) :=
  draw_bind_gives fun _ _ => draw_bind_gives fun _ _ => draw_bind_gives fun _ _ => packed_bitWord _

theorem stopGoUnit_gives (b2 b3 : Bool) (s : State) : (stopGoUnit b2 b3 s).Gives (Packed 1) := by
  refine draw_bind_gives fun b1 t1 => ?_
  cases b1 with
  | true => exact draw_bind_gives fun _ _ => packed_bitWord _
  | false => exact draw_bind_gives fun _ _ => packed_bitWord _

/-- A combiner that keeps its kind stays the same one, or stays STOPGO with other bits latched. -/
theorem SameKind.eq_or_stopgo {c d : Cmb} (h : SameKind c d) :
    d = c ∨ (∃ b1 b2 b3, c = .stopgo b1 b2 b3) ∧ ∃ b1 b2 b3, d = .stopgo b1 b2 b3 := by
  obtain ⟨hk, heq⟩ := h
  by_cases hc : c.kindNumber = 2
  · exact .inr ⟨eq_stopgo_of_kindNumber hc, eq_stopgo_of_kindNumber (hk.trans hc)⟩
  · exact .inl (heq hc)

theorem SameKind.unitWidth_eq {c d : Cmb} (h : SameKind c d) : d.unitWidth = c.unitWidth := by
  obtain rfl | ⟨⟨b1, b2, b3, rfl⟩, c1, c2, c3, rfl⟩ := h.eq_or_stopgo
  · rfl
  · rfl

section
variable {s t : State}

theorem not_shrinking_of_sameKind (h : SameKind s.cmb t.cmb) (hs : ¬s.Shrinking) : ¬t.Shrinking := by
  obtain heq | ⟨-, b1, b2, b3, ht⟩ := h.eq_or_stopgo
  · rwa [State.Shrinking, heq]
  · rintro (hc | hc) <;> cases ht.symm.trans hc

/-- R142, R161: the units of GEFFE and STOPGO are one bit. -/
theorem combinerUnit_gives (cap : Option ℕ+) (hs : ¬s.Shrinking) :
    (combinerUnit cap s).Gives (Packed s.cmb.unitWidth) := by
  unfold combinerUnit
  cases hc : s.cmb with
  | none => trivial
  | geffe => exact drawThree_gives geffe s
  | stopgo b1 b2 b3 => exact stopGoUnit_gives b2 b3 s
  | shrink => exact absurd (.inl hc) hs
  | sshrink => exact absurd (.inr hc) hs

theorem repeatUnit_gives (cap : Option ℕ+) (k : Nat) (hs : ¬s.Shrinking) :
    (repeatUnit (combinerUnit cap) k s).Gives fun us =>
      Packed (k * s.cmb.unitWidth) (pack s.cmb.unitWidth us) := by
  induction k generalizing s with
  | zero => exact ⟨[], (Nat.zero_mul _).symm, rfl⟩
  | succ k ih =>
    rw [repeatUnit_succ]
    refine (combinerUnit_gives cap hs).bind fun u t hunit hu => ?_
    have hkind : SameKind s.cmb t.cmb := by
      have hends := combinerUnit_ends cap s
      rw [hunit] at hends
      exact hends.cmb
    refine (ih (not_shrinking_of_sameKind hkind hs)).bind fun us v hrest hus => ?_
    rw [hkind.unitWidth_eq] at hus
    exact hu.cons hus (length_of_repeatUnit hrest)

end

/-! ### What a unit of a shrinking combiner comes to (R181, R184, R201) -/

theorem getLast?_bits_succ_of_next? {v : Slot} {b c : Bool} {p : Nat} (hc : v.next? = some c)
    (h : ((v.after 1).bits p).getLast? = some b) : (v.bits (p + 1)).getLast? = some b := by
  rw [bits_succ_of_next? hc, List.getLast?_cons, h]
  rfl

/-- What the pairs of a unit from s on come to, its control being v: v gives the `left` ones that the unit
needs, or first the zero that brings its count of zeros from z to the cap. Only without a cap do the
pairs that the model looks at decide neither. -/
def Run.Counts (r : Run Word) (cap : Option ℕ+) (s : State) (v : Slot) (left z : Nat) : Prop :=
  match r with
  | .done _ t => ∃ p, t = s.advance p p 0 ∧ (v.bits p).count true = left ∧
      (p = 0 ∨ (v.bits p).getLast? = some true) ∧
      ∀ K : ℕ+, cap = some K → z + (v.bits p).count false < (K : Nat)
  | .exhausted t => ∃ (K : ℕ+) (p : Nat), cap = some K ∧ t = s.advance p p 0 ∧
      (v.bits p).count true < left ∧ z + (v.bits p).count false = (K : Nat) ∧
      (v.bits p).getLast? = some false
  | .endless => cap = none
  | .noSource => True

/-- A pair with control bit 1 comes before the rest of the unit. -/
theorem Run.Counts.keep {r : Run Word} {cap : Option ℕ+} {s : State} {v : Slot} {left z : Nat}
    (hc : v.next? = some true) (h : r.Counts cap (s.advance 1 1 0) (v.after 1) left z) :
    r.Counts cap s v (left + 1) z := by
  cases r with
  | done u t =>
    obtain ⟨p, rfl, hones, hlast, hcap⟩ := h
    refine ⟨p + 1, by rw [advance_advance, Nat.add_comm 1 p], ?_, .inr ?_, ?_⟩
    · rw [bits_succ_of_next? hc, List.count_cons_self, hones]
    · rcases hlast with rfl | hlast
      · rw [bits_succ_of_next? hc]; rfl
      · exact getLast?_bits_succ_of_next? hc hlast
    · rwa [bits_succ_of_next? hc, List.count_cons_of_ne (by decide)]
  | exhausted t =>
    obtain ⟨K, p, hK, rfl, hones, hzeros, hlast⟩ := h
    refine ⟨K, p + 1, hK, by rw [advance_advance, Nat.add_comm 1 p], ?_, ?_,
      getLast?_bits_succ_of_next? hc hlast⟩
    · rw [bits_succ_of_next? hc, List.count_cons_self]; omega
    · rwa [bits_succ_of_next? hc, List.count_cons_of_ne (by decide)]
  | endless => exact h
  | noSource => trivial

/-- A pair with control bit 0 comes before the rest of the unit. -/
theorem Run.Counts.discard {r : Run Word} {cap : Option ℕ+} {s : State} {v : Slot} {pos z : Nat}
    (hc : v.next? = some false) (h : r.Counts cap (s.advance 1 1 0) (v.after 1) (pos + 1) (z + 1)) :
    r.Counts cap s v (pos + 1) z := by
  have hzeros (p : Nat) :
      z + (v.bits (p + 1)).count false = z + 1 + ((v.after 1).bits p).count false := by
    rw [bits_succ_of_next? hc, List.count_cons_self]; omega
  have hones (p : Nat) : (v.bits (p + 1)).count true = ((v.after 1).bits p).count true := by
    rw [bits_succ_of_next? hc, List.count_cons_of_ne (by decide)]
  cases r with
  | done u t =>
    obtain ⟨p, rfl, hcount, hlast, hcap⟩ := h
    refine ⟨p + 1, by rw [advance_advance, Nat.add_comm 1 p], (hones p).trans hcount, .inr ?_,
      fun K hK => (hzeros p).trans_lt (hcap K hK)⟩
    rcases hlast with rfl | hlast
    · cases hcount
    · exact getLast?_bits_succ_of_next? hc hlast
  | exhausted t =>
    obtain ⟨K, p, hK, rfl, hcount, hcap, hlast⟩ := h
    exact ⟨K, p + 1, hK, by rw [advance_advance, Nat.add_comm 1 p], (hones p).trans_lt hcount,
      (hzeros p).trans hcap, getLast?_bits_succ_of_next? hc hlast⟩
  | endless => exact h
  | noSource => trivial

/-- A pair with control bit 0 that brings the count to the cap. -/
theorem counts_of_capReached {cap : Option ℕ+} {s : State} {v : Slot} {pos z : Nat}
    (hc : v.next? = some false) (h : capReached cap (z + 1) = true) :
    (Run.exhausted (s.advance 1 1 0)).Counts cap s v (pos + 1) z := by
  cases cap with
  | none => cases h
  | some K =>
    have hbits : v.bits 1 = [false] := bits_succ_of_next? hc 0
    exact ⟨K, 1, rfl, rfl, by rw [hbits]; exact Nat.succ_pos pos,
      by rw [hbits]; exact (capReached_some K _).mp h, by rw [hbits]; rfl⟩

/-- A pair that does not reach the cap leaves the count below it. -/
theorem lt_of_not_capReached {cap : Option ℕ+} {K : ℕ+} {z : Nat}
    (hcap : ¬capReached cap (z + 1) = true) (hK : cap = some K) (hz : z < (K : Nat)) : z + 1 < (K : Nat) := by
  subst hK
  rw [capReached_some] at hcap
  omega

/-- A pair draws from both slots, if neither is EMPTY. -/
theorem drawPair_eq_noSource_or {α : Type} (f : Bool → Bool → State → Run α) (s : State) :
    drawPair f s = .noSource ∨ ∃ b0 b1, s.s0.next? = some b0 ∧ s.s1.next? = some b1 ∧
      drawPair f s = f b0 b1 (s.advance 1 1 0) := by
  by_cases h0 : s.s0 = .empty
  · exact .inl (by rw [drawPair, (draw_eq_noSource (k := .s0)).mpr h0, bind_noSource])
  · obtain ⟨b0, hb0⟩ := exists_next? h0
    by_cases h1 : s.s1 = .empty
    · left
      rw [drawPair, draw_s0_of_next? hb0, bind_done, draw_eq_noSource.mpr, bind_noSource]
      exact h1
    · obtain ⟨b1, hb1⟩ := exists_next? h1
      exact .inr ⟨b0, b1, hb0, hb1, drawPair_of_next? f hb0 hb1⟩

section
variable {cap : Option ℕ+} {fuel z : Nat}

/-- R181: the shrinking unit needs one control bit 1. -/
theorem shrinkLoop_counts (s : State)
    (hfuel : ∀ K : ℕ+, cap = some K → z < (K : Nat) ∧ (K : Nat) ≤ z + fuel) :
    (shrinkLoop cap fuel z s).Counts cap s s.s0 1 z := by
  induction fuel generalizing s z with
  | zero =>
    rw [shrinkLoop_zero]
    refine Option.eq_none_iff_forall_ne_some.mpr fun K hK => ?_
    have := hfuel K hK
    omega
  | succ fuel ih =>
    rw [shrinkLoop_eq_drawPair]
    rcases drawPair_eq_noSource_or _ s with hnone | ⟨c, d, hc, hd, hpair⟩
    · rw [hnone]; trivial
    rw [hpair]
    cases c with
    | true =>
      rw [if_pos rfl]
      exact Run.Counts.keep hc ⟨0, rfl, rfl, .inl rfl, fun K hK => (hfuel K hK).1⟩
    | false =>
      rw [if_neg Bool.false_ne_true]
      split_ifs with hcap
      · exact counts_of_capReached hc hcap
      · refine Run.Counts.discard hc (ih (s.advance 1 1 0) fun K hK => ?_)
        obtain ⟨hz, hlong⟩ := hfuel K hK
        exact ⟨lt_of_not_capReached hcap hK hz, by omega⟩

/-- R201: the self-shrinking unit needs a control bit 1 for each place that is left. -/
theorem selfShrinkLoop_counts {left : Nat} (acc : Word) (s : State)
    (hfuel : ∀ K : ℕ+, cap = some K → z < (K : Nat) ∧ (K : Nat) + left ≤ z + fuel + 1) :
    (selfShrinkLoop cap fuel left z acc s).Counts cap s s.s1 left z := by
  induction fuel generalizing s z left acc with
  | zero =>
    cases left with
    | zero => exact ⟨0, rfl, rfl, .inl rfl, fun K hK => (hfuel K hK).1⟩
    | succ pos =>
      rw [selfShrinkLoop_zero]
      refine Option.eq_none_iff_forall_ne_some.mpr fun K hK => ?_
      have := hfuel K hK
      omega
  | succ fuel ih =>
    cases left with
    | zero => exact ⟨0, rfl, rfl, .inl rfl, fun K hK => (hfuel K hK).1⟩
    | succ pos =>
      rw [selfShrinkLoop_eq_drawPair]
      rcases drawPair_eq_noSource_or _ s with hnone | ⟨d, c, hd, hc, hpair⟩
      · rw [hnone]; trivial
      rw [hpair]
      cases c with
      | true =>
        rw [if_pos rfl]
        refine Run.Counts.keep hc (ih _ (s.advance 1 1 0) fun K hK => ?_)
        have := hfuel K hK
        omega
      | false =>
        rw [if_neg Bool.false_ne_true]
        split_ifs with hcap
        · exact counts_of_capReached hc hcap
        · refine Run.Counts.discard hc (ih acc (s.advance 1 1 0) fun K hK => ?_)
          obtain ⟨hz, hlong⟩ := hfuel K hK
          exact ⟨lt_of_not_capReached hcap hK hz, by omega⟩

/-- R181, R201: the number of pairs that the model looks at reaches every cap. -/
theorem combinerUnit_counts {s : State} (hs : s.Shrinking) :
    (combinerUnit cap s).Counts cap s s.control s.cmb.unitWidth 0 := by
  rcases hs with hc | hc
  · rw [combinerUnit_of_shrink hc, control_of_shrink hc, hc]
    refine shrinkLoop_counts s fun K hK => ?_
    rw [hK, pairBound_some]
    exact ⟨K.pos, by omega⟩
  · rw [combinerUnit_of_sshrink hc, control_of_sshrink hc, hc]
    refine selfShrinkLoop_counts _ s fun K hK => ?_
    rw [hK, pairBound_some]
    exact ⟨K.pos, by omega⟩

end

/-! ### The first pair at which a unit reaches the cap (R181, R184, R201) -/

section
variable {w K : Nat} {a c : List Bool}

/-- Bits without a 1 that do not end in 0 are none. -/
theorem eq_nil_of_count_true_eq_zero (hcount : a.count true = 0) (hlast : a.getLast? ≠ some false) :
    a = [] := by
  induction a using List.reverseRecOn with
  | nil => rfl
  | append_singleton a b _ => cases b <;> simp at hcount hlast

/-- Within its first unit the control reaches the cap at its K-th 0. -/
theorem endsAtCap_iff_of_count_lt (h : c.count true < w) :
    EndsAtCap w K c ↔ c.count false = K ∧ c.getLast? = some false := by
  constructor
  · rintro ⟨j, hj, hmod, hlast, -, hzeros, hlast'⟩
    have hle := (List.take_sublist j c).count_le true
    rw [Nat.mod_eq_of_lt (hle.trans_lt h)] at hmod
    have hnil := eq_nil_of_count_true_eq_zero hmod hlast
    obtain rfl : j = 0 := by
      have hlen := congrArg List.length hnil
      rw [List.length_take, List.length_nil] at hlen
      omega
    exact ⟨hzeros, hlast'⟩
  · rintro ⟨hzeros, hlast⟩
    have hpos : 0 < c.length := List.length_pos_of_ne_nil fun hnil => by simp [hnil] at hlast
    exact ⟨0, hpos, Nat.zero_mod w, by simp, h, hzeros, hlast⟩

/-- After a unit that is completed, the next one counts anew. -/
theorem endsAtCap_append_iff (hcount : a.count true = w) (hlast : a.getLast? = some true) :
    EndsAtCap w K (a ++ c) ↔ EndsAtCap w K c := by
  constructor
  · rintro ⟨j, hj, hmod, hboundary, hones, hzeros, hlast'⟩
    rcases Nat.lt_or_ge j a.length with hja | hja
    · rw [List.take_append_of_le_length hja.le] at hmod
      rw [List.drop_append_of_le_length hja.le, List.count_append] at hones
      have hsplit : (a.take j).count true + (a.drop j).count true = w := by
        rw [← List.count_append, List.take_append_drop, hcount]
      have hmem : true ∈ a.drop j := by
        refine List.mem_of_getLast? ?_
        rwa [List.getLast?_drop, if_neg (Nat.not_le.mpr hja)]
      have hpos := List.count_pos_iff.mpr hmem
      rw [Nat.mod_eq_of_lt (by omega)] at hmod
      omega
    · obtain ⟨i, rfl⟩ := Nat.exists_eq_add_of_le hja
      rw [List.take_length_add_append] at hmod hboundary
      rw [List.drop_length_add_append] at hones hzeros hlast'
      rw [List.count_append, hcount, Nat.add_mod_left] at hmod
      rw [List.length_append] at hj
      refine ⟨i, by omega, hmod, fun h => hboundary ?_, hones, hzeros, hlast'⟩
      rw [List.getLast?_append, h]
      rfl
  · rintro ⟨j, hj, hmod, hboundary, hones, hzeros, hlast'⟩
    refine ⟨a.length + j, by rw [List.length_append]; omega, ?_, ?_, ?_⟩
    · rw [List.take_length_add_append, List.count_append, hcount, Nat.add_mod_left, hmod]
    · rw [List.take_length_add_append, List.getLast?_append, hlast]
      cases hj' : (c.take j).getLast? with
      | none => simp
      | some b => rwa [hj'] at hboundary
    · rw [List.drop_length_add_append]
      exact ⟨hones, hzeros, hlast'⟩

end

section
variable {v : Slot} {w p q : Nat}

/-- The last of p bits is not among fewer of them. -/
theorem count_bits_lt {b : Bool} (hqp : q < p) (hlast : (v.bits p).getLast? = some b) :
    (v.bits q).count b < (v.bits p).count b := by
  obtain ⟨k, rfl⟩ := Nat.exists_eq_add_of_lt hqp
  rw [bits_succ_eq_append (next?_of_getLast?_bits hlast), List.count_append, List.count_singleton_self,
    bits_add, List.count_append]
  omega

/-- Fewer bits have fewer of each value. -/
theorem count_bits_le (hqp : q ≤ p) (b : Bool) : (v.bits q).count b ≤ (v.bits p).count b := by
  rw [← Nat.add_sub_cancel' hqp, bits_add, List.count_append]
  exact Nat.le_add_right _ _

/-- A unit that is exhausted is so at the first pair at which its control reaches the cap. -/
theorem firstAtCap_of_count_lt {K : Nat} (hones : (v.bits p).count true < w)
    (hzeros : (v.bits p).count false = K) (hlast : (v.bits p).getLast? = some false) :
    v.FirstAtCap w K p := by
  refine ⟨(endsAtCap_iff_of_count_lt hones).mpr ⟨hzeros, hlast⟩, fun q hq hends => ?_⟩
  obtain ⟨hzeros', -⟩ :=
    (endsAtCap_iff_of_count_lt ((count_bits_le hq.le true).trans_lt hones)).mp hends
  have := count_bits_lt hq hlast
  omega

/-- The control gives the w ones of a unit in p draws, the last of them a 1, and fewer than K zeros. -/
structure Slot.Fills (v : Slot) (w K p : Nat) : Prop where
  ones : (v.bits p).count true = w
  last : (v.bits p).getLast? = some true
  zeros : (v.bits p).count false < K

/-- In a unit that is completed no pair reaches the cap. -/
theorem Slot.Fills.not_endsAtCap {K : Nat} (h : v.Fills w K p) (hqp : q ≤ p) :
    ¬EndsAtCap w K (v.bits q) := by
  intro hends
  rcases hqp.eq_or_lt with rfl | hlt
  · cases h.last.symm.trans (getLast?_of_endsAtCap hends)
  · have hones := count_bits_lt hlt h.last
    rw [h.ones] at hones
    obtain ⟨hzeros, -⟩ := (endsAtCap_iff_of_count_lt hones).mp hends
    have := count_bits_le (v := v) hqp false
    have := h.zeros
    omega

/-- After a unit that is completed, the cap is reached as by the slot drawn so far. -/
theorem Slot.Fills.endsAtCap_add_iff {K : Nat} (h : v.Fills w K p) (q : Nat) :
    EndsAtCap w K (v.bits (p + q)) ↔ EndsAtCap w K ((v.after p).bits q) := by
  rw [bits_add, endsAtCap_append_iff h.ones h.last]

/-- If the units after a completed one reach no cap within q pairs, then neither do all together. -/
theorem Slot.Fills.not_endsAtCap_add {K n : Nat} (h : v.Fills w K p)
    (hrest : ∀ q < n, ¬EndsAtCap w K ((v.after p).bits q)) (hq : q < p + n) :
    ¬EndsAtCap w K (v.bits q) := by
  rcases Nat.lt_or_ge q p with hlt | hge
  · exact h.not_endsAtCap hlt.le
  · obtain ⟨r, rfl⟩ := Nat.exists_eq_add_of_le hge
    rw [h.endsAtCap_add_iff]
    exact hrest r (by omega)

theorem Slot.Fills.firstAtCap_add {K : Nat} (h : v.Fills w K p)
    (hrest : (v.after p).FirstAtCap w K q) : v.FirstAtCap w K (p + q) :=
  ⟨(h.endsAtCap_add_iff q).mpr hrest.1, fun _ hr => h.not_endsAtCap_add hrest.2 hr⟩

end

/-! ### Units one after another under a cap (R184, R225, R252) -/

/-- What units from s on come to: the control gives the n ones that they need, and no pair reaches the
cap, or the run ends at the first pair that does. Only without a cap does it never end. -/
def Run.CapsAt {α : Type} (r : Run α) (cap : Option ℕ+) (s : State) (n : Nat) : Prop :=
  match r with
  | .done _ t => ∃ p, t = s.advance p p 0 ∧ (s.control.bits p).count true = n ∧
      ∀ K : ℕ+, cap = some K → ∀ q < p + 1, ¬EndsAtCap s.cmb.unitWidth (K : Nat) (s.control.bits q)
  | .exhausted t => ∃ (K : ℕ+) (p : Nat), cap = some K ∧ t = s.advance p p 0 ∧
      s.control.FirstAtCap s.cmb.unitWidth (K : Nat) p ∧ (s.control.bits p).count true < n
  | .endless => cap = none
  | .noSource => True

section
variable {cap : Option ℕ+} {s t : State} {n p : Nat}

theorem Run.CapsAt.bind_done {α β : Type} {r : Run α} (h : r.CapsAt cap s n) (f : α → β) :
    (r.bind fun a t => .done (f a) t).CapsAt cap s n := by
  cases r <;> exact h

/-- A completed unit comes before the others. -/
theorem Run.CapsAt.after_unit {α : Type} {r : Run α}
    (hones : (s.control.bits p).count true = s.cmb.unitWidth)
    (hfills : ∀ K : ℕ+, cap = some K → s.control.Fills s.cmb.unitWidth (K : Nat) p)
    (h : r.CapsAt cap (s.advance p p 0) n) : r.CapsAt cap s (n + s.cmb.unitWidth) := by
  cases r with
  | done a t =>
    obtain ⟨q, rfl, hn, hcap⟩ := h
    rw [control_advance] at hn hcap
    refine ⟨p + q, advance_advance s p p 0 q q 0, ?_, fun K hK r hr => ?_⟩
    · rw [bits_add, List.count_append, hones, hn, Nat.add_comm]
    · exact (hfills K hK).not_endsAtCap_add (hcap K hK) hr
  | exhausted t =>
    obtain ⟨K, q, hK, rfl, hfirst, hn⟩ := h
    rw [control_advance] at hfirst hn
    refine ⟨K, p + q, hK, advance_advance s p p 0 q q 0, (hfills K hK).firstAtCap_add hfirst, ?_⟩
    rw [bits_add, List.count_append, hones]
    omega
  | endless => exact h
  | noSource => trivial

theorem unitWidth_pos (hs : s.Shrinking) : 0 < s.cmb.unitWidth := by
  rcases hs with hc | hc <;> rw [hc] <;> decide

/-- A unit that has been completed. -/
theorem fills_of_counts {u : Word} (hs : s.Shrinking) (h : combinerUnit cap s = .done u t) :
    ∃ p, t = s.advance p p 0 ∧ (s.control.bits p).count true = s.cmb.unitWidth ∧
      ∀ K : ℕ+, cap = some K → s.control.Fills s.cmb.unitWidth (K : Nat) p := by
  have hcounts := combinerUnit_counts (cap := cap) hs
  rw [h] at hcounts
  obtain ⟨p, ht, hones, hlast, hzeros⟩ := hcounts
  have hp : p ≠ 0 := by
    rintro rfl
    exact (unitWidth_pos hs).ne hones
  refine ⟨p, ht, hones, fun K hK => ⟨hones, hlast.resolve_left hp, ?_⟩⟩
  exact (Nat.zero_add _).symm.trans_lt (hzeros K hK)

theorem combinerUnit_capsAt (hs : s.Shrinking) :
    (combinerUnit cap s).CapsAt cap s s.cmb.unitWidth := by
  have hcounts := combinerUnit_counts (cap := cap) hs
  cases h : combinerUnit cap s with
  | done u t =>
    obtain ⟨p, ht, hones, hfills⟩ := fills_of_counts hs h
    exact ⟨p, ht, hones, fun K hK q hq => (hfills K hK).not_endsAtCap (Nat.le_of_lt_succ hq)⟩
  | exhausted t =>
    rw [h] at hcounts
    obtain ⟨K, p, hK, ht, hones, hzeros, hlast⟩ := hcounts
    rw [Nat.zero_add] at hzeros
    exact ⟨K, p, hK, ht, firstAtCap_of_count_lt hones hzeros hlast, hones⟩
  | endless => rwa [h] at hcounts
  | noSource => trivial

theorem repeatUnit_capsAt (hs : s.Shrinking) (k : Nat) :
    (repeatUnit (combinerUnit cap) k s).CapsAt cap s (k * s.cmb.unitWidth) := by
  induction k generalizing s with
  | zero =>
    refine ⟨0, rfl, (Nat.zero_mul _).symm, fun K _ q hq => ?_⟩
    obtain rfl := Nat.lt_one_iff.mp hq
    exact not_endsAtCap_nil _ _
  | succ k ih =>
    have hunit := combinerUnit_capsAt (cap := cap) hs
    rw [repeatUnit_succ, Nat.succ_mul]
    cases h : combinerUnit cap s with
    | done u t =>
      obtain ⟨p, rfl, hones, hfills⟩ := fills_of_counts hs h
      exact ((ih (s := s.advance p p 0) hs).after_unit hones hfills).bind_done (u :: ·)
    | exhausted t =>
      rw [h] at hunit
      obtain ⟨K, p, hK, ht, hfirst, hones⟩ := hunit
      exact ⟨K, p, hK, ht, hfirst, Nat.lt_add_left _ hones⟩
    | endless => rwa [h] at hunit
    | noSource => trivial

end

/-! ### EXHAUSTED (R252) -/

section
variable {cap : Option ℕ+} {s t u : State} {d : Word}

theorem capStopsAt_iff {K n p : Nat} (hs : s.Shrinking) : s.CapStopsAt K n p ↔
    s.control.FirstAtCap s.cmb.unitWidth K p ∧ (s.control.bits p).count true < n := by
  rcases hs with hc | hc
  · rw [State.CapStopsAt, control_of_shrink hc, hc]
    simp [Cmb.unitWidth]
  · rw [State.CapStopsAt, control_of_sshrink hc, hc]
    simp [Cmb.unitWidth]

theorem shrinking_of_capStopsAt {K n p : Nat} (h : s.CapStopsAt K n p) : s.Shrinking :=
  h.imp And.left And.left

theorem capStopsAt_mono {K m n p : Nat} (h : s.CapStopsAt K m p) (hmn : m ≤ n) :
    s.CapStopsAt K n p := by
  have hs := shrinking_of_capStopsAt h
  obtain ⟨hfirst, hones⟩ := (capStopsAt_iff hs).mp h
  exact (capStopsAt_iff hs).mpr ⟨hfirst, hones.trans_le hmn⟩

/-- Units that end in EXHAUSTED are those of a shrinking combiner, under a cap that they reach. -/
theorem capStopsAt_of_exhausted {α : Type} {r : Run α} {Q : α → Prop} {n : Nat}
    (hcaps : s.Shrinking → r.CapsAt cap s n) (hgives : ¬s.Shrinking → r.Gives Q)
    (hr : r = .exhausted u) :
    ∃ (K : ℕ+) (p : Nat), cap = some K ∧ s.CapStopsAt (K : Nat) n p ∧ u = s.advance p p 0 := by
  subst hr
  by_cases hs : s.Shrinking
  · obtain ⟨K, p, hK, hu, hfirst, hones⟩ := hcaps hs
    exact ⟨K, p, hK, (capStopsAt_iff hs).mpr ⟨hfirst, hones⟩, hu⟩
  · exact (hgives hs).elim

/-- An EXHAUSTED response comes from a run that ends so. -/
theorem finish_eq_next_exhausted {α : Type} {i : Instr} {data : α → Word} {r : Run α}
    (h : finish i s data r = .next t) (hport : t.port = .resp ⟨5#4, d⟩) :
    d = 0#64 ∧ ∃ u, r = .exhausted u ∧ t = u.setPort (.resp ⟨5#4, 0#64⟩) := by
  cases r with
  | done a u => cases h; cases hport
  | exhausted u =>
    cases h
    cases hport
    exact ⟨rfl, u, rfl, rfl⟩
  | endless => cases h; cases hport
  | noSource => cases h

theorem code_eq_five_iff {st : Status} : st.code = 5#4 ↔ st = .exhausted := by
  cases st <;> decide

/-- No check raises EXHAUSTED in these rows, so it comes from the body. -/
theorem body_of_guarded_exhausted {cs : List (Bool × Status)} {body : State → Answer}
    (h : guarded cs s body = .next t) (hport : t.port = .resp ⟨5#4, d⟩)
    (hcs : ∀ c ∈ cs, c.2 ≠ .exhausted) : body s = .next t := by
  rcases guarded_cases cs s body with ⟨st, hst, hraise⟩ | ⟨-, hrun⟩
  · rw [hraise] at h
    cases h
    obtain ⟨hcode, -⟩ := Response.mk.inj (Port.resp.inj hport)
    exact absurd (code_eq_five_iff.mp hcode) (hcs _ (mem_of_firstFailing hst))
  · exact hrun ▸ h

theorem cmbNextUnder_eq_exhausted (h : cmbNextUnder cap s = .next t)
    (hport : t.port = .resp ⟨5#4, d⟩) : d = 0#64 ∧ ∃ (K : ℕ+) (p : Nat), cap = some K ∧
      s.CapStopsAt (K : Nat) s.cmb.unitWidth p ∧ t = (s.advance p p 0).setPort (.resp ⟨5#4, 0#64⟩) := by
  have hfinish := body_of_guarded_exhausted h hport (by simp [checksCmbNext])
  obtain ⟨hd, u, hrun, rfl⟩ := finish_eq_next_exhausted hfinish hport
  obtain ⟨K, p, hK, hstops, rfl⟩ :=
    capStopsAt_of_exhausted combinerUnit_capsAt (combinerUnit_gives cap) hrun
  exact ⟨hd, K, p, hK, hstops, rfl⟩

theorem cmbGetnUnder_eq_exhausted {n : BitVec 7} (h : cmbGetnUnder cap n s = .next t)
    (hport : t.port = .resp ⟨5#4, d⟩) : d = 0#64 ∧ ∃ (K : ℕ+) (p : Nat), cap = some K ∧
      s.CapStopsAt (K : Nat) n.toNat p ∧ t = (s.advance p p 0).setPort (.resp ⟨5#4, 0#64⟩) := by
  have hfinish := body_of_guarded_exhausted h hport (by simp [checksCmbGetn])
  obtain ⟨hd, u, hrun, rfl⟩ := finish_eq_next_exhausted hfinish hport
  obtain ⟨K, p, hK, hstops, rfl⟩ := capStopsAt_of_exhausted (fun hs => repeatUnit_capsAt hs _)
    (repeatUnit_gives cap _) hrun
  exact ⟨hd, K, p, hK, capStopsAt_mono hstops (Nat.div_mul_le_self _ _), rfl⟩

theorem unitReady_of_shrinking (hs : s.Shrinking) (h0 : s.s0 ≠ .empty) (h1 : s.s1 ≠ .empty) :
    s.UnitReady := by
  rcases hs with hc | hc
  · exact ⟨by rw [hc]; decide, by simp [State.Drawable, hc, Cmb.ownedSlots, h0, h1]⟩
  · exact ⟨by rw [hc]; decide, by simp [State.Drawable, hc, Cmb.ownedSlots, h0, h1]⟩

/-- R184: the units asked for come to the pair at which one of them reaches the cap, and end there. -/
theorem repeatUnit_exhausted_of_capStopsAt {K : ℕ+} {k p : Nat} (h0 : s.s0 ≠ .empty)
    (h1 : s.s1 ≠ .empty) (hstops : s.CapStopsAt (K : Nat) (k * s.cmb.unitWidth) p) :
    repeatUnit (combinerUnit (some K)) k s = .exhausted (s.advance p p 0) := by
  have hs := shrinking_of_capStopsAt hstops
  obtain ⟨hfirst, hones⟩ := (capStopsAt_iff hs).mp hstops
  have hcaps := repeatUnit_capsAt (cap := some K) hs k
  cases hrun : repeatUnit (combinerUnit (some K)) k s with
  | done us t =>
    rw [hrun] at hcaps
    obtain ⟨q, -, hcount, hnot⟩ := hcaps
    rcases Nat.lt_or_ge p (q + 1) with hpq | hqp
    · exact absurd hfirst.1 (hnot K rfl p hpq)
    · have := count_bits_le (v := s.control) (Nat.le_of_succ_le hqp) true
      omega
  | exhausted t =>
    rw [hrun] at hcaps
    obtain ⟨K', q, hK, rfl, hfirst', -⟩ := hcaps
    cases hK
    rw [firstAtCap_unique hfirst hfirst']
  | endless => rw [hrun] at hcaps; cases hcaps
  | noSource =>
    exact absurd hrun (repeat_combinerUnit_ne_noSource _ k (unitReady_of_shrinking hs h0 h1))

theorem cmbGetnUnder_of_capStopsAt {K : ℕ+} {n : BitVec 7} {p : Nat} (h0 : s.s0 ≠ .empty)
    (h1 : s.s1 ≠ .empty) (hn : n.toNat % s.cmb.unitWidth = 0)
    (hstops : s.CapStopsAt (K : Nat) n.toNat p) :
    cmbGetnUnder (some K) n s = answered 5#4 0#64 (s.advance p p 0) := by
  rw [← Nat.div_mul_cancel (Nat.dvd_of_mod_eq_zero hn)] at hstops
  rw [cmbGetnUnder_of_multiple _ (shrinking_of_capStopsAt hstops) hn,
    repeatUnit_exhausted_of_capStopsAt h0 h1 hstops]
  rfl

end

/-- Settles O54: an exhausted run reaches the cap at the pair where its control does, and a run whose
control does so ends there. -/
theorem exhaustedKeepsTheDraws : Obligations.ExhaustedKeepsTheDraws := by
  refine ⟨fun cap s t d n hport h => ?_, fun s K n p h0 h1 heven hstops =>
    cmbGetnUnder_of_capStopsAt h0 h1 ?_ hstops⟩
  · rcases h with ⟨h, rfl⟩ | ⟨m, h, rfl⟩
    · exact cmbNextUnder_eq_exhausted h hport
    · exact cmbGetnUnder_eq_exhausted h hport
  · rcases shrinking_of_capStopsAt hstops with hc | hc
    · rw [hc]
      exact Nat.mod_one _
    · rw [hc]
      exact heven hc

/-! ### Everything a command can complete with (R250, R253, R254) -/

/-- The commands that run units of the bound combiner. -/
def RunsUnits (i : Instr) : Prop := i = .cmbNext ∨ ∃ n, i = .cmbGetn n

/-- How the command i, begun in s, completes: its first failing check is raised, or none fails and it
returns its bits with OK, is EXHAUSTED, or never ends. -/
inductive Completion (i : Instr) (s : State) : State → Prop where
  | refused {st : Status} (hst : firstFailing (rowChecks i s) = some st) : Completion i s (raise st s)
  | ok {d : Word} (u : State) (hpass : firstFailing (rowChecks i s) = none)
      (hd : Packed (returnedBits i s) d) : Completion i s (respond .ok d u)
  | exhausted (u : State) (hpass : firstFailing (rowChecks i s) = none) (hi : RunsUnits i) :
      Completion i s (raise .exhausted u)
  | hung (hpass : firstFailing (rowChecks i s) = none) (hi : RunsUnits i) (hs : s.Shrinking)
      (hcap : Config.retryCap = none) : Completion i s (s.setPort (.busy (Command.ofInstr i)))

section
variable {i : Instr} {s t : State}

/-- A command that only writes returns no bits. -/
theorem completion_of_respond {f : State → State}
    (h : guarded (rowChecks i s) s (fun s => .next (respond .ok 0#64 (f s))) = .next t)
    (hbits : returnedBits i s = 0) : Completion i s t := by
  rcases guarded_cases (rowChecks i s) s fun s => .next (respond .ok 0#64 (f s)) with
    ⟨st, hst, hraise⟩ | ⟨hpass, hrun⟩
  · cases hraise.symm.trans h
    exact .refused hst
  · cases hrun.symm.trans h
    exact .ok (f s) hpass (hbits ▸ packed_zero)

/-- What a run may come to, if it is the one of the command i begun in s. -/
def Run.Allowed {α : Type} (r : Run α) (i : Instr) (s : State) (data : α → Word) : Prop :=
  match r with
  | .done a _ => Packed (returnedBits i s) (data a)
  | .exhausted _ => RunsUnits i
  | .endless => RunsUnits i ∧ s.Shrinking ∧ Config.retryCap = none
  | .noSource => True

theorem Run.Gives.allowed {α : Type} {r : Run α} {data : α → Word}
    (h : r.Gives fun a => Packed (returnedBits i s) (data a)) : r.Allowed i s data := by
  cases r with
  | done a u => exact h
  | exhausted u => exact h.elim
  | endless => exact h.elim
  | noSource => trivial

/-- A command that draws completes as its run ends. -/
theorem completion_of_finish {α : Type} {data : State → α → Word} {run : State → Run α}
    (h : guarded (rowChecks i s) s (fun s => finish i s (data s) (run s)) = .next t)
    (hrun : firstFailing (rowChecks i s) = none → (run s).Allowed i s (data s)) : Completion i s t := by
  rcases guarded_cases (rowChecks i s) s fun s => finish i s (data s) (run s) with
    ⟨st, hst, hraise⟩ | ⟨hpass, hbody⟩
  · cases hraise.symm.trans h
    exact .refused hst
  · have hend := hbody.symm.trans h
    have hallowed := hrun hpass
    cases hr : run s with
    | done a u =>
      rw [hr] at hend hallowed
      cases hend
      exact .ok u hpass hallowed
    | exhausted u =>
      rw [hr] at hend hallowed
      cases hend
      exact .exhausted u hpass hallowed
    | endless =>
      rw [hr] at hend hallowed
      cases hend
      obtain ⟨hi, hs, hcap⟩ := hallowed
      exact .hung hpass hi hs hcap
    | noSource => rw [hr] at hend; cases hend

/-- The units of a combiner command return the bits asked for, and hang only without a cap. -/
theorem allowed_of_units {α : Type} {r : Run α} {data : α → Word} {m : Nat} (hi : RunsUnits i)
    (hgives : ¬s.Shrinking → r.Gives fun a => Packed (returnedBits i s) (data a))
    (hcaps : s.Shrinking → r.CapsAt Config.retryCap s m)
    (hdone : ∀ a u, s.Shrinking → r = .done a u → s.Yields (returnedBits i s) (data a) u) :
    r.Allowed i s data := by
  by_cases hs : s.Shrinking
  · cases r with
    | done a u => exact (hdone a u hs rfl).packed
    | exhausted u => exact hi
    | endless => exact ⟨hi, hs, hcaps hs⟩
    | noSource => trivial
  · exact (hgives hs).allowed

/-- R224. -/
theorem cmbNext_allowed (s : State) :
    (combinerUnit Config.retryCap s).Allowed .cmbNext s id :=
  allowed_of_units (.inl rfl) (combinerUnit_gives _) combinerUnit_capsAt
    fun _ _ hs h => combinerUnit_yields hs h

/-- R225: the units of width w make n bits, since n is a multiple of w. -/
theorem cmbGetn_allowed {n : BitVec 7} (hpass : firstFailing (checksCmbGetn s n) = none) :
    (repeatUnit (combinerUnit Config.retryCap) (n.toNat / s.cmb.unitWidth) s).Allowed (.cmbGetn n) s
      (pack s.cmb.unitWidth) := by
  have hmod : n.toNat % s.cmb.unitWidth = 0 := by
    simpa using (firstFailing_eq_none_iff _).mp hpass (n.toNat % s.cmb.unitWidth ≠ 0, .illegalCommand)
      (by simp [checksCmbGetn])
  have hn : returnedBits (.cmbGetn n) s = n.toNat / s.cmb.unitWidth * s.cmb.unitWidth :=
    (Nat.div_mul_cancel (Nat.dvd_of_mod_eq_zero hmod)).symm
  refine allowed_of_units (.inr ⟨n, rfl⟩) ?_ (fun hs => repeatUnit_capsAt hs _) ?_
  · rw [hn]
    exact repeatUnit_gives _ _
  · rw [hn]
    exact fun _ _ hs h => repeatUnit_yields hs h

/-- R223: as many bits as draws. -/
theorem srcGetn_gives {k : SlotId} {n : BitVec 7} (hk : s.slot k ≠ .empty) :
    (repeatUnit (drawUnit k) n.toNat s).Gives fun us => Packed n.toNat (pack 1 us) := by
  rw [repeatUnit_of_drawUnit hk]
  exact ⟨_, length_bits hk n.toNat, rfl⟩

/-- R160: the bits drawn are latched and not returned. -/
theorem bindStopgo_draws_give (s : State) :
    ((draw .s0 s).bind fun b1 t1 => (draw .s1 t1).bind fun b2 t2 =>
      (draw .s2 t2).bind fun b3 t3 => .done () (t3.setCmb (.stopgo b1 b2 b3))).Gives
      fun _ => Packed 0 0#64 :=
  draw_bind_gives fun _ _ => draw_bind_gives fun _ _ => draw_bind_gives fun _ _ => packed_zero

/-- Everything a command can complete with. -/
theorem completion_of_exec (h : exec i s = .next t) : Completion i s t := by
  unfold exec execCmbNext execCmbGetn execGeffeNextAlt at h
  cases i with
  | cfgFib k len taps seed => exact completion_of_respond h rfl
  | cfgGal k poly state => exact completion_of_respond h rfl
  | srcNext k => exact completion_of_finish h fun _ => (drawUnit_gives k s).allowed
  | srcGetn k n =>
    exact completion_of_finish h fun hpass => (srcGetn_gives (ne_empty_of_checksSource hpass)).allowed
  | bindGeffe => exact completion_of_respond h rfl
  | bindStopgo => exact completion_of_finish h fun _ => (bindStopgo_draws_give s).allowed
  | bindShrink => exact completion_of_respond h rfl
  | bindSshrink => exact completion_of_respond h rfl
  | cmbNext => exact completion_of_finish h fun _ => cmbNext_allowed s
  | cmbGetn n => exact completion_of_finish h cmbGetn_allowed
  | geffeNextAlt => exact completion_of_finish h fun _ => (drawThree_gives _ s).allowed
  | release => exact completion_of_respond h rfl

end

/-- Settles O15, completion by completion. -/
theorem dataIsOnlyTheReturnedBits : Obligations.DataIsOnlyTheReturnedBits := by
  intro i s t st d h hport
  cases completion_of_exec h with
  | refused hst =>
    cases hport
    exact ⟨fun _ => rfl, fun _ => Nat.two_pow_pos _⟩
  | ok u hpass hd =>
    cases hport
    exact ⟨fun hne => absurd rfl hne, fun _ => hd.toNat_lt⟩
  | exhausted u hpass hi =>
    cases hport
    exact ⟨fun _ => rfl, fun _ => Nat.two_pow_pos _⟩
  | hung => cases hport

/-- R250: the table lists the status of every check of a row, and OK, for the command of the row. -/
theorem ok_and_row_possible (i : Instr) (s : State) : 0#4 ∈ possibleStatuses i ∧
    ∀ c ∈ rowChecks i s, c.2.code ∈ possibleStatuses i := by
  cases i <;> simp [possibleStatuses, rowChecks, checksCfgFib, checksCfgGal, checksSource, checksBind3,
    checksBindShrink, checksBindSshrink, checksCmbNext, checksCmbGetn, checksGeffeNextAlt, checksRelease,
    Status.code]

theorem exhausted_possible {i : Instr} (hi : RunsUnits i) : 5#4 ∈ possibleStatuses i := by
  rcases hi with rfl | ⟨n, rfl⟩
  · decide
  · simp [possibleStatuses]

/-- Settles O16, completion by completion. -/
theorem everyCommandLeavesOneAllowedResponse : Obligations.EveryCommandLeavesOneAllowedResponse := by
  intro i s t h
  obtain ⟨hok, hrow⟩ := ok_and_row_possible i s
  cases completion_of_exec h with
  | refused hst => exact .inl ⟨_, _, rfl, hrow _ (mem_of_firstFailing hst)⟩
  | ok u hpass hd => exact .inl ⟨_, _, rfl, hok⟩
  | exhausted u hpass hi => exact .inl ⟨_, _, rfl, exhausted_possible hi⟩
  | hung hpass hi hs hcap => exact .inr ⟨rfl, hcap, hs, hi⟩

/-- R77: a command that does not decode is answered, and nothing else changes. -/
theorem runCommand_of_decode_error {c : Command} {e : DecodeError} (hc : c.complete = true)
    (h : decodeCommand c = .error e) (s : State) : runCommand c s = answered 1#4 0#64 s := by
  rw [runCommand, if_pos hc, h]
  rfl

theorem code_le_five (st : Status) : st.code.toNat ≤ 5 := by
  cases st <;> decide

/-- Settles O17: a status that is neither OK nor EXHAUSTED is a failing check's, and it is defined. -/
theorem errorsArePrecise : Obligations.ErrorsArePrecise := by
  refine ⟨fun s c e hport hc hdecode hr => ?_, fun i s t st d h hport hok hexhausted => ?_⟩
  · rw [step_of_busy hr hport, runCommand_of_decode_error hc hdecode]
    rfl
  · cases completion_of_exec h with
    | refused hst =>
      cases hport
      exact ⟨rfl, fun cs ts rs => step_of_resp_of_take_defined rfl rfl (code_le_five _) rfl⟩
    | ok u hpass hd =>
      cases hport
      exact absurd rfl hok
    | exhausted u hpass hi =>
      cases hport
      exact absurd rfl hexhausted
    | hung => cases hport

/-- Settles O18: the row of checks is R254's, and when it passes no check is left to be reported. -/
theorem firstFailingCheckIsReported : Obligations.FirstFailingCheckIsReported := by
  intro i s
  rw [← map_code_firstFailing_rowChecks]
  refine ⟨fun st hst => ?_, fun hnone t st d h hport => ?_⟩
  · obtain ⟨st', hfirst, rfl⟩ := Option.map_eq_some_iff.mp hst
    exact exec_of_failing hfirst
  · cases completion_of_exec h with
    | refused hst =>
      rw [hst] at hnone
      cases hnone
    | ok u hpass hd =>
      cases hport
      exact .inl rfl
    | exhausted u hpass hi =>
      cases hport
      exact .inr rfl
    | hung => cases hport

/-! ### A control that gives only zeros (R182, R203, R259) -/

section
variable {s : State} {i : Instr}

/-- Without a cap the first unit never ends. -/
theorem combinerUnit_none_of_zero_control {m : BitVec 7} {P : Word} (hs : s.Shrinking)
    (hcontrol : s.control = .gal m P 0#64) (hdata : s.data ≠ .empty) :
    combinerUnit none s = .endless := by
  rcases hs with hc | hc
  · rw [control_of_shrink hc] at hcontrol
    rw [data_of_shrink hc] at hdata
    rw [combinerUnit_of_shrink hc]
    exact shrinkLoop_endless hdata (by rw [hcontrol, bits_gal_zero])
  · rw [control_of_sshrink hc] at hcontrol
    rw [data_of_sshrink hc] at hdata
    rw [combinerUnit_of_sshrink hc]
    exact selfShrinkLoop_endless hdata (by rw [hcontrol]; nofun) (by simp [hcontrol, bits_gal_zero])

/-- R184: under a cap of K it is exhausted by K pairs. -/
theorem combinerUnit_some_of_zero_control {m : BitVec 7} {P : Word} (K : ℕ+) (hs : s.Shrinking)
    (hcontrol : s.control = .gal m P 0#64) (hdata : s.data ≠ .empty) :
    combinerUnit (some K) s = .exhausted (s.advance K K 0) := by
  have hfuel (ones : Nat) : (K : Nat) ≤ pairBound (some K) ones := Nat.le_add_right _ _
  rcases hs with hc | hc
  · rw [control_of_shrink hc] at hcontrol
    rw [data_of_shrink hc] at hdata
    rw [combinerUnit_of_shrink hc]
    exact shrinkLoop_exhausted hdata (by rw [hcontrol, bits_gal_zero]) (hfuel 1)
  · rw [control_of_sshrink hc] at hcontrol
    rw [data_of_sshrink hc] at hdata
    rw [combinerUnit_of_sshrink hc]
    have hbits : s.s1.bits (K : Nat) = List.replicate (K : Nat) false := by rw [hcontrol, bits_gal_zero]
    exact selfShrinkLoop_exhausted hdata (by simp [hbits, List.count_replicate])
      (by simp [hbits]) (by simp [hbits, List.getLast?_replicate]) (hfuel 2)

/-- The command asks the shrinking combiner for one unit or more. -/
def AsksForUnits (i : Instr) (s : State) : Prop :=
  i = .cmbNext ∨ ∃ n, i = .cmbGetn n ∧ s.cmb.unitWidth ≤ n.toNat ∧ n.toNat ≤ 64 ∧
    n.toNat % s.cmb.unitWidth = 0

/-- A command that asks for units has an encoding, so PORT can hold it. -/
theorem wf_of_asksForUnits (hi : AsksForUnits i s) : i.wf = true := by
  rcases hi with rfl | ⟨n, rfl, -, hmax, -⟩
  · rfl
  · exact decide_eq_true hmax

/-- R182, R184: a first unit that does not complete decides the command. -/
theorem exec_of_unit_not_done (hs : s.Shrinking) (hi : AsksForUnits i s)
    (hunit : ∀ u t, combinerUnit Config.retryCap s ≠ .done u t) :
    exec i s = finish i s id (combinerUnit Config.retryCap s) := by
  rcases hi with rfl | ⟨n, rfl, hpos, -, hmod⟩
  · have hpass : firstFailing (checksCmbNext s) = none := by
      rcases hs with hc | hc <;> rw [checksCmbNext, hc] <;> rfl
    rw [exec_cmbNext, cmbNextUnder, guarded_of_none hpass]
  · obtain ⟨k, hk⟩ := Nat.exists_eq_succ_of_ne_zero (Nat.div_pos hpos (unitWidth_pos hs)).ne'
    rw [exec_cmbGetn, cmbGetnUnder_of_multiple _ hs hmod, hk, repeatUnit_succ]
    cases h : combinerUnit Config.retryCap s with
    | done u t => exact absurd h (hunit u t)
    | exhausted t => rfl
    | endless => rfl
    | noSource => rfl

theorem decodeCommand_ofInstr (h : i.wf = true) : decodeCommand (Command.ofInstr i) = .ok i := by
  obtain ⟨op, k, n, operands, hwords, -⟩ := encode_eq_cons h
  have hdecode := decodeOfEncodeIsTheInstruction i [] h
  rw [List.append_nil, hwords] at hdecode
  simp only [decodeCommand, Command.ofInstr, hwords, hdecode]

/-- R51, R56: in BUSY with an encoded command the step runs it. -/
theorem step_of_busy_ofInstr (h : i.wf = true) (hr : s.NoReset)
    (hport : s.port = .busy (Command.ofInstr i)) : step s = exec i s.tick := by
  rw [step_of_busy hr hport, runCommand_of_decodeCommand (decodeCommand_ofInstr h)]

theorem setPort_self {p : Port} (h : s.port = p) : s.setPort p = s := by
  subst h
  rfl

end

/-- Settles O55: the first unit hangs or is exhausted by the cap, and reset wins over it. -/
theorem hungCommandStaysBusyUntilReset : Obligations.HungCommandStaysBusyUntilReset := by
  intro s i m P hport hr h
  obtain ⟨hs, hcontrol, hdata, hi⟩ : s.Shrinking ∧ s.control = .gal m P 0#64 ∧ s.data ≠ .empty ∧
      AsksForUnits i s := by
    rcases h with ⟨hc, h0, h1, hi⟩ | ⟨hc, h1, h0, hi⟩
    · rw [control_of_shrink hc, data_of_shrink hc, AsksForUnits, hc]
      exact ⟨.inl hc, h0, h1,
        hi.imp_right fun ⟨n, hn, hpos, hmax⟩ => ⟨n, hn, hpos, hmax, Nat.mod_one _⟩⟩
    · rw [control_of_sshrink hc, data_of_sshrink hc, AsksForUnits, hc]
      exact ⟨.inr hc, h1, h0, hi⟩
  refine ⟨?_, fun cs ts rs => step_of_reset rfl⟩
  have hexec := exec_of_unit_not_done (s := s.tick) hs hi
  rw [step_of_busy_ofInstr (wf_of_asksForUnits hi) hr hport]
  cases hcap : Config.retryCap with
  | none =>
    have hunit := combinerUnit_none_of_zero_control (s := s.tick) hs hcontrol hdata
    rw [hcap, hunit] at hexec
    rw [hexec (by simp), finish_endless, setPort_self (s := s.tick) hport, State.tick]
  | some K =>
    have hunit := combinerUnit_some_of_zero_control (s := s.tick) K hs hcontrol hdata
    rw [hcap, hunit] at hexec
    rw [hexec (by simp), finish_exhausted]
    rfl

end Sys2Proof.Machine
end

section
/-! PROOFS of the family 70_reset_and_hazards.md: reset, and the free slot of the shrinking combiners.
A write that a command neither reads nor overwrites commutes with the command. -/

namespace Sys2Proof.Machine

/-- Settles O13: reset wins in every state of PORT, and the host's side goes on by one step. -/
theorem resetWinsInEveryPortState : Obligations.ResetWinsInEveryPortState := by
  intro s rs h
  have hreset : s.host.resetAsserted = true := by rw [HostSide.resetAsserted, h]; rfl
  rw [step_of_reset hreset, applyReset, tick_host, HostSide.tick, h]
  rfl

/-! ### Runs and a write of S2 -/

/-- A write made before the run comes to the same as one made to the state the run ends in. `RunBlind`
is this for the writes of the ports; here the write is any one. -/
def RunCommutes {α : Type} (f : State → State) (run : State → Run α) : Prop :=
  ∀ s, run (f s) = (run s).mapState f

section
variable {α β : Type} {f : State → State}

/-- The second part of a composed run has to commute only in the states the first can end in. -/
theorem bind_mapState {r : Run α} {g : α → State → Run β} {P : State → Prop} (hr : r.Ends P)
    (hg : ∀ a t, P t → g a (f t) = (g a t).mapState f) :
    (r.mapState f).bind g = (r.bind g).mapState f := by
  cases r with
  | done a t => exact hg a t hr
  | exhausted t => rfl
  | endless => rfl
  | noSource => rfl

theorem RunCommutes.bind {run : State → Run α} {g : α → State → Run β} (hrun : RunCommutes f run)
    (hg : ∀ a, RunCommutes f (g a)) : RunCommutes f fun s => (run s).bind g := by
  intro s
  simp only [hrun s]
  exact bind_mapState (ends_of_forall (Q := fun _ => True) fun _ => trivial) fun a t _ => hg a t

theorem RunCommutes.ite {c : Prop} [Decidable c] {run run' : State → Run α} (h : RunCommutes f run)
    (h' : RunCommutes f run') : RunCommutes f fun s => if c then run s else run' s := by
  by_cases hc : c
  · simpa only [if_pos hc] using h
  · simpa only [if_neg hc] using h'

theorem runCommutes_done (a : α) : RunCommutes f fun s => .done a s := fun _ => rfl

theorem runCommutes_exhausted : RunCommutes f fun s => (.exhausted s : Run α) := fun _ => rfl

theorem runCommutes_endless : RunCommutes f fun _ => (.endless : Run α) := fun _ => rfl

end

theorem setSlot_comm (s : State) {k k' : SlotId} (h : k ≠ k') (v w : Slot) :
    (s.setSlot k v).setSlot k' w = (s.setSlot k' w).setSlot k v := by
  cases k <;> cases k' <;> simp at h <;> rfl

/-- A draw does not reach the other slots (R220). -/
theorem runCommutes_draw_setSlot {k k' : SlotId} (h : k ≠ k') (v : Slot) :
    RunCommutes (fun s => s.setSlot k' v) (draw k) := by
  intro s
  unfold draw
  rw [slot_setSlot_other s v h]
  cases (s.slot k).step with
  | none => rfl
  | some p => exact congrArg (Run.done p.1) (setSlot_comm s h.symm v p.2)

section
variable {f : State → State} (h0 : RunCommutes f (draw .s0)) (h1 : RunCommutes f (draw .s1))
include h0 h1

/-- A shrinking unit reads and writes by draws from S0 and S1 alone (R181). -/
theorem runCommutes_shrinkLoop (cap : Option ℕ+) (fuel z : Nat) :
    RunCommutes f (shrinkLoop cap fuel z) := by
  induction fuel generalizing z with
  | zero => exact runCommutes_endless
  | succ fuel ih =>
    exact h0.bind fun b1 => h1.bind fun b2 =>
      (runCommutes_done _).ite (runCommutes_exhausted.ite (ih (z + 1)))

/-- So does a self-shrinking unit (R201). -/
theorem runCommutes_selfShrinkLoop (cap : Option ℕ+) (fuel left z : Nat) (acc : Word) :
    RunCommutes f (selfShrinkLoop cap fuel left z acc) := by
  induction fuel generalizing left z acc with
  | zero =>
    cases left with
    | zero => exact runCommutes_done acc
    | succ pos => exact runCommutes_endless
  | succ fuel ih =>
    cases left with
    | zero => exact runCommutes_done acc
    | succ pos =>
      exact h0.bind fun d => h1.bind fun c =>
        (ih pos z _).ite (runCommutes_exhausted.ite (ih (pos + 1) (z + 1) acc))

end

section
variable {s : State}

/-- R27: no unit of SHRINK or SSHRINK reads or writes S2. -/
theorem combinerUnit_setSlot_s2 (cap : Option ℕ+) (hs : s.Shrinking) (v : Slot) :
    combinerUnit cap (s.setSlot .s2 v) = (combinerUnit cap s).mapState (·.setSlot .s2 v) := by
  have h0 := runCommutes_draw_setSlot (k := .s0) (k' := .s2) (by decide) v
  have h1 := runCommutes_draw_setSlot (k := .s1) (k' := .s2) (by decide) v
  rcases hs with hc | hc
  · rw [combinerUnit_of_shrink (s := s.setSlot .s2 v) hc, combinerUnit_of_shrink hc]
    exact runCommutes_shrinkLoop h0 h1 cap _ 0 s
  · rw [combinerUnit_of_sshrink (s := s.setSlot .s2 v) hc, combinerUnit_of_sshrink hc]
    exact runCommutes_selfShrinkLoop h0 h1 cap _ 2 0 _ s

/-- A unit leaves a shrinking combiner bound (R26). -/
theorem combinerUnit_ends_shrinking (cap : Option ℕ+) (hs : s.Shrinking) :
    (combinerUnit cap s).Ends State.Shrinking := by
  refine (combinerUnit_ends cap s).mono fun t ht => ?_
  have hcmb : t.cmb = s.cmb := ht.cmb.2 (by rcases hs with hc | hc <;> rw [hc] <;> decide)
  rwa [State.Shrinking, hcmb]

theorem repeatUnit_setSlot_s2 (cap : Option ℕ+) (hs : s.Shrinking) (v : Slot) (j : Nat) :
    repeatUnit (combinerUnit cap) j (s.setSlot .s2 v) =
      (repeatUnit (combinerUnit cap) j s).mapState (·.setSlot .s2 v) := by
  induction j generalizing s with
  | zero => rfl
  | succ j ih =>
    rw [repeatUnit_succ, repeatUnit_succ, combinerUnit_setSlot_s2 cap hs v]
    refine bind_mapState (combinerUnit_ends_shrinking cap hs) fun u t ht => ?_
    rw [ih ht]
    exact bind_mapState (ends_of_forall (Q := fun _ => True) fun _ => trivial) fun _ _ _ => rfl

/-! ### The combiner's commands -/

/-- The end of a command writes only PORT, so a write to a slot commutes with it. -/
theorem finish_setSlot {α : Type} (i : Instr) (data : α → Word) (r : Run α) (k : SlotId) (v : Slot) :
    finish i (s.setSlot k v) data (r.mapState (·.setSlot k v)) =
      mapAnswer (·.setSlot k v) (finish i s data r) := by
  cases r with
  | done a t => exact congrArg Host.Outcome.next (setSlot_setPort t k v _).symm
  | exhausted t => exact congrArg Host.Outcome.next (setSlot_setPort t k v _).symm
  | endless => exact congrArg Host.Outcome.next (setSlot_setPort s k v _).symm
  | noSource => rfl

/-- A raised status writes only PORT, and the body decides about the rest. -/
theorem guarded_setSlot {cs : List (Bool × Status)} {body : State → Answer} {k : SlotId} {v : Slot}
    (hbody : body (s.setSlot k v) = mapAnswer (·.setSlot k v) (body s)) :
    guarded cs (s.setSlot k v) body = mapAnswer (·.setSlot k v) (guarded cs s body) := by
  cases hf : firstFailing cs with
  | some st =>
    rw [guarded_of_some hf, guarded_of_some hf]
    exact congrArg Host.Outcome.next (setSlot_setPort s k v _).symm
  | none => rwa [guarded_of_none hf, guarded_of_none hf]

theorem cmbNextUnder_setSlot_s2 (cap : Option ℕ+) (hs : s.Shrinking) (v : Slot) :
    cmbNextUnder cap (s.setSlot .s2 v) = mapAnswer (·.setSlot .s2 v) (cmbNextUnder cap s) := by
  refine guarded_setSlot ?_
  rw [combinerUnit_setSlot_s2 cap hs, finish_setSlot]

theorem cmbGetnUnder_setSlot_s2 (cap : Option ℕ+) (n : BitVec 7) (hs : s.Shrinking) (v : Slot) :
    cmbGetnUnder cap n (s.setSlot .s2 v) = mapAnswer (·.setSlot .s2 v) (cmbGetnUnder cap n s) := by
  refine guarded_setSlot ?_
  rw [setSlot_cmb, repeatUnit_setSlot_s2 cap hs, finish_setSlot]

/-! ### The commands of a slot that is not owned -/

/-- The commands that name slot k (R76). -/
def NamesSlot (k : SlotId) (i : Instr) : Prop :=
  (∃ len taps seed, i = .cfgFib k len taps seed) ∨ (∃ poly state, i = .cfgGal k poly state) ∨
    i = .srcNext k ∨ ∃ n, i = .srcGetn k n

theorem answered_setCmb_restore (st : BitVec 4) (d : Word) (s : State) (c : Cmb) :
    mapAnswer (·.setCmb s.cmb) (answered st d (s.setCmb c)) = answered st d s := rfl

theorem answered_setSlot_setCmb_restore (st : BitVec 4) (d : Word) (s : State) (c : Cmb) (k : SlotId)
    (v : Slot) : mapAnswer (·.setCmb s.cmb) (answered st d ((s.setCmb c).setSlot k v)) =
      answered st d (s.setSlot k v) := by
  cases k <;> rfl

/-- R27: of the combiner a slot command reads only whether it owns the slot, and it writes nothing
there. So under any two combiners that leave the slot free it does the same. -/
theorem exec_setCmb_of_free {k : SlotId} {c : Cmb} {i : Instr} (hi : NamesSlot k i)
    (hfree : s.owned k = false) (hfree' : (s.setCmb c).owned k = false) :
    exec i s = mapAnswer (·.setCmb s.cmb) (exec i (s.setCmb c)) := by
  have hgetn (n : BitVec 7) :
      exec (.srcGetn k n) s = mapAnswer (·.setCmb s.cmb) (exec (.srcGetn k n) (s.setCmb c)) := by
    rw [exec_srcGetn, exec_srcGetn, hfree, hfree', slot_setCmb, if_neg Bool.false_ne_true,
      if_neg Bool.false_ne_true]
    split_ifs
    · rw [answered_setCmb_restore]
    · rw [answered_setSlot_setCmb_restore]
  rcases hi with ⟨len, taps, seed, rfl⟩ | ⟨poly, state, rfl⟩ | rfl | ⟨n, rfl⟩
  · have hchecks : checksCfgFib (s.setCmb c) k len taps seed = checksCfgFib s k len taps seed := by
      rw [checksCfgFib, checksCfgFib, hfree, hfree']
    cases hf : firstFailing (checksCfgFib s k len taps seed) with
    | some st =>
      rw [exec_cfgFib_of_failing hf, exec_cfgFib_of_failing (hchecks ▸ hf),
        answered_setCmb_restore]
    | none =>
      rw [exec_cfgFib_of_passing hf, exec_cfgFib_of_passing (hchecks ▸ hf),
        answered_setSlot_setCmb_restore]
  · rw [exec_cfgGal, exec_cfgGal, hfree, hfree', if_neg Bool.false_ne_true,
      if_neg Bool.false_ne_true]
    split_ifs
    · rw [answered_setCmb_restore]
    · rw [answered_setSlot_setCmb_restore]
  · rw [exec_srcNext_eq_srcGetn, exec_srcNext_eq_srcGetn]
    exact hgetn 1#7
  · exact hgetn n

/-- R27: SHRINK and SSHRINK leave S2 free. -/
theorem owned_s2_of_shrinking (hs : s.Shrinking) : s.owned .s2 = false := by
  rcases hs with hc | hc <;> rw [State.owned, hc] <;> rfl

end

/-- Settles O56: the units draw from S0 and S1 alone, and S2 is free as it is with none bound. -/
theorem freeSlotIsIndependentOfTheCombiner : Obligations.FreeSlotIsIndependentOfTheCombiner := by
  refine fun s hs => ⟨?_, fun i hi =>
    exec_setCmb_of_free hi (owned_s2_of_shrinking hs) (owned_of_none rfl .s2)⟩
  rintro v i (rfl | ⟨n, rfl⟩)
  · exact cmbNextUnder_setSlot_s2 Config.retryCap hs v
  · exact cmbGetnUnder_setSlot_s2 Config.retryCap n hs v

end Sys2Proof.Machine
end
